-- ==== Sys2Proof/Word.lean ====
section
/-! DEFINITION. The word types of the bus: a byte of a port message and a 32-bit bus word (R4 WORD, R65). -/

namespace Sys2Proof

/-- One byte of a hash message or digest (R82). -/
abbrev Byte := BitVec 8

/-- One 32-bit word of the register bank: the only access width (R65). -/
abbrev Word := BitVec 32

end Sys2Proof
end

