-- ==== Sys2Proof/Config.lean ====
section
/-! DEFINITION. What is fixed for this hardware (00_scope.md R4), the widths its one open parameter may take, and the two
values the spec leaves open: the hash function (R9, U8) and the word a limb read returns while BUSY (R71, U3). -/

namespace Sys2Proof.Config

/-- The widths a chip of this hardware may have: the parameter NBITS is a multiple of 32 from 3072 to 8192 (R4, U7).
`w` stands for NBITS = 3072 + 32 · w; which one a chip has is in State (log entry 1). -/
abbrev Width := Fin 161

/-- Width in bits of each `x[i]`: the parameter NBITS (R4). -/
def Width.nbits (w : Width) : Nat := 3072 + 32 * w.val

/-- 32-bit words per big-integer register: NLIMBS = NBITS / 32 (R4). -/
def Width.nlimbs (w : Width) : Nat := w.nbits / 32

/-- The default of the parameter: NBITS = 4096 (R4). -/
def defaultWidth : Width := 32

/-- Entries of the small-prime table (R4). -/
def NPRIMES : Nat := 168

/-- Output bit length of the hash oracle (R4). -/
def OUTLEN : Nat := 256

/-- Bytes of one digest (R81). -/
def DIGESTBYTES : Nat := OUTLEN / 8

/-- Miller–Rabin rounds of every generator command (R4). -/
def GEN_ROUNDS : Nat := 25

/-- Cap on the `prime2` attempts for one `prime1` in GENPG (R4, R241). -/
def MAX_LOOP : Nat := 20

/-- GENPG rejects `BITS` below this (R4, R240). -/
def PG_MIN_BITS : Nat := 128

/-- Accepted (p_bits, q_bits) pairs of GENPQ (R4, R41, R211). -/
def PQ_PAIRS : List (Nat × Nat) := [(1024, 160), (2048, 224), (2048, 256), (3072, 256)]

/-- Inner-loop iteration budget of GENPQ for a p of `L` bits (R4, R213). -/
def PQ_INNER (L : Nat) : Nat := 4 * L

/-- Initial `offset` of GENPQ (R4, R213). -/
def OFFSET0 : Nat := 1

/-- The hash oracle's function (R9, R81): any function from messages to digests of exactly `DIGESTBYTES` bytes.
It has no body: nothing else is known of it (log entry 2). -/
opaque hash : List Byte → Vector Byte DIGESTBYTES

/-- The word that the `k`-th unspecified read returns (R71, U3). It has no body (log entry 8). -/
opaque freeLimb : Nat → Word

end Sys2Proof.Config
end

