-- ==== Sys2Proof/Syntax.lean ====
section
/-! DEFINITION. The 13 commands (R104), one constructor per row of spec/opcode_table.json, and the one format C
of a command word (R101). Commands have no operand fields (R101, R102). -/

namespace Sys2Proof

/-- The commands of R104, in opcode order. -/
inductive Instr where
  /-- 0x01, R149 -/
  | isprime
  /-- 0x02, R150 -/
  | nextprime
  /-- 0x03, R173 -/
  | rndprime
  /-- 0x04, R184 -/
  | rndprimer
  /-- 0x05, R213 -/
  | genpq
  /-- 0x06, R221 -/
  | geng
  /-- 0x07, R226 -/
  | verifyg
  /-- 0x08, R245 -/
  | genpg
  /-- 0x09, R128 -/
  | powmod
  /-- 0x0A, R141 -/
  | sieve
  /-- 0x0B, R147 -/
  | mrwit
  /-- 0x0C, R205 -/
  | seedq
  /-- 0x0D, R207 -/
  | seedp
  deriving DecidableEq, Repr

/-- A command word cut into the two fields of format C (R101). -/
structure FormatC where
  /-- bits 7:0, selects the command -/
  opcode : BitVec 8
  /-- bits 31:8, must be 0 -/
  zero : BitVec 24
  deriving DecidableEq, Repr

end Sys2Proof
end

