-- ==== Sys2Proof/WellFormed.lean ====
section
/-! DEFINITION. Well-formedness of a command word (R101, R104, R105). -/

namespace Sys2Proof

/-- ZERO "must be 0; any other value makes the word illegal" (R101). -/
def FormatC.zeroClear (f : FormatC) : Bool := f.zero == 0#24

/-- OPCODE is one of 0x01 to 0x0D (R104, R105). -/
def FormatC.opcodeAssigned (f : FormatC) : Bool := decide (1 ≤ f.opcode.toNat ∧ f.opcode.toNat ≤ 13)

/-- The word is one of the 13 legal commands (R104, R105). -/
def FormatC.wellFormed (f : FormatC) : Bool := f.zeroClear && f.opcodeAssigned

/-- A command has no operand field (R101), so every term of `Instr` is well formed. -/
def Instr.wellFormed (_i : Instr) : Bool := true

end Sys2Proof
end

