-- ==== Sys2Proof/Decode.lean ====
section
/-! DEFINITION. Decoding a command word (R101, R104 to R106), total on any bytes and rejecting by name, and the
encoder written from the same table. -/

namespace Sys2Proof

/-- Why bytes are no command (R105; `shortWord`: a command is always one 32-bit word, R101). -/
inductive Reject where
  /-- fewer than the four bytes of a command word -/
  | shortWord
  /-- ZERO (bits 31:8) is not 0 -/
  | zeroFieldSet (zero : BitVec 24)
  /-- OPCODE is 0x00 or 0x0E to 0xFF -/
  | opcodeUnassigned (opcode : BitVec 8)
  deriving DecidableEq, Repr

/-- The two fields of format C (R101). -/
def formatC (w : Word) : FormatC := ⟨w.extractLsb' 0 8, w.extractLsb' 8 24⟩

/-- The opcode map (R104). -/
def opcodeMap (opcode : Nat) : Option Instr :=
  match opcode with
  | 0x01 => some .isprime
  | 0x02 => some .nextprime
  | 0x03 => some .rndprime
  | 0x04 => some .rndprimer
  | 0x05 => some .genpq
  | 0x06 => some .geng
  | 0x07 => some .verifyg
  | 0x08 => some .genpg
  | 0x09 => some .powmod
  | 0x0A => some .sieve
  | 0x0B => some .mrwit
  | 0x0C => some .seedq
  | 0x0D => some .seedp
  | _ => none

/-- Decode one command word (R104, R105). -/
def decode (w : Word) : Except Reject Instr :=
  if (formatC w).zeroClear then
    match opcodeMap (formatC w).opcode.toNat with
    | some i => .ok i
    | none => .error (.opcodeUnassigned (formatC w).opcode)
  else .error (.zeroFieldSet (formatC w).zero)

/-- A bus word from its four byte lanes, lane 0 (bits 7:0) first (R64). -/
def wordOfLanes (b0 b1 b2 b3 : Byte) : Word := b3 ++ b2 ++ b1 ++ b0

/-- Decode the command at the front of a byte sequence; the bytes after it are returned. -/
def decodeBytes (bytes : List Byte) : Except Reject (Instr × List Byte) :=
  match bytes with
  | b0 :: b1 :: b2 :: b3 :: rest =>
    match decode (wordOfLanes b0 b1 b2 b3) with
    | .ok i => .ok (i, rest)
    | .error r => .error r
  | _ => .error .shortWord

/-- The command word of a command (R104). -/
def encode (i : Instr) : Word :=
  match i with
  | .isprime => 0x00000001#32
  | .nextprime => 0x00000002#32
  | .rndprime => 0x00000003#32
  | .rndprimer => 0x00000004#32
  | .genpq => 0x00000005#32
  | .geng => 0x00000006#32
  | .verifyg => 0x00000007#32
  | .genpg => 0x00000008#32
  | .powmod => 0x00000009#32
  | .sieve => 0x0000000A#32
  | .mrwit => 0x0000000B#32
  | .seedq => 0x0000000C#32
  | .seedp => 0x0000000D#32

/-- The command word whose low `nbits` bits are those of `w` and whose other bits are 0. -/
def tableWord (nbits w : Nat) : Word := BitVec.ofNat 32 (w % 2 ^ nbits)

/-- The command that `decodeBytes` reads from the table word laid out in its four byte lanes. -/
def decodeTableWord (nbits w : Nat) : Option Instr :=
  let v := tableWord nbits w
  match decodeBytes [v.extractLsb' 0 8, v.extractLsb' 8 8, v.extractLsb' 16 8, v.extractLsb' 24 8] with
  | .ok (i, _) => some i
  | .error _ => none

end Sys2Proof
end

