-- ==== Sys2Proof/Machine/State.lean ====
section
/-! DEFINITION. The machine's state (10_state.md R20), its reset value (R50), and the reasons a step can stop. -/

namespace Sys2Proof.Machine

/-- The six fields of STATUS (R35); bits 31:6 are reserved and read 0 (log entry 13). -/
structure Status where
  /-- bit 0: a command is executing -/
  busy : Bool
  /-- bit 1, W1C: the last command has ended -/
  done : Bool
  /-- bit 2: the last command ended with an error -/
  err : Bool
  /-- bit 3: boolean result -/
  res : Bool
  /-- bit 4: SIEVE found no table entry that divides n -/
  undec : Bool
  /-- bit 5, W1C: a host write was ignored because BUSY = 1 -/
  wign : Bool
  deriving DecidableEq, Repr

/-- A request of the engine on one of its two ports (R76, R77, R80). -/
inductive Request where
  | randBits (k : Nat)
  | randRange (lo hi : Nat)
  | hash (message : List Byte)
  deriving DecidableEq, Repr

/-- The working state of the command in flight (R20, R45), kept as the port answers it has received: with the
operand registers, which do not change while BUSY = 1 (R36), they fix every other working value (log entry 6). -/
structure InFlight where
  /-- the command -/
  instr : Instr
  /-- the random answers received so far, oldest first -/
  drawn : List Nat
  /-- how many digests have been received so far -/
  digests : Nat
  /-- the request that is outstanding, if any: at most one (R75, R80) -/
  outstanding : Option Request
  deriving DecidableEq, Repr

/-- One event of the world outside, or the engine's turn to move (R72, log entries 4 and 5). -/
inductive Event where
  /-- a host read of `width` bits at byte offset `addr` -/
  | read (addr width : Nat)
  /-- a host write of `width` bits at byte offset `addr` -/
  | write (addr width : Nat) (data : Word)
  /-- the reset input is asserted and released (R300) -/
  | reset
  /-- the random source answers (R75) -/
  | randAnswer (v : Nat)
  /-- the hash oracle answers (R80) -/
  | hashAnswer
  /-- straight after the event that lets the engine move: the host moves first (log entry 5) -/
  | engineLate
  /-- the engine moves -/
  | engine
  deriving DecidableEq, Repr

/-- What the last host access got back on the bus. -/
inductive Reply where
  /-- no access since reset -/
  | none
  /-- a write was taken by the bus -/
  | accepted
  /-- a read returned this word -/
  | data (w : Word)
  deriving DecidableEq, Repr

/-- The state of the MRE (R20), with the environment's pending events and answers as plain data. The content of a
big-integer register is a natural (R6, R21); that it stays below 2^NBITS is part of the invariant `State.Consistent`. -/
structure State where
  /-- the chip's width NBITS, which no step changes (R4, log entry 1) -/
  width : Config.Width
  x0 : Nat
  x1 : Nat
  x2 : Nat
  x3 : Nat
  bits : Word
  qbits : Word
  seedbits : Word
  rounds : Word
  offset : Word
  cmd : Word
  status : Status
  cause : Word
  einfo : Word
  /-- CTRL bit 0 (R39) -/
  ie : Bool
  /-- the command in flight (R45) -/
  inFlight : Option InFlight
  /-- the requests of the command in flight or of the last command, oldest first (R12, log entry 10) -/
  requests : List Request
  /-- the model's own: the reply to the last host access (log entry 10) -/
  reply : Reply
  /-- the model's own: the events to come, next first (log entry 4) -/
  script : List Event
  /-- the model's own: answers the random source has ready, next first (log entry 3) -/
  randIn : List Nat
  /-- the model's own: hash requests the oracle is ready to answer (log entry 2) -/
  hashIn : Nat
  /-- the model's own: unspecified words read so far (log entry 8) -/
  freeReads : Nat
  deriving DecidableEq, Repr

/-- Why the machine stops with a fault. -/
inductive Fault where
  /-- Raised by a host access that is not an aligned 32-bit access below 0x2000 (R65, log entry 9). The bus answers
  with its error response and no state changes. Safe. -/
  | busRefused (addr width : Nat)
  deriving DecidableEq, Repr

/-- Why a step has no meaning. -/
inductive Refusal where
  /-- Raised by `exec` for a command that has no meaning yet: none is left. Safe. -/
  | notModelled (mnemonic : String)
  /-- Raised when the random source answers outside the range of the request (R79, U4: unspecified; log entry 3). Safe. -/
  | randomContract (request : Request) (answer : Nat)
  deriving DecidableEq, Repr

/-- STATUS after reset (R50). -/
def Status.zero : Status := ⟨false, false, false, false, false, false⟩

/-- NBITS of the chip (R4). -/
def State.nbits (s : State) : Nat := s.width.nbits

/-- NLIMBS of the chip (R4). -/
def State.nlimbs (s : State) : Nat := s.width.nlimbs

/-- A chip of the given width right after reset (R50). The last six fields are the model's own (log entries 2, 3, 4, 8,
10). -/
def State.resetOf (width : Config.Width) : State where
  width := width
  x0 := 0
  x1 := 0
  x2 := 0
  x3 := 0
  bits := 0#32
  qbits := 0#32
  seedbits := 0#32
  rounds := 0#32
  offset := 0#32
  cmd := 0#32
  status := Status.zero
  cause := 0#32
  einfo := 0#32
  ie := false
  inFlight := none
  requests := []
  reply := .none
  script := []
  randIn := []
  hashIn := 0
  freeReads := 0

/-- The machine right after reset (R50), at the default width (R4). -/
def State.reset : State := State.resetOf Config.defaultWidth

end Sys2Proof.Machine
end

