-- ==== Sys2Proof/Machine/Flags.lean ====
section
/-! DEFINITION. Every computation of a STATUS field the spec gives (R35, R36, R105, R263, R264, R306), the STATUS
and CTRL words as a read returns them, and the interrupt line (R39, R270). -/

namespace Sys2Proof.Machine

/-- The STATUS word (R35): bit 0 BUSY, 1 DONE, 2 ERR, 3 RES, 4 UNDEC, 5 WIGN; bits 31:6 read 0. -/
def Status.toWord (f : Status) : Word :=
  0#26 ++ BitVec.ofBool f.wign ++ BitVec.ofBool f.undec ++ BitVec.ofBool f.res ++ BitVec.ofBool f.err
    ++ BitVec.ofBool f.done ++ BitVec.ofBool f.busy

/-- Command start (R36): BUSY <- 1; DONE, ERR, RES, UNDEC <- 0; WIGN is not changed. -/
def Status.started (f : Status) : Status :=
  { f with busy := true, done := false, err := false, res := false, undec := false }

/-- Success outcome (R263): RES and UNDEC as the command's rule gives; ERR stays; BUSY <- 0; DONE <- 1. -/
def Status.succeeded (res undec : Bool) (f : Status) : Status :=
  { f with busy := false, done := true, res := res, undec := undec }

/-- Error outcome (R264), and an illegal word (R105): ERR <- 1; RES, UNDEC <- 0; BUSY <- 0; DONE <- 1. -/
def Status.failed (f : Status) : Status :=
  { f with busy := false, done := true, err := true, res := false, undec := false }

/-- A host write of `v` to STATUS (R35): a 1 in bit 1 clears DONE, a 1 in bit 5 clears WIGN, nothing else. -/
def Status.writeOneToClear (v : Word) (f : Status) : Status :=
  { f with done := f.done && !v.getLsbD 1, wign := f.wign && !v.getLsbD 5 }

/-- A host write was ignored because BUSY = 1 (R306, R307): WIGN <- 1. -/
def Status.writeIgnored (f : Status) : Status := { f with wign := true }

/-- The CTRL word (R39): bit 0 IE; bits 31:1 read 0. -/
def State.ctrlWord (s : State) : Word := 0#31 ++ BitVec.ofBool s.ie

/-- The interrupt output: `irq = CTRL.IE and STATUS.DONE` at all times (R39, R270). -/
def State.irq (s : State) : Bool := s.ie && s.status.done

/-- The three phases (R30). -/
inductive Phase where
  | idle
  | busy
  | done
  deriving DecidableEq, Repr

/-- The phase that BUSY and DONE encode (R30). -/
def Status.phase (f : Status) : Phase := if f.busy then .busy else if f.done then .done else .idle

end Sys2Proof.Machine
end

