-- ==== Sys2Proof/Machine/Operands.lean ====
section
/-! DEFINITION. The operand forms: big-integer registers by number (R21, R23), their 32-bit limbs (R24, R63),
the five parameter registers (R32, R102), and the result registers a command writes at success (R23, R129). -/

namespace Sys2Proof.Machine

/-- `x[i]`: as an operand, the natural it holds (R21, R102). -/
def State.x (s : State) (i : Fin 4) : Nat :=
  match i with
  | 0 => s.x0
  | 1 => s.x1
  | 2 => s.x2
  | 3 => s.x3

/-- `x[i]` replaced by `v`. -/
def State.setX (s : State) (i : Fin 4) (v : Nat) : State :=
  match i with
  | 0 => { s with x0 := v }
  | 1 => { s with x1 := v }
  | 2 => { s with x2 := v }
  | 3 => { s with x3 := v }

/-- Limb `j` of a big-integer register: bits 32j+31 : 32j of its value (R63). -/
def getLimb (v j : Nat) : Word := BitVec.ofNat 32 (v >>> (32 * j))

/-- The value with limb `j` replaced by `w`: the limbs below j, then `w`, then the limbs above j (R63). -/
def setLimb (v j : Nat) (w : Word) : Nat :=
  2 ^ (32 * j) * (2 ^ 32 * (v / 2 ^ (32 * j + 32)) + w.toNat) + v % 2 ^ (32 * j)

/-- The five parameter registers (R32). -/
inductive Param where
  | bits
  | qbits
  | seedbits
  | rounds
  | offset
  deriving DecidableEq, Repr

/-- Read a parameter register (R32). -/
def State.param (s : State) (p : Param) : Word :=
  match p with
  | .bits => s.bits
  | .qbits => s.qbits
  | .seedbits => s.seedbits
  | .rounds => s.rounds
  | .offset => s.offset

/-- A parameter register replaced by `w`. -/
def State.setParam (s : State) (p : Param) (w : Word) : State :=
  match p with
  | .bits => { s with bits := w }
  | .qbits => { s with qbits := w }
  | .seedbits => { s with seedbits := w }
  | .rounds => { s with rounds := w }
  | .offset => { s with offset := w }

/-- A scalar operand: the full 32-bit value, zero-extended (R102). -/
def State.paramNat (s : State) (p : Param) : Nat := (s.param p).toNat

/-- What a command delivers at success (R23, R263): a value for each result register, and the two result flags,
which are 0 where the command's rule gives none. -/
structure Result where
  x0 : Option Nat := none
  x1 : Option Nat := none
  x2 : Option Nat := none
  x3 : Option Nat := none
  res : Bool := false
  undec : Bool := false
  deriving DecidableEq, Repr

/-- The new content of a result register: the value the command delivers, whole (R129: never reduced modulo 2^NBITS),
else what it held (R23). -/
def resultReg (old : Nat) (v : Option Nat) : Nat := v.getD old

/-- All result registers at once (R263). -/
def writeResults (r : Result) (s : State) : State :=
  { s with
    x0 := resultReg s.x0 r.x0
    x1 := resultReg s.x1 r.x1
    x2 := resultReg s.x2 r.x2
    x3 := resultReg s.x3 r.x3 }

end Sys2Proof.Machine
end

