-- ==== Sys2Proof/Machine/Ports.lean ====
section
/-! DEFINITION. The two request ports as the engine uses them (R75 to R84), and the ways a command stops. A command's
algorithm is a function from the answers the ports give to a result: "a relation from (start state, answers of the
ports) to an end state" (R11, R12). -/

namespace Sys2Proof.Machine

/-- The error causes (R261). -/
inductive ErrorKind where
  | invalidParameters
  | resourceExhausted
  | internalConsistency
  | illegalCommand
  | overflow
  deriving DecidableEq, Repr

/-- The code of a cause in CAUSE[3:0]; bits 31:4 are 0 (R261, R37). -/
def ErrorKind.code (e : ErrorKind) : Word :=
  match e with
  | .invalidParameters => 1#32
  | .resourceExhausted => 2#32
  | .internalConsistency => 3#32
  | .illegalCommand => 4#32
  | .overflow => 5#32

/-- Why a command's algorithm has no result. -/
inductive Stop where
  /-- `raise E(info)` (R264) -/
  | raise (e : ErrorKind) (info : Word)
  /-- the request is outstanding and not answered yet (R78, R80) -/
  | wait (r : Request)
  /-- the loop never ends (R11, R304) -/
  | never
  /-- the random source answered out of range (R79, U4) -/
  | badAnswer (r : Request) (v : Nat)
  deriving DecidableEq, Repr

/-- The ports during one run of a command. -/
structure Ports where
  /-- the hash oracle's function (R9) -/
  oracle : List Byte → Vector Byte Config.DIGESTBYTES
  /-- answers the random source will give, next first -/
  rand : List Nat
  /-- how many hash requests will be answered -/
  hash : Nat
  /-- random answers taken, newest first -/
  drawn : List Nat
  /-- digests taken -/
  digests : Nat
  /-- requests sent, newest first -/
  sent : List Request

/-- A part of a command's algorithm. -/
abbrev Engine := EStateM Stop Ports

/-- `raise E(info)` (R7). -/
def raise {α : Type} (e : ErrorKind) (info : Word) : Engine α := throw (.raise e info)

/-- A loop that has been shown to repeat for ever (R11). -/
def never {α : Type} : Engine α := throw .never

/-- One request to the random source and its answer (R75): the request is sent; without an answer the engine waits
(R78); an answer outside `range` breaks the port's contract (R79). -/
def draw (r : Request) (range : Nat → Bool) : Engine Nat := fun p =>
  match p.rand with
  | [] => .error (.wait r) { p with sent := r :: p.sent }
  | v :: rest =>
    if range v then .ok v { p with rand := rest, drawn := v :: p.drawn, sent := r :: p.sent }
    else .error (.badAnswer r v) { p with sent := r :: p.sent }

/-- `RandBits(k)`: a natural in [0, 2^k − 1] (R76). -/
def randBits (k : Nat) : Engine Nat := draw (.randBits k) fun v => decide (v < 2 ^ k)

/-- `RandRange(lo, hi)`: a natural in [lo, hi] (R77). -/
def randRange (lo hi : Nat) : Engine Nat := draw (.randRange lo hi) fun v => decide (lo ≤ v) && decide (v ≤ hi)

/-- One search direction: `RandBits(1)`, 1 increment, 0 decrement (R76). -/
def randDirection : Engine Bool := do
  let d ← randBits 1
  pure (d == 1)

/-- One hash request: the whole message, answered by its digest (R80, R81). -/
def hashRequest (message : List Byte) : Engine (Vector Byte Config.DIGESTBYTES) := fun p =>
  match p.hash with
  | 0 => .error (.wait (.hash message)) { p with sent := .hash message :: p.sent }
  | n + 1 =>
    .ok (p.oracle message) { p with hash := n, digests := p.digests + 1, sent := .hash message :: p.sent }

/-- Run an unbounded loop each of whose rounds takes at least one random answer: with `n` answers ready, round
`n + 1` at the latest waits for one, so `n + 1` rounds are the whole loop (log entry 7). -/
def whileAnswered {α : Type} (loop : Nat → Engine α) : Engine α := fun p => (loop (p.rand.length + 1)).run p

/-- `I2BE(v, len)`: `len` bytes, most significant first, zero-padded on the left (R82). -/
def i2be (v len : Nat) : List Byte :=
  (List.range len).map fun k => BitVec.ofNat 8 (v >>> (8 * (len - 1 - k)))

/-- `BE2I(bytes)` (R82). -/
def be2i (bytes : List Byte) : Nat := bytes.foldl (fun acc b => acc * 256 + b.toNat) 0

/-- Bytes of the seed buffer: `ceil(S / 8)` (R83). -/
def seedBytes (S : Nat) : Nat := (S + 7) / 8

/-- `H(v, S) = BE2I(hash(I2BE(v mod 2^S, ceil(S/8))))` (R83). -/
def hashInt (v S : Nat) : Engine Nat := do
  let digest ← hashRequest (i2be (v % 2 ^ S) (seedBytes S))
  pure (be2i digest.toList)

end Sys2Proof.Machine
end

