-- ==== Sys2Proof/Machine/Ops.lean ====
section
/-! DEFINITION. The operations every command shares: command start (R36), the success outcome (R263), the error
outcome, which is this hardware's exception entry (R264, R266), the illegal word (R105), the acknowledge, which is its
return (R267), a write ignored while BUSY (R306), and the engine's move. -/

namespace Sys2Proof.Machine

/-- Command start, one indivisible step (R36). No request of the new command has been sent yet. -/
def startCommand (i : Instr) (s : State) : State :=
  { s with
    cmd := encode i
    status := s.status.started
    cause := 0#32
    einfo := 0#32
    inFlight := some ⟨i, [], 0, none⟩
    requests := [] }

/-- The success outcome `done`, one indivisible step (R263). -/
def succeed (r : Result) (s : State) : State :=
  { writeResults r s with status := s.status.succeeded r.res r.undec, inFlight := none }

/-- The error outcome `raise E(info)`, one indivisible step (R264): the machine's exception entry. Nothing is saved and
control goes nowhere (R266). -/
def raiseError (e : ErrorKind) (info : Word) (s : State) : State :=
  { s with cause := e.code, einfo := info, status := s.status.failed, inFlight := none }

/-- An illegal word `w` written to CMD while BUSY = 0 (R105): IllegalCommand with EINFO = w; BUSY is never set and no
request is sent. -/
def illegalCommand (w : Word) (s : State) : State :=
  raiseError .illegalCommand w { s with cmd := w, requests := [] }

/-- A host write that is ignored because BUSY = 1 (R306, R307). -/
def ignoreWrite (s : State) : State := { s with status := s.status.writeIgnored }

/-- A host write of `v` to STATUS (R35, R267): writing 1 to DONE is the acknowledge, the return from an outcome. -/
def acknowledge (v : Word) (s : State) : State := { s with status := s.status.writeOneToClear v }

/-- The ports for a run of the command in flight: first the answers it has already received, then those that are
ready (log entry 6). -/
def enginePorts (f : InFlight) (s : State) : Ports where
  oracle := Config.hash
  rand := f.drawn ++ s.randIn
  hash := f.digests + s.hashIn
  drawn := []
  digests := 0
  sent := []

/-- What a run leaves on the ports: the answers it did not take, and the requests it sent. -/
def leavePorts (p : Ports) (s : State) : State :=
  { s with randIn := p.rand, hashIn := p.hash, requests := p.sent.reverse }

/-- The command stays in flight, with the answers it has taken and the request that is outstanding (R78). -/
def holdCommand (f : InFlight) (outstanding : Option Request) (p : Ports) (s : State) : State :=
  { leavePorts p s with inFlight := some ⟨f.instr, p.drawn.reverse, p.digests, outstanding⟩ }

/-- The state a run of the command in flight ends in. -/
def conclude (f : InFlight) (s : State) (ran : EStateM.Result Stop Ports Result) : Host.Outcome State Fault Refusal :=
  match ran with
  | .ok r p => .next (succeed r (leavePorts p s))
  | .error (.raise e info) p => .next (raiseError e info (leavePorts p s))
  | .error (.wait r) p => .next (holdCommand f (some r) p s)
  | .error .never p => .next (holdCommand f none p s)
  | .error (.badAnswer r v) _ => .refused (.randomContract r v)

/-- The engine moves: the command in flight runs as far as the ports answer. Without a command nothing moves. -/
def runEngine (body : State → Engine Result) (s : State) : Host.Outcome State Fault Refusal :=
  match s.inFlight with
  | none => .next s
  | some f => conclude f s ((body s).run (enginePorts f s))

/-- The engine may move: it does, unless the next event says that the host moves first (log entry 5). -/
def engineTurn (body : State → Engine Result) (s : State) : Host.Outcome State Fault Refusal :=
  match s.script with
  | .engineLate :: rest => .next { s with script := rest }
  | _ => runEngine body s

/-- Issue a legal command (R100): ignored with WIGN while BUSY = 1, else it starts and executes. -/
def issue (i : Instr) (body : State → Engine Result) (s : State) : Host.Outcome State Fault Refusal :=
  if s.status.busy then .next (ignoreWrite s) else engineTurn body (startCommand i s)

end Sys2Proof.Machine
end

