-- ==== Sys2Proof/Machine/Bank.lean ====
section
/-! DEFINITION. The register bank as the host sees it (20_memory.md R60 to R71): which word owns an offset, reads, and
every write but that of CMD. -/

namespace Sys2Proof.Machine

/-- Size of the bank in bytes (R60). -/
def bankSize : Nat := 0x2000

/-- The bus takes naturally aligned 32-bit accesses inside the bank and refuses every other (R65). -/
def busAccepts (addr width : Nat) : Bool :=
  decide (width = 32) && decide (addr % 4 = 0) && decide (addr < bankSize)

/-- The owners of the words of the bank (R31, R63, R66 to R68). -/
inductive BankWord where
  | id
  | cap
  | cmd
  | status
  | cause
  | einfo
  | ctrl
  | param (p : Param)
  | table (i : Nat)
  | limb (i : Fin 4) (j : Nat)
  | reserved
  deriving DecidableEq, Repr

/-- The control registers by offset (R31). -/
def controlWord (addr : Nat) : BankWord :=
  match addr with
  | 0x000 => .id
  | 0x004 => .cap
  | 0x008 => .cmd
  | 0x00C => .status
  | 0x010 => .cause
  | 0x014 => .einfo
  | 0x018 => .ctrl
  | 0x020 => .param .bits
  | 0x024 => .param .qbits
  | 0x028 => .param .seedbits
  | 0x02C => .param .rounds
  | 0x030 => .param .offset
  | _ => .reserved

/-- The owner of the word at an aligned offset below 0x2000 (R66): control registers, the table window (R67), the limbs
(R63), and reserved words, among them those of a stride at and above `nlimbs`. -/
def bankWord (nlimbs addr : Nat) : BankWord :=
  if addr < 0x400 then controlWord addr
  else if addr < 0x400 + 4 * Config.NPRIMES then .table ((addr - 0x400) / 4)
  else if addr < 0x1000 then .reserved
  else
    let j := (addr - 0x1000) % 0x400 / 4
    if j < nlimbs then .limb (Fin.ofNat 4 ((addr - 0x1000) / 0x400)) j else .reserved

/-- `ID` reads 0x4D524531 always (R33). -/
def idWord : Word := 0x4D524531#32

/-- `CAP`: NBITS in 15:0, DIGESTBYTES in 23:16, NPRIMES in 31:24 (R34). -/
def capWord (nbits : Nat) : Word :=
  BitVec.ofNat 8 Config.NPRIMES ++ BitVec.ofNat 8 Config.DIGESTBYTES ++ BitVec.ofNat 16 nbits

/-- The word a read returns (R61, R67, R68, R71). A limb read while BUSY = 1 is unspecified: a free value (U3). -/
def bankRead (b : BankWord) (s : State) : Word :=
  match b with
  | .id => idWord
  | .cap => capWord s.nbits
  | .cmd => s.cmd
  | .status => s.status.toWord
  | .cause => s.cause
  | .einfo => s.einfo
  | .ctrl => s.ctrlWord
  | .param p => s.param p
  | .table i => BitVec.ofNat 32 (tableEntry i)
  | .limb i j => if s.status.busy then Config.freeLimb s.freeReads else getLimb (s.x i) j
  | .reserved => 0#32

/-- Whether a read returns an unspecified word (R71). -/
def readIsFree (b : BankWord) (s : State) : Bool :=
  match b with
  | .limb _ _ => s.status.busy
  | .id | .cap | .cmd | .status | .cause | .einfo | .ctrl | .param _ | .table _ | .reserved => false

/-- `MemRead(addr, 4)` (R61): no effect on the machine. The reply and the count of unspecified words are the model's own. -/
def hostRead (addr width : Nat) (s : State) : Host.Outcome State Fault Refusal :=
  if busAccepts addr width then
    let b := bankWord s.nlimbs addr
    .next { s with
      reply := .data (bankRead b s)
      freeReads := if readIsFree b s then s.freeReads + 1 else s.freeReads }
  else .fault (.busRefused addr width)

/-- A write to an operand word: stored if BUSY = 0, else ignored with WIGN <- 1 (R62 (d), R306). -/
def operandWrite (store : State → State) (s : State) : State :=
  if s.status.busy then ignoreWrite s else store s

/-- A write of `v` to any word but CMD (R62 (b) to (e)). -/
def plainWrite (b : BankWord) (v : Word) (s : State) : State :=
  match b with
  | .status => acknowledge v s
  | .ctrl => { s with ie := v.getLsbD 0 }
  | .param p => operandWrite (fun t => t.setParam p v) s
  | .limb i j => operandWrite (fun t => t.setX i (setLimb (t.x i) j v)) s
  | .id | .cap | .cmd | .cause | .einfo | .table _ | .reserved => s

end Sys2Proof.Machine
end

