-- ==== Sys2Proof/Machine/Arith.lean ====
section
/-! DEFINITION. Integer arithmetic (R120 to R126) and POWMOD (R128). Values are naturals: sum, product, `/` and `%` of
Nat are the exact operations of R121 and R123. -/

namespace Sys2Proof.Machine

/-- Number of bits of `v`; `bitlen(0) = 0` (R5, R126). -/
def bitlen (v : Nat) : Nat := if v = 0 then 0 else Nat.log2 v + 1

/-- The reference loop of modular exponentiation (R124), `fuel` at least `bitlen e`. -/
def powModLoop (m : Nat) : (fuel r b e : Nat) → Nat
  | 0, r, _, _ => r
  | fuel + 1, r, b, e =>
    if e = 0 then r
    else powModLoop m fuel (if e % 2 = 1 then r * b % m else r) (b * b % m) (e / 2)

/-- `a^e mod m` for m ≥ 1 (R124), by the rule's reference loop. -/
def powMod (a e m : Nat) : Nat := powModLoop m (bitlen e) (1 % m) (a % m) e

/-- POWMOD's algorithm (R128). -/
def bodyPowmod (s : State) : Engine Result :=
  let m := s.x 0
  let e := s.x 1
  let a := s.x 2
  if m = 0 then raise .invalidParameters 8#32
  else pure { x3 := some (powMod a e m) }

/-- POWMOD: `x[3] <- x[2]^x[1] mod x[0]` (R128). -/
def execPowmod (s : State) : Host.Outcome State Fault Refusal := issue .powmod bodyPowmod s

end Sys2Proof.Machine
end

