-- ==== Sys2Proof/Machine/Primality.lean ====
section
/-! DEFINITION. The primality engine (41_primality.md): SIEVE, MRWIT, ISPRIME, NEXTPRIME. -/

namespace Sys2Proof.Machine

/-- The sieve's three verdicts (R140). -/
inductive Verdict where
  | prime
  | composite
  | undecided
  deriving DecidableEq, Repr

/-- Trial division by the entries in ascending order; the first that divides decides (R140). -/
def sieveScan (n : Nat) : List Nat → Verdict
  | [] => .undecided
  | t :: rest => if n % t = 0 then (if n = t then .prime else .composite) else sieveScan n rest

/-- `sieve(n)` (R140). -/
def sieve (n : Nat) : Verdict := if n < 2 then .composite else sieveScan n smallPrimeTable

/-- SIEVE's algorithm (R141). -/
def bodySieve (s : State) : Engine Result :=
  let v := sieve (s.x 0)
  pure { res := v == .prime, undec := v == .undecided }

/-- SIEVE: RES and UNDEC from trial division of `x[0]` (R141). -/
def execSieve (s : State) : Host.Outcome State Fault Refusal := issue .sieve bodySieve s

/-- Halve while even, counting shifts (R142); `fuel` at least the number of halvings. -/
def halveWhileEven : (fuel d r : Nat) → Nat × Nat
  | 0, d, r => (d, r)
  | fuel + 1, d, r => if d % 2 = 0 then halveWhileEven fuel (d / 2) (r + 1) else (d, r)

/-- `decompose(n)`: n − 1 = d · 2^r with d odd, for n ≥ 2 (R142). -/
def decompose (n : Nat) : Nat × Nat := halveWhileEven (bitlen (n - 1)) (n - 1) 0

/-- The squarings of a round: up to `k` more, passing when one reaches n − 1 (R146). -/
def squarings (n : Nat) : (k x : Nat) → Bool
  | 0, _ => false
  | k + 1, x => if x * x % n = n - 1 then true else squarings n k (x * x % n)

/-- `mr_round(n, d, r, a)` (R146). -/
def mrRound (n d r a : Nat) : Bool :=
  let x := powMod a d n
  if x = 1 ∨ x = n - 1 then true else squarings n (r - 1) x

/-- MRWIT's algorithm (R147). -/
def bodyMrwit (s : State) : Engine Result :=
  let n := s.x 0
  let a := s.x 2
  if n % 2 = 0 ∨ n < 5 then raise .invalidParameters 11#32
  else if a < 2 ∨ a + 2 > n then raise .invalidParameters 12#32
  else
    let dr := decompose n
    pure { res := mrRound n dr.1 dr.2 a }

/-- MRWIT: one Miller–Rabin round on `x[0]` with the witness in `x[2]` (R147). -/
def execMrwit (s : State) : Host.Outcome State Fault Refusal := issue .mrwit bodyMrwit s

/-- Step 3 of `is_prime`: at most `rounds` rounds, one draw each, early exit on a failed one (R148). -/
def mrRounds (n d r : Nat) : (rounds : Nat) → Engine Bool
  | 0 => pure true
  | k + 1 => do
    let a ← randRange 2 (n - 2)
    if mrRound n d r a then mrRounds n d r k else pure false

/-- `is_prime(n, rounds)` (R148). -/
def isPrime (n rounds : Nat) : Engine Bool :=
  match sieve n with
  | .prime => pure true
  | .composite => pure false
  | .undecided => mrRounds n (decompose n).1 (decompose n).2 rounds

/-- ISPRIME's algorithm (R149). -/
def bodyIsprime (s : State) : Engine Result := do
  let b ← isPrime (s.x 0) (s.paramNat .rounds)
  pure { res := b }

/-- ISPRIME: probabilistic primality test of `x[0]` with ROUNDS rounds (R149). -/
def execIsprime (s : State) : Host.Outcome State Fault Refusal := issue .isprime bodyIsprime s

/-- The walk of NEXTPRIME (R150): test, then step by 2 unless that leaves the register width. From any start the walk
leaves the width within 2^NBITS tests, so that many are the whole loop (log entry 7). -/
def nextPrimeWalk (nbits rounds : Nat) : (fuel n : Nat) → Engine Nat
  | 0, _ => never
  | fuel + 1, n => do
    let b ← isPrime n rounds
    if b then pure n
    else if n + 2 ≥ 2 ^ nbits then raise .overflow 0#32
    else nextPrimeWalk nbits rounds fuel (n + 2)

/-- NEXTPRIME's algorithm (R150): an even start is first moved to n + 1. -/
def bodyNextprime (s : State) : Engine Result := do
  let n := s.x 0
  let start := if n % 2 = 0 then n + 1 else n
  let found ← nextPrimeWalk s.nbits (s.paramNat .rounds) (2 ^ s.nbits) start
  pure { x0 := some found }

/-- NEXTPRIME: `x[0] <-` the first probable prime found at or above `x[0]` (R150). -/
def execNextprime (s : State) : Host.Outcome State Fault Refusal := issue .nextprime bodyNextprime s

end Sys2Proof.Machine
end

