-- ==== Sys2Proof/Machine/PrimeGen.lean ====
section
/-! DEFINITION. The prime generator (42_prime_generator.md): RNDPRIME, RNDPRIMER. -/

namespace Sys2Proof.Machine

/-- `mkcand(bits, v) = v | 2^(bits−1) | 1` (R170). -/
def mkcand (bits v : Nat) : Nat := v ||| 2 ^ (bits - 1) ||| 1

/-- `step_bits(bits, cand, dir)`: one step by ±2 with the boundary reset (R171). -/
def stepBits (bits cand : Nat) (up : Bool) : Nat :=
  if up then
    if cand + 2 ≥ 2 ^ bits then 2 ^ (bits - 1) + 1 else cand + 2
  else
    if cand < 2 ^ (bits - 1) + 2 then 2 ^ bits - 1 else cand - 2

/-- The search loop of `random_prime` (R172). -/
def randomPrimeSearch (bits : Nat) (up : Bool) : (fuel cand : Nat) → Engine Nat
  | 0, _ => never
  | fuel + 1, cand => do
    let b ← isPrime cand Config.GEN_ROUNDS
    if b then pure cand else randomPrimeSearch bits up fuel (stepBits bits cand up)

/-- `random_prime(bits)` (R172). The walk visits every odd bits-bit value within 2^bits tests, and one of them is a
prime, which always passes: that many tests are the whole loop (log entry 7). -/
def randomPrime (bits : Nat) : Engine Nat :=
  if bits = 1 then pure 1
  else do
    let v ← randBits bits
    let up ← randDirection
    randomPrimeSearch bits up (2 ^ bits) (mkcand bits v)

/-- RNDPRIME's algorithm (R173). -/
def bodyRndprime (s : State) : Engine Result :=
  let bits := s.paramNat .bits
  if bits = 0 then raise .invalidParameters 6#32
  else if bits > s.nbits then raise .invalidParameters 7#32
  else do
    let p ← randomPrime bits
    pure { x0 := some p }

/-- RNDPRIME: `x[0] <- random_prime(BITS)` (R173). -/
def execRndprime (s : State) : Host.Outcome State Fault Refusal := issue .rndprime bodyRndprime s

/-- The short circuits of `random_prime_range`, in order (R180). -/
def rangeShortCircuit (min max : Nat) : Bool :=
  decide (max < min) || decide (max < 2) || (decide (max = min) && decide (max % 2 = 0))

/-- The normalised upper bound: an even `max` is incremented (R180). -/
def normMax (max : Nat) : Nat := if max % 2 = 0 then max + 1 else max

/-- The normalised lower bound: 0 becomes 2, another even `min` is incremented (R180). -/
def normMin (min : Nat) : Nat := if min = 0 then 2 else if min % 2 = 0 then min + 1 else min

/-- The initial candidate (R181): forced odd, redrawn while above `mx`. -/
def rangeCandidate (mn mx c : Nat) : (fuel : Nat) → Engine Nat
  | 0 => never
  | fuel + 1 => do
    let u ← randRange 0 c
    let cand := (mn + 2 * u) ||| 1
    if cand ≤ mx then pure cand else rangeCandidate mn mx c fuel

/-- `step_range(cand, dir, mn, mx)`: one step by ±2 with wrap-around (R182). -/
def stepRange (cand : Nat) (up : Bool) (mn mx : Nat) : Nat :=
  if up then
    if cand + 2 > mx then mn else cand + 2
  else if cand < mn + 2 then mx
  else if cand - 2 = 1 then mx
  else cand - 2

/-- The search loop with the budget `c`, the first argument of the recursion (R183). -/
def rangeSearch (up : Bool) (mn mx : Nat) : (c cand : Nat) → Engine Nat
  | 0, cand => do
    let b ← isPrime cand Config.GEN_ROUNDS
    if b then pure cand else raise .resourceExhausted 0#32
  | c + 1, cand => do
    let b ← isPrime cand Config.GEN_ROUNDS
    if b then pure cand
    else if c + 1 ≤ 1 then raise .resourceExhausted 0#32
    else rangeSearch up mn mx c (stepRange cand up mn mx)

/-- `random_prime_range(min, max)` (R183). -/
def randomPrimeRange (min max : Nat) : Engine Nat :=
  if rangeShortCircuit min max then pure 2
  else do
    let mn := normMin min
    let mx := normMax max
    let c := (mx - mn) / 2
    let cand ← whileAnswered (rangeCandidate mn mx c)
    let up ← randDirection
    rangeSearch up mn mx c cand

/-- RNDPRIMER's algorithm (R184). -/
def bodyRndprimer (s : State) : Engine Result := do
  let p ← randomPrimeRange (s.x 1) (s.x 2)
  pure { x0 := some p }

/-- RNDPRIMER: `x[0] <- random_prime_range(x[1], x[2])` (R184). -/
def execRndprimer (s : State) : Host.Outcome State Fault Refusal := issue .rndprimer bodyRndprimer s

end Sys2Proof.Machine
end

