-- ==== Sys2Proof/Machine/AltGen.lean ====
section
/-! DEFINITION. The alternative (p, g) generator (44_alt_generator.md): GENPG. -/

namespace Sys2Proof.Machine

/-- Left-shift `p` until its bit length is `L`, counting shifts (R241); `fuel` at least the number of shifts. -/
def shiftUpTo (L : Nat) : (fuel p shift : Nat) → Nat × Nat
  | 0, p, shift => (p, shift)
  | fuel + 1, p, shift => if bitlen p < L then shiftUpTo L fuel (p <<< 1) (shift + 1) else (p, shift)

/-- The working values the prime construction ends with (R241). -/
structure PgPrime where
  prime1 : Nat
  prime2 : Nat
  shift : Nat
  p : Nat
  deriving DecidableEq, Repr

/-- `p` and `shift` from the two primes: shift the product to L bits, add 1 (R241). -/
def pgOfPrimes (L prime1 prime2 : Nat) : PgPrime :=
  let ps := shiftUpTo L L (prime1 * prime2) 0
  ⟨prime1, prime2, ps.2, ps.1 + 1⟩

/-- Up to `left` fresh values of prime2 for one prime1 (R241). -/
def pgTries (L prime1 : Nat) : (left : Nat) → Engine (Option PgPrime)
  | 0 => pure none
  | left + 1 => do
    let prime2 ← randomPrime (L / 2 - 1)
    let c := pgOfPrimes L prime1 prime2
    let b ← isPrime c.p Config.GEN_ROUNDS
    if b then pure (some c) else pgTries L prime1 left

/-- The search for p: a fresh prime1 after MAX_LOOP failures (R241). -/
def pgSearch (L : Nat) : (fuel : Nat) → Engine PgPrime
  | 0 => never
  | fuel + 1 => do
    let prime1 ← randomPrime (L / 2)
    let found ← pgTries L prime1 Config.MAX_LOOP
    match found with
    | some c => pure c
    | none => pgSearch L fuel

/-- `exprm1 = prime1 << shift` (R242). -/
def PgPrime.exprm1 (c : PgPrime) : Nat := c.prime1 <<< c.shift

/-- `exprm2 = prime2 << shift` (R242). -/
def PgPrime.exprm2 (c : PgPrime) : Nat := c.prime2 <<< c.shift

/-- `exprm3 = (prime1 · prime2) << (shift − 1)`, or `prime1 · prime2` for shift = 0 (R242). -/
def PgPrime.exprm3 (c : PgPrime) : Nat :=
  if c.shift ≥ 1 then (c.prime1 * c.prime2) <<< (c.shift - 1) else c.prime1 * c.prime2

/-- The three tests of a base g (R243). -/
def PgPrime.accepts (c : PgPrime) (g : Nat) : Bool :=
  decide (powMod g c.exprm1 c.p ≠ 1) && decide (powMod g c.exprm2 c.p ≠ 1) && decide (powMod g c.exprm3 c.p ≠ 1)

/-- The walk of R243: increment until the three tests hold. It ends at g = p at the latest, so p + 1 tests are the
whole loop (log entry 7). -/
def pgWalk (c : PgPrime) : (fuel g : Nat) → Engine Nat
  | 0, _ => never
  | fuel + 1, g => if c.accepts g then pure g else pgWalk c fuel (g + 1)

/-- GENPG's algorithm (R245, R240 to R244). -/
def bodyGenpg (s : State) : Engine Result :=
  let L := s.paramNat .bits
  if L < Config.PG_MIN_BITS then raise .invalidParameters 4#32
  else if L > s.nbits then raise .invalidParameters 5#32
  else do
    let c ← whileAnswered (pgSearch L)
    let base ← randRange 2 (c.p - 2)
    let g ← pgWalk c (c.p + 1) base
    if powMod g (c.p - 1) c.p ≠ 1 then raise .internalConsistency 0#32
    else pure { x0 := some c.p, x2 := some g }

/-- GENPG: `x[0] <- p`, `x[2] <- g` (R245). -/
def execGenpg (s : State) : Host.Outcome State Fault Refusal := issue .genpg bodyGenpg s

end Sys2Proof.Machine
end

