-- ==== Sys2Proof/Machine/DomainParams.lean ====
section
/-! DEFINITION. The domain-parameter generator (43_domain_parameters.md): SEEDQ, SEEDP, GENPQ, GENG, VERIFYG. -/

namespace Sys2Proof.Machine

/-- `n = ceil(L / OUTLEN) − 1` (R200). -/
def streamN (L : Nat) : Nat := (L + Config.OUTLEN - 1) / Config.OUTLEN - 1

/-- `b = L − 1 − n · OUTLEN` (R200). -/
def streamB (L : Nat) : Nat := L - 1 - streamN L * Config.OUTLEN

/-- q from the hashed seed: `2^(N−1) + (U mod 2^(N−1)) + 1 − (U mod 2)` (R204). -/
def qOfHash (N U : Nat) : Nat := 2 ^ (N - 1) + U % 2 ^ (N - 1) + 1 - U % 2

/-- `derive_q(seed, S, N)` (R204): one hash request. -/
def deriveQ (seed S N : Nat) : Engine Nat := do
  let U ← hashInt seed S
  pure (qOfHash N U)

/-- SEEDQ's algorithm (R205). -/
def bodySeedq (s : State) : Engine Result :=
  let S := s.paramNat .seedbits
  let N := s.paramNat .qbits
  let seed := s.x 3
  if S = 0 ∨ S > s.nbits then raise .invalidParameters 13#32
  else if seed ≥ 2 ^ S then raise .invalidParameters 14#32
  else if N < 2 ∨ N > s.nbits then raise .invalidParameters 15#32
  else do
    let q ← deriveQ seed S N
    pure { x1 := some q }

/-- SEEDQ: `x[1] <- derive_q(x[3], SEEDBITS, QBITS)` (R205). -/
def execSeedq (s : State) : Host.Outcome State Fault Refusal := issue .seedq bodySeedq s

/-- One term of W: the last digest (j = n) is reduced to b bits, then digest j is shifted by j · OUTLEN (R206). -/
def streamTerm (n b j V : Nat) : Nat := (if j = n then V % 2 ^ b else V) <<< (j * Config.OUTLEN)

/-- W from the hashes of `seed + offset + j`, j ascending (R206, R84); `left` terms are still to come, from `j` on. -/
def assembleW (seed S offset n b : Nat) : (left j W : Nat) → Engine Nat
  | 0, _, W => pure W
  | left + 1, j, W => do
    let V ← hashInt (seed + offset + j) S
    assembleW seed S offset n b left (j + 1) (W + streamTerm n b j V)

/-- The candidate from W: X = W + 2^(L−1), c = X mod 2q, p = X + 1 − c (R206). -/
def pOfStream (L q W : Nat) : Nat :=
  let X := W + 2 ^ (L - 1)
  X + 1 - X % (2 * q)

/-- `derive_p(seed, S, offset, L, q)`: the candidate and whether it is at least 2^(L−1) (R206). -/
def deriveP (seed S offset L q : Nat) : Engine (Nat × Bool) := do
  let n := streamN L
  let W ← assembleW seed S offset n (streamB L) (n + 1) 0 0
  let p := pOfStream L q W
  pure (p, decide (p ≥ 2 ^ (L - 1)))

/-- SEEDP's algorithm (R207). -/
def bodySeedp (s : State) : Engine Result :=
  let S := s.paramNat .seedbits
  let L := s.paramNat .bits
  let seed := s.x 3
  let q := s.x 1
  if S = 0 ∨ S > s.nbits then raise .invalidParameters 13#32
  else if seed ≥ 2 ^ S then raise .invalidParameters 14#32
  else if L < 2 ∨ L > s.nbits then raise .invalidParameters 16#32
  else if q = 0 then raise .invalidParameters 17#32
  else do
    let pok ← deriveP seed S (s.paramNat .offset) L q
    pure { x0 := some pok.1, res := pok.2 }

/-- SEEDP: `x[0] <-` the step-11 candidate; RES says whether it is to be tested (R207). -/
def execSeedp (s : State) : Host.Outcome State Fault Refusal := issue .seedp bodySeedp s

/-- The test of one candidate: below 2^(L−1) it is skipped, else it is tested (R213). -/
def testCandidate (pok : Nat × Bool) : Engine Bool :=
  if pok.2 then isPrime pok.1 Config.GEN_ROUNDS else pure false

/-- "step 11" of GENPQ: at most `left` candidates for one seed; on skip and on failure the offset advances by n + 1
(R213). -/
def genpqInner (seed S L q : Nat) : (left offset : Nat) → Engine (Option Nat)
  | 0, _ => pure none
  | left + 1, offset => do
    let pok ← deriveP seed S offset L q
    let b ← testCandidate pok
    if b then pure (some pok.1) else genpqInner seed S L q left (offset + (streamN L + 1))

/-- "step 5" of GENPQ: a fresh seed each time, until one gives q and p (R213). -/
def genpqOuter (L N S : Nat) : (fuel : Nat) → Engine (Nat × Nat)
  | 0 => never
  | fuel + 1 => do
    let seed ← randBits S
    let q ← deriveQ seed S N
    let qok ← isPrime q Config.GEN_ROUNDS
    if qok then do
      let found ← genpqInner seed S L q (Config.PQ_INNER L) Config.OFFSET0
      match found with
      | some p => pure (p, q)
      | none => genpqOuter L N S fuel
    else genpqOuter L N S fuel

/-- GENPQ's algorithm (R213, R211, R212). -/
def bodyGenpq (s : State) : Engine Result :=
  let L := s.paramNat .bits
  let N := s.paramNat .qbits
  let S := s.paramNat .seedbits
  if (L, N) ∉ Config.PQ_PAIRS then raise .invalidParameters 1#32
  else if S < N then raise .invalidParameters 2#32
  else if S > s.nbits then raise .invalidParameters 3#32
  else do
    let pq ← whileAnswered (genpqOuter L N S)
    pure { x0 := some pq.1, x1 := some pq.2 }

/-- GENPQ: `x[0] <- p`, `x[1] <- q` (R213). -/
def execGenpq (s : State) : Host.Outcome State Fault Refusal := issue .genpq bodyGenpq s

/-- The next h: step ±1, cyclic inside [2, p − 2] (R220). -/
def stepGenerator (p h : Nat) (up : Bool) : Nat :=
  if up then (if h + 1 > p - 2 then 2 else h + 1)
  else if h < 3 then p - 2 else h - 1

/-- The walk of `generate_g` (R220). It is cyclic over the p − 3 values of [2, p − 2]: when all of them have been
rejected it never ends (R221, R310; log entry 7). -/
def generatorWalk (p e : Nat) (up : Bool) : (fuel h : Nat) → Engine Nat
  | 0, _ => never
  | fuel + 1, h =>
    let g := powMod h e p
    if g ≠ 1 then pure g else generatorWalk p e up fuel (stepGenerator p h up)

/-- `generate_g(p, q)` for p ≥ 4 and q ≥ 1 (R220). -/
def generateG (p q : Nat) : Engine Nat := do
  let e := (p - 1) / q
  let h ← randRange 2 (p - 2)
  let up ← randDirection
  generatorWalk p e up (p - 3) h

/-- GENG's algorithm (R221). -/
def bodyGeng (s : State) : Engine Result :=
  let p := s.x 0
  let q := s.x 1
  if p < 4 then raise .invalidParameters 9#32
  else if q = 0 then raise .invalidParameters 10#32
  else do
    let g ← generateG p q
    pure { x2 := some g }

/-- GENG: `x[2] <- generate_g(x[0], x[1])` (R221). -/
def execGeng (s : State) : Host.Outcome State Fault Refusal := issue .geng bodyGeng s

/-- `verify_g(p, q, g)` (R225). -/
def verifyG (p q g : Nat) : Bool := if g < 2 ∨ g ≥ p then false else decide (powMod g q p = 1)

/-- VERIFYG's algorithm (R226). -/
def bodyVerifyg (s : State) : Engine Result :=
  pure { res := verifyG (s.x 0) (s.x 1) (s.x 2) }

/-- VERIFYG: `STATUS.RES <- verify_g(x[0], x[1], x[2])` (R226). -/
def execVerifyg (s : State) : Host.Outcome State Fault Refusal := issue .verifyg bodyVerifyg s

end Sys2Proof.Machine
end

