-- ==== Sys2Proof/Machine/Dispatch.lean ====
section
/-! DEFINITION. One arm per command (R104): what issuing it does. -/

namespace Sys2Proof.Machine

def exec (i : Instr) (s : State) : Host.Outcome State Fault Refusal :=
  match i with
  | .isprime => Sys2Proof.Machine.execIsprime s
  | .nextprime => Sys2Proof.Machine.execNextprime s
  | .rndprime => Sys2Proof.Machine.execRndprime s
  | .rndprimer => Sys2Proof.Machine.execRndprimer s
  | .genpq => Sys2Proof.Machine.execGenpq s
  | .geng => Sys2Proof.Machine.execGeng s
  | .verifyg => Sys2Proof.Machine.execVerifyg s
  | .genpg => Sys2Proof.Machine.execGenpg s
  | .powmod => Sys2Proof.Machine.execPowmod s
  | .sieve => Sys2Proof.Machine.execSieve s
  | .mrwit => Sys2Proof.Machine.execMrwit s
  | .seedq => Sys2Proof.Machine.execSeedq s
  | .seedp => Sys2Proof.Machine.execSeedp s

end Sys2Proof.Machine
end

