-- ==== Sys2Proof/Machine/Events.lean ====
section
/-! DEFINITION. What one event does: a host access (R61, R62), reset (R300, R301), an answer on a port (R75, R80), or
the engine's own move. -/

namespace Sys2Proof.Machine

/-- The algorithm of each command, for the engine to go on with the command in flight. -/
def bodyOf (i : Instr) : State → Engine Result :=
  match i with
  | .isprime => bodyIsprime
  | .nextprime => bodyNextprime
  | .rndprime => bodyRndprime
  | .rndprimer => bodyRndprimer
  | .genpq => bodyGenpq
  | .geng => bodyGeng
  | .verifyg => bodyVerifyg
  | .genpg => bodyGenpg
  | .powmod => bodyPowmod
  | .sieve => bodySieve
  | .mrwit => bodyMrwit
  | .seedq => bodySeedq
  | .seedp => bodySeedp

/-- A write to CMD (R100): a legal word issues its command, an illegal one ends at once with IllegalCommand (R105);
while BUSY = 1 either is ignored with WIGN <- 1 (R307). -/
def commandWrite (w : Word) (s : State) : Host.Outcome State Fault Refusal :=
  match decode w with
  | .ok i => exec i s
  | .error _ => if s.status.busy then .next (ignoreWrite s) else .next (illegalCommand w s)

/-- `MemWrite(addr, 4, v)` (R62). -/
def hostWrite (addr width : Nat) (v : Word) (s : State) : Host.Outcome State Fault Refusal :=
  if busAccepts addr width then
    let t := { s with reply := .accepted }
    match bankWord s.nlimbs addr with
    | .cmd => commandWrite v t
    | .id => .next (plainWrite .id v t)
    | .cap => .next (plainWrite .cap v t)
    | .status => .next (plainWrite .status v t)
    | .cause => .next (plainWrite .cause v t)
    | .einfo => .next (plainWrite .einfo v t)
    | .ctrl => .next (plainWrite .ctrl v t)
    | .param p => .next (plainWrite (.param p) v t)
    | .table i => .next (plainWrite (.table i) v t)
    | .limb i j => .next (plainWrite (.limb i j) v t)
    | .reserved => .next (plainWrite .reserved v t)
  else .fault (.busRefused addr width)

/-- Reset (R50, R300, R301): all state of the MRE takes its reset value, in every phase; a command in flight is
abandoned, with every answer it has received, and its outstanding request dropped. The width is the chip's (R4), and what
the environment will do is not the MRE's state: both stay (log entries 1 and 11). -/
def hardReset (s : State) : State :=
  { State.resetOf s.width with script := s.script, randIn := s.randIn, hashIn := s.hashIn, freeReads := s.freeReads }

/-- The command in flight when its outstanding random request is answered: the answer is part of its working state from
then on, and goes with it (R45, R301). -/
def receiveRandom (v : Nat) (f : InFlight) : InFlight := { f with drawn := f.drawn ++ [v], outstanding := none }

/-- The command in flight when its outstanding hash request is answered. -/
def receiveDigest (f : InFlight) : InFlight := { f with digests := f.digests + 1, outstanding := none }

/-- The random source answers (R75): the answer goes to the outstanding random request and the engine may move; without
one it is ignored (R301, U17). -/
def randomAnswer (v : Nat) (s : State) : Host.Outcome State Fault Refusal :=
  match s.inFlight with
  | none => .next s
  | some f =>
    match f.outstanding with
    | some (.randBits _) | some (.randRange _ _) =>
      engineTurn (bodyOf f.instr) { s with inFlight := some (receiveRandom v f) }
    | some (.hash _) | none => .next s

/-- The hash oracle answers (R80): the outstanding hash request gets its digest and the engine may move; without one the
answer is ignored. -/
def oracleAnswer (s : State) : Host.Outcome State Fault Refusal :=
  match s.inFlight with
  | none => .next s
  | some f =>
    match f.outstanding with
    | some (.hash _) =>
      engineTurn (bodyOf f.instr) { s with inFlight := some (receiveDigest f) }
    | some (.randBits _) | some (.randRange _ _) | none => .next s

/-- The engine's own move: it goes on unless it waits for an answer (R75, R78). -/
def engineMove (s : State) : Host.Outcome State Fault Refusal :=
  match s.inFlight with
  | none => .next s
  | some f =>
    match f.outstanding with
    | some _ => .next s
    | none => runEngine (bodyOf f.instr) s

/-- One event. -/
def handleEvent (e : Event) (s : State) : Host.Outcome State Fault Refusal :=
  match e with
  | .read addr width => hostRead addr width s
  | .write addr width data => hostWrite addr width data s
  | .reset => .next (hardReset s)
  | .randAnswer v => randomAnswer v s
  | .hashAnswer => oracleAnswer s
  | .engineLate => .next s
  | .engine => engineMove s

/-- The next event of the script is taken and handled; without one only the engine can move (log entry 12). -/
def nextEvent (s : State) : Host.Outcome State Fault Refusal :=
  match s.script with
  | [] => engineMove s
  | e :: rest => handleEvent e { s with script := rest }

/-- Byte offset of CMD (R31). -/
def cmdOffset : Nat := 0x008

/-- The host's next action is to write the word `w` to CMD. -/
def placeCommand (w : Word) (s : State) : State := { s with script := .write cmdOffset 32 w :: s.script }

end Sys2Proof.Machine
end

