-- ==== Sys2Proof/Machine/Step.lean ====
section
/-! DEFINITION. One step of the machine, and the placing of a command word where the step takes its next one. -/

namespace Sys2Proof.Machine

/-- One step: the next event takes effect, completely, before the one after it (R72). -/
def step (s : State) : Host.Outcome State Fault Refusal := nextEvent s

/-- There is no instruction memory (R30): the next command is the data of the host's next write to CMD. So the command
word is placed as that write, in front of the script (log entry 4). -/
def State.withFetchWord (s : State) (nbits w : Nat) : State := placeCommand (tableWord nbits w) s

end Sys2Proof.Machine
end

