-- ==== Sys2Proof/Machine/HostScript.lean ====
section
/-! DEFINITION. The host-script notation (R110, R111) and the register aliases (R22) as the events they expand to. -/

namespace Sys2Proof.Machine

/-- The register names of 10_state.md R31 that `wr` and `rd` take. -/
inductive RegName where
  | ID
  | CAP
  | CMD
  | STATUS
  | CAUSE
  | EINFO
  | CTRL
  | BITS
  | QBITS
  | SEEDBITS
  | ROUNDS
  | OFFSET
  deriving DecidableEq, Repr

/-- `offset(REG)` (R31). -/
def RegName.byteOffset (r : RegName) : Nat :=
  match r with
  | .ID => 0x000
  | .CAP => 0x004
  | .CMD => 0x008
  | .STATUS => 0x00C
  | .CAUSE => 0x010
  | .EINFO => 0x014
  | .CTRL => 0x018
  | .BITS => 0x020
  | .QBITS => 0x024
  | .SEEDBITS => 0x028
  | .ROUNDS => 0x02C
  | .OFFSET => 0x030

/-- `wr REG, v` (R110). -/
def scriptWr (r : RegName) (v : Word) : List Event := [.write r.byteOffset 32 v]

/-- `rd REG` (R110). -/
def scriptRd (r : RegName) : List Event := [.read r.byteOffset 32]

/-- `<MNEMONIC>`: issue the command (R110). -/
def scriptIssue (i : Instr) : List Event := scriptWr .CMD (encode i)

/-- `ack` (R110). -/
def scriptAck : List Event := scriptWr .STATUS 2#32

/-- `wait` as the `polls` reads of STATUS it takes (R110); how many they are is the host's decision. -/
def scriptWait (polls : Nat) : List Event := List.replicate polls (.read 0x00C 32)

/-- Byte offset of limb `j` of `x[i]` (R63). -/
def limbOffset (i j : Nat) : Nat := 0x1000 + 0x400 * i + 4 * j

/-- `ldx xi, v`: all NLIMBS limbs in ascending order, the zero ones included (R111). -/
def scriptLdx (nlimbs : Nat) (i : Fin 4) (v : Nat) : List Event :=
  (List.range nlimbs).map fun j => .write (limbOffset i.val j) 32 (getLimb v j)

/-- `rdx xi` (R111). -/
def scriptRdx (nlimbs : Nat) (i : Fin 4) : List Event :=
  (List.range nlimbs).map fun j => .read (limbOffset i.val j) 32

/-- The value of a big-integer register from its limbs (R24, R111). -/
def valueOfLimbs (limbs : List Word) : Nat := limbs.foldr (fun w acc => w.toNat + 2 ^ 32 * acc) 0

/-- The register a name or alias stands for (R22, R110). -/
def registerAlias (name : String) : Option (Fin 4) :=
  if name = "x0" ∨ name = "xn" ∨ name = "xp" then some 0
  else if name = "x1" ∨ name = "xq" ∨ name = "xe" ∨ name = "xmin" then some 1
  else if name = "x2" ∨ name = "xg" ∨ name = "xb" ∨ name = "xmax" then some 2
  else if name = "x3" ∨ name = "xs" ∨ name = "xr" then some 3
  else none

end Sys2Proof.Machine
end

