-- ==== Sys2Proof/Safety.lean ====
section
/-! DEFINITION. The terms claims are stated in: when a command can run to its end in one step, what a command leaves at
its end, the invariants of the machine, and each search of the spec written a second time, as a relation between the
answers of the ports, the requests sent and the result, apart from the functions of Machine/. -/

namespace Sys2Proof.Machine

/-- `s` with `e` as its next event. -/
def State.event (s : State) (e : Event) : State := { s with script := e :: s.script }

/-- A host read at `addr` in `s` returns `w` and does nothing else. -/
def State.ReadsAs (s : State) (addr : Nat) (w : Word) : Prop :=
  step (s.event (.read addr 32)) = .next { s with reply := .data w }

/-- A host write of `v` at `addr` in `s` is taken and changes nothing. -/
def State.IgnoresWrite (s : State) (addr : Nat) (v : Word) : Prop :=
  step (s.event (.write addr 32 v)) = .next { s with reply := .accepted }

/-- Byte offset of a parameter register (R31). -/
def Param.byteOffset (p : Param) : Nat :=
  match p with
  | .bits => 0x020
  | .qbits => 0x024
  | .seedbits => 0x028
  | .rounds => 0x02C
  | .offset => 0x030

/-- The words a host write changes only while BUSY = 0 (R306): the limbs and the parameter registers. -/
def OperandAddress (nlimbs addr : Nat) : Prop :=
  (∃ p : Param, addr = p.byteOffset) ∨ ∃ (i : Fin 4) (j : Nat), j < nlimbs ∧ addr = limbOffset i j

/-- A command issued now starts, and the engine moves at once: BUSY = 0 and no `engineLate` comes next. -/
def State.ready (s : State) : Prop := s.status.busy = false ∧ s.script.head? ≠ some .engineLate

/-- `s` after command word `w` has run to its success outcome (R36, R263), but for its result registers: `sent` are the
requests it made, `rest` and `digests` what is left of the ready answers. -/
def State.ended (s : State) (w : Word) (res undec : Bool) (sent : List Request) (rest : List Nat) (digests : Nat) : State :=
  { s with
    cmd := w
    status := ⟨false, true, false, res, undec, s.status.wign⟩
    cause := 0#32
    einfo := 0#32
    inFlight := none
    requests := sent
    randIn := rest
    hashIn := digests }

/-- `s` after command word `w` has run to its error outcome (R36, R264). -/
def State.failedWith (s : State) (w cause einfo : Word) (sent : List Request) (rest : List Nat) (digests : Nat) : State :=
  { s with
    cmd := w
    status := ⟨false, true, true, false, false, s.status.wign⟩
    cause := cause
    einfo := einfo
    inFlight := none
    requests := sent
    randIn := rest
    hashIn := digests }

/-- `s` with the command of word `w` in flight (R36): BUSY = 1, nothing else set. -/
def State.flying (s : State) (w : Word) (f : InFlight) (sent : List Request) (rest : List Nat) (digests : Nat) : State :=
  { s with
    cmd := w
    status := ⟨true, false, false, false, false, s.status.wign⟩
    cause := 0#32
    einfo := 0#32
    inFlight := some f
    requests := sent
    randIn := rest
    hashIn := digests }

/-- The big-integer registers of the command's row in the table of R23. -/
def resultRegisters (i : Instr) : List (Fin 4) :=
  match i with
  | .isprime => []
  | .nextprime => [0]
  | .rndprime => [0]
  | .rndprimer => [0]
  | .genpq => [0, 1]
  | .geng => [2]
  | .verifyg => []
  | .genpg => [0, 2]
  | .powmod => [3]
  | .sieve => []
  | .mrwit => []
  | .seedq => [1]
  | .seedp => [0]

/-- The big-integer registers a command reads (R23). -/
def operandRegisters (i : Instr) : List (Fin 4) :=
  match i with
  | .isprime => [0]
  | .nextprime => [0]
  | .rndprime => []
  | .rndprimer => [1, 2]
  | .genpq => []
  | .geng => [0, 1]
  | .verifyg => [0, 1, 2]
  | .genpg => []
  | .powmod => [0, 1, 2]
  | .sieve => [0]
  | .mrwit => [0, 2]
  | .seedq => [3]
  | .seedp => [3, 1]

/-- The parameter registers a command reads (R23). -/
def operandParams (i : Instr) : List Param :=
  match i with
  | .isprime => [.rounds]
  | .nextprime => [.rounds]
  | .rndprime => [.bits]
  | .rndprimer => []
  | .genpq => [.bits, .qbits, .seedbits]
  | .geng => []
  | .verifyg => []
  | .genpg => [.bits]
  | .powmod => []
  | .sieve => []
  | .mrwit => []
  | .seedq => [.seedbits, .qbits]
  | .seedp => [.seedbits, .bits, .offset]

/-- The commands whose row in R23 names STATUS.RES. -/
def writesRes (i : Instr) : Bool :=
  match i with
  | .isprime | .verifyg | .sieve | .mrwit | .seedp => true
  | .nextprime | .rndprime | .rndprimer | .genpq | .geng | .genpg | .powmod | .seedq => false

/-- The invariant of the registers. -/
structure State.Consistent (s : State) : Prop where
  /-- every big-integer register holds a natural below 2^NBITS (R21, R129) -/
  fits : ∀ k, s.x k < 2 ^ s.nbits
  /-- BUSY = 1 and DONE = 1 together never occur (R30) -/
  phase : ¬(s.status.busy = true ∧ s.status.done = true)
  /-- a command is in flight exactly while BUSY = 1 (R35) -/
  inFlight : s.inFlight.isSome = s.status.busy
  /-- while BUSY, no result flag, no error, CAUSE = EINFO = 0 (R36, R71) -/
  clear : s.status.busy = true →
    s.status.err = false ∧ s.status.res = false ∧ s.status.undec = false ∧ s.cause = 0#32 ∧ s.einfo = 0#32
  /-- (RES, UNDEC) = (1, 1) never occurs (R141) -/
  flags : ¬(s.status.res = true ∧ s.status.undec = true)
  /-- RES and UNDEC are 0 after every error outcome (R35) -/
  errorFlags : s.status.err = true → s.status.res = false ∧ s.status.undec = false
  /-- ERR says that CAUSE is not 0 (R35) -/
  error : s.status.err = true ↔ s.cause ≠ 0#32
  /-- EINFO is 0 whenever CAUSE is 0 (R38) -/
  noCause : s.cause = 0#32 → s.einfo = 0#32
  /-- the codes 6 to 15 are never written and bits 31:4 are 0 (R37, R261) -/
  code : s.cause.toNat ≤ 5
  /-- for CAUSE = 1 EINFO is the number of a check (R262) -/
  check : s.cause = 1#32 → 1 ≤ s.einfo.toNat ∧ s.einfo.toNat ≤ 17
  /-- for CAUSE = 2, 3, 5 EINFO = 0 (R262) -/
  noDetail : s.cause = 2#32 ∨ s.cause = 3#32 ∨ s.cause = 5#32 → s.einfo = 0#32
  /-- for CAUSE = 4 EINFO is the illegal command word (R262) -/
  illegal : s.cause = 4#32 → s.einfo = s.cmd
  /-- CMD holds the word of the command in flight (R36, R307) -/
  command : ∀ f, s.inFlight = some f → s.cmd = encode f.instr
  /-- RES is set only by the commands whose row names it (R35) -/
  res : s.status.res = true → ∃ i, s.cmd = encode i ∧ writesRes i = true
  /-- UNDEC is set by SIEVE only (R35) -/
  undec : s.status.undec = true → s.cmd = encode .sieve

/-- The ports on which the command in flight has been answered exactly as far as it was. -/
def receivedPorts (f : InFlight) : Ports where
  oracle := Config.hash
  rand := f.drawn
  hash := f.digests
  drawn := []
  digests := 0
  sent := []

/-- The ports a run ends with, whatever its outcome. -/
def portsAfter {α : Type} (ran : EStateM.Result Stop Ports α) : Ports :=
  match ran with
  | .ok _ p => p
  | .error _ p => p

/-- The invariant of the working state (R45): the command in flight, run again on the answers it has received, sends
again, first and in the same order, every request it is recorded to have sent. -/
def State.Replays (s : State) : Prop :=
  ∀ f, s.inFlight = some f →
    s.requests <+: (portsAfter ((bodyOf f.instr s).run (receivedPorts f))).sent.reverse

/-- A request the engine of a chip of width `nbits` may issue: `RandBits(k)` with 1 ≤ k ≤ NBITS (R76), `RandRange(lo, hi)`
with lo ≤ hi < 2^NBITS (R77), a message of 1 to NBITS / 8 bytes (R83). -/
def Request.Legal (nbits : Nat) (r : Request) : Prop :=
  match r with
  | .randBits k => 1 ≤ k ∧ k ≤ nbits
  | .randRange lo hi => lo ≤ hi ∧ hi < 2 ^ nbits
  | .hash message => 1 ≤ message.length ∧ message.length ≤ nbits / 8

/-- The invariant of the ports: every request is legal, and the one that is outstanding is the last (R75, R80). -/
structure State.PortsLegal (s : State) : Prop where
  legal : ∀ r ∈ s.requests, r.Legal s.nbits
  last : ∀ f r, s.inFlight = some f → f.outstanding = some r → s.requests.getLast? = some r

/-- `a` lets n pass one round (R146): with n − 1 = d · 2^r, d odd, either a^d is 1 or one of a^d, a^(2d), …,
a^(2^(r−1)·d) is n − 1, all modulo n. -/
def StrongPass (n a : Nat) : Prop :=
  ∃ d r, n - 1 = d * 2 ^ r ∧ d % 2 = 1 ∧ (a ^ d % n = 1 ∨ ∃ k, k < r ∧ a ^ (d * 2 ^ k) % n = n - 1)

/-- Step 1 of `is_prime` decides n: it is below 2 or an entry divides it (R140). -/
def TableDecides (n : Nat) : Prop := n < 2 ∨ ∃ t ∈ smallPrimeTable, t ∣ n

/-- A run of `is_prime(n, rounds)` (R148): the witnesses drawn, in order, and the answer. -/
inductive IsPrimeRun (n rounds : Nat) : List Nat → Bool → Prop where
  | table : TableDecides n → IsPrimeRun n rounds [] (decide (n ∈ smallPrimeTable))
  | pass (as : List Nat) : ¬TableDecides n → as.length = rounds →
      (∀ a ∈ as, 2 ≤ a ∧ a ≤ n - 2 ∧ StrongPass n a) → IsPrimeRun n rounds as true
  | fail (as : List Nat) (a : Nat) : ¬TableDecides n → as.length < rounds →
      (∀ b ∈ as, 2 ≤ b ∧ b ≤ n - 2 ∧ StrongPass n b) → 2 ≤ a → a ≤ n - 2 → ¬StrongPass n a →
      IsPrimeRun n rounds (as ++ [a]) false

/-- The requests of a run of `is_prime(n, _)` that draws `as` (R148). -/
def witnessRequests (n : Nat) (as : List Nat) : List Request := List.replicate as.length (.randRange 2 (n - 2))

/-- A search that tests `c`, `next c`, `next (next c)`, … until one passes (R150, R172): draws, requests, result. -/
inductive SearchRun (rounds : Nat) (next : Nat → Nat) : Nat → List Nat → List Request → Nat → Prop where
  | found (c : Nat) (as : List Nat) : IsPrimeRun c rounds as true →
      SearchRun rounds next c as (witnessRequests c as) c
  | step (c : Nat) (as bs : List Nat) (sent : List Request) (p : Nat) : IsPrimeRun c rounds as false →
      SearchRun rounds next (next c) bs sent p →
      SearchRun rounds next c (as ++ bs) (witnessRequests c as ++ sent) p

/-- A walk of NEXTPRIME in which every candidate from `c` to the last one of the register width fails (R150). -/
inductive WidthExhausted (nbits rounds : Nat) : Nat → List Nat → List Request → Prop where
  | last (c : Nat) (as : List Nat) : IsPrimeRun c rounds as false → 2 ^ nbits ≤ c + 2 →
      WidthExhausted nbits rounds c as (witnessRequests c as)
  | step (c : Nat) (as bs : List Nat) (sent : List Request) : IsPrimeRun c rounds as false →
      c + 2 < 2 ^ nbits → WidthExhausted nbits rounds (c + 2) bs sent →
      WidthExhausted nbits rounds c (as ++ bs) (witnessRequests c as ++ sent)

/-- The candidate that follows in the walk of `random_prime` (R171), which stays among the odd numbers of `bits` bits;
direction 1 is up. -/
def nextOfBits (bits d c : Nat) : Nat :=
  if d = 1 then (if 2 ^ bits ≤ c + 2 then 2 ^ (bits - 1) + 1 else c + 2)
  else (if c < 2 ^ (bits - 1) + 2 then 2 ^ bits - 1 else c - 2)

/-- A run of `random_prime(bits)` (R172): no draw for bits = 1, else candidate, direction, and the search. -/
inductive RandomPrimeRun (bits : Nat) : List Nat → List Request → Nat → Prop where
  | one : bits = 1 → RandomPrimeRun bits [] [] 1
  | search (v d : Nat) (as : List Nat) (sent : List Request) (p : Nat) : 2 ≤ bits → v < 2 ^ bits → d < 2 →
      SearchRun Config.GEN_ROUNDS (nextOfBits bits d) (v ||| 2 ^ (bits - 1) ||| 1) as sent p →
      RandomPrimeRun bits (v :: d :: as) (.randBits bits :: .randBits 1 :: sent) p

/-- The search of `random_prime_range` with budget c (R183); `none` is ResourceExhausted. -/
inductive RangeRun (next : Nat → Nat) : Nat → Nat → List Nat → List Request → Option Nat → Prop where
  | found (c cand : Nat) (as : List Nat) : IsPrimeRun cand Config.GEN_ROUNDS as true →
      RangeRun next c cand as (witnessRequests cand as) (some cand)
  | exhausted (c cand : Nat) (as : List Nat) : IsPrimeRun cand Config.GEN_ROUNDS as false → c ≤ 1 →
      RangeRun next c cand as (witnessRequests cand as) none
  | step (c cand : Nat) (as bs : List Nat) (sent : List Request) (r : Option Nat) :
      IsPrimeRun cand Config.GEN_ROUNDS as false → 1 < c → RangeRun next (c - 1) (next cand) bs sent r →
      RangeRun next c cand (as ++ bs) (witnessRequests cand as ++ sent) r

/-- The message of `H(v, S)` (R83): ceil(S/8) bytes of v mod 2^S, byte k of them worth 256^(ceil(S/8) − 1 − k) (R82). -/
def hashMessage (v S : Nat) : List Byte :=
  (List.range ((S + 7) / 8)).map fun k => BitVec.ofNat 8 (v % 2 ^ S / 256 ^ ((S + 7) / 8 - 1 - k))

/-- A hash oracle: any function to digests of 32 bytes (R9, R81). The machine's is `Config.hash`. -/
abbrev Oracle := List Byte → Vector Byte Config.DIGESTBYTES

/-- `H(v, S)` for the hash oracle o (R83): byte k of the 32-byte digest is worth 256^(31 − k) (R82). -/
def hashOf (o : Oracle) (v S : Nat) : Nat :=
  ((List.range 32).map fun k => ((o (hashMessage v S)).toList.getD k 0#8).toNat * 256 ^ (31 - k)).sum

/-- q of a seed (R204). -/
def qOfSeed (o : Oracle) (seed S N : Nat) : Nat :=
  2 ^ (N - 1) + hashOf o seed S % 2 ^ (N - 1) + 1 - hashOf o seed S % 2

/-- `n = ceil(L / OUTLEN) − 1` as the number with n · OUTLEN < L ≤ (n + 1) · OUTLEN (R200). -/
def lastDigest (L : Nat) : Nat := (L - 1) / Config.OUTLEN

/-- W of R206: digests j < n whole, digest n reduced to L − 1 − n · OUTLEN bits, digest j worth 2^(j · OUTLEN). -/
def streamValue (o : Oracle) (seed S offset L : Nat) : Nat :=
  ((List.range (lastDigest L)).map fun j => hashOf o (seed + offset + j) S * 2 ^ (j * Config.OUTLEN)).sum
    + hashOf o (seed + offset + lastDigest L) S % 2 ^ (L - 1 - lastDigest L * Config.OUTLEN)
      * 2 ^ (lastDigest L * Config.OUTLEN)

/-- The candidate p of R206. -/
def pOfSeed (o : Oracle) (seed S offset L q : Nat) : Nat :=
  streamValue o seed S offset L + 2 ^ (L - 1) + 1 - (streamValue o seed S offset L + 2 ^ (L - 1)) % (2 * q)

/-- The hash requests of one candidate, j ascending (R84, R206). -/
def streamRequests (seed S offset L : Nat) : List Request :=
  (List.range (lastDigest L + 1)).map fun j => .hash (hashMessage (seed + offset + j) S)

/-- How many of the requests are hash requests. -/
def hashCount (sent : List Request) : Nat :=
  sent.countP fun r => match r with | .hash _ => true | .randBits _ => false | .randRange _ _ => false

/-- "step 11" of GENPQ for one seed (R213): `left` candidates are still allowed; `none` when they are spent. -/
inductive InnerRun (o : Oracle) (seed S L q : Nat) : Nat → Nat → List Nat → List Request → Option Nat → Prop where
  | spent (offset : Nat) : InnerRun o seed S L q 0 offset [] [] none
  | found (left offset : Nat) (as : List Nat) : 2 ^ (L - 1) ≤ pOfSeed o seed S offset L q →
      IsPrimeRun (pOfSeed o seed S offset L q) Config.GEN_ROUNDS as true →
      InnerRun o seed S L q (left + 1) offset as
        (streamRequests seed S offset L ++ witnessRequests (pOfSeed o seed S offset L q) as)
        (some (pOfSeed o seed S offset L q))
  | composite (left offset : Nat) (as bs : List Nat) (sent : List Request) (r : Option Nat) :
      2 ^ (L - 1) ≤ pOfSeed o seed S offset L q →
      IsPrimeRun (pOfSeed o seed S offset L q) Config.GEN_ROUNDS as false →
      InnerRun o seed S L q left (offset + lastDigest L + 1) bs sent r →
      InnerRun o seed S L q (left + 1) offset (as ++ bs)
        (streamRequests seed S offset L ++ witnessRequests (pOfSeed o seed S offset L q) as ++ sent) r
  | skip (left offset : Nat) (bs : List Nat) (sent : List Request) (r : Option Nat) :
      pOfSeed o seed S offset L q < 2 ^ (L - 1) →
      InnerRun o seed S L q left (offset + lastDigest L + 1) bs sent r →
      InnerRun o seed S L q (left + 1) offset bs (streamRequests seed S offset L ++ sent) r

/-- "step 5" of GENPQ (R213): draws, requests, p and q. -/
inductive OuterRun (o : Oracle) (L N S : Nat) : List Nat → List Request → Nat → Nat → Prop where
  | found (seed : Nat) (as bs : List Nat) (sent : List Request) (p : Nat) : seed < 2 ^ S →
      IsPrimeRun (qOfSeed o seed S N) Config.GEN_ROUNDS as true →
      InnerRun o seed S L (qOfSeed o seed S N) (4 * L) 1 bs sent (some p) →
      OuterRun o L N S (seed :: (as ++ bs))
        (.randBits S :: .hash (hashMessage seed S) :: (witnessRequests (qOfSeed o seed S N) as ++ sent))
        p (qOfSeed o seed S N)
  | composite (seed : Nat) (as bs : List Nat) (sent : List Request) (p q : Nat) : seed < 2 ^ S →
      IsPrimeRun (qOfSeed o seed S N) Config.GEN_ROUNDS as false →
      OuterRun o L N S bs sent p q →
      OuterRun o L N S (seed :: (as ++ bs))
        (.randBits S :: .hash (hashMessage seed S) :: (witnessRequests (qOfSeed o seed S N) as ++ sent)) p q
  | spent (seed : Nat) (as bs cs : List Nat) (sent sent' : List Request) (p q : Nat) : seed < 2 ^ S →
      IsPrimeRun (qOfSeed o seed S N) Config.GEN_ROUNDS as true →
      InnerRun o seed S L (qOfSeed o seed S N) (4 * L) 1 bs sent none →
      OuterRun o L N S cs sent' p q →
      OuterRun o L N S (seed :: (as ++ bs ++ cs))
        (.randBits S :: .hash (hashMessage seed S) :: (witnessRequests (qOfSeed o seed S N) as ++ sent ++ sent')) p q

/-- The product of the two primes shifted up to L bits, plus 1, with the shift count (R241). -/
structure Shifted (L prime1 prime2 shift p : Nat) : Prop where
  value : p = prime1 * prime2 * 2 ^ shift + 1
  length : bitlen (prime1 * prime2 * 2 ^ shift) = L
  noMore : ∀ k, k < shift → bitlen (prime1 * prime2 * 2 ^ k) < L

/-- Up to `left` values of prime2 for one prime1 (R241): `none` when all fail, else prime2, shift and p. -/
inductive TriesRun (L prime1 : Nat) : Nat → List Nat → List Request → Option (Nat × Nat × Nat) → Prop where
  | spent : TriesRun L prime1 0 [] [] none
  | found (left : Nat) (as bs : List Nat) (sent : List Request) (prime2 shift p : Nat) :
      RandomPrimeRun (L / 2 - 1) as sent prime2 → Shifted L prime1 prime2 shift p →
      IsPrimeRun p Config.GEN_ROUNDS bs true →
      TriesRun L prime1 (left + 1) (as ++ bs) (sent ++ witnessRequests p bs) (some (prime2, shift, p))
  | composite (left : Nat) (as bs cs : List Nat) (sent sent' : List Request) (prime2 shift p : Nat)
      (r : Option (Nat × Nat × Nat)) :
      RandomPrimeRun (L / 2 - 1) as sent prime2 → Shifted L prime1 prime2 shift p →
      IsPrimeRun p Config.GEN_ROUNDS bs false → TriesRun L prime1 left cs sent' r →
      TriesRun L prime1 (left + 1) (as ++ bs ++ cs) (sent ++ witnessRequests p bs ++ sent') r

/-- The prime construction of GENPG (R241): draws, requests, prime1, prime2, shift, p. -/
inductive ConstructionRun (L : Nat) : List Nat → List Request → Nat → Nat → Nat → Nat → Prop where
  | found (as bs : List Nat) (sent sent' : List Request) (prime1 prime2 shift p : Nat) :
      RandomPrimeRun (L / 2) as sent prime1 → TriesRun L prime1 20 bs sent' (some (prime2, shift, p)) →
      ConstructionRun L (as ++ bs) (sent ++ sent') prime1 prime2 shift p
  | again (as bs cs : List Nat) (sent sent' sent'' : List Request) (prime1 : Nat) (r1 r2 sh p : Nat) :
      RandomPrimeRun (L / 2) as sent prime1 → TriesRun L prime1 20 bs sent' none →
      ConstructionRun L cs sent'' r1 r2 sh p →
      ConstructionRun L (as ++ bs ++ cs) (sent ++ sent' ++ sent'') r1 r2 sh p

/-- g passes the three tests of R243: none of g^(prime1·2^shift), g^(prime2·2^shift), g^(prime1·prime2·2^(shift−1))
is 1 modulo p. -/
def ThreeTests (prime1 prime2 shift p g : Nat) : Prop :=
  g ^ (prime1 * 2 ^ shift) % p ≠ 1 ∧ g ^ (prime2 * 2 ^ shift) % p ≠ 1
    ∧ g ^ (prime1 * prime2 * 2 ^ (shift - 1)) % p ≠ 1

/-- The h that follows in the walk of `generate_g` (R220), cyclic in [2, p − 2]; direction 1 is up. -/
def nextH (p d h : Nat) : Nat :=
  if d = 1 then (if h + 1 > p - 2 then 2 else h + 1) else (if h < 3 then p - 2 else h - 1)

end Sys2Proof.Machine
end

