-- ==== Sys2Proof/Certificates/Slice0/Obligations.lean ====
section
/-! DEFINITION. The statements for the provers. Each docstring names the rules of spec/ it rests on. `s.event e` is `s`
with `e` as its next event; `s.ready` says that a command issued now starts and runs at once; `s.ended`, `s.failedWith`
and `s.flying` are `s` after a success outcome (but for its result registers), after an error outcome, and with a command
in flight: these three fix every field of the state. -/

open Sys2Proof Sys2Proof.Machine

/-! ### Encoding -/

/-- The 13 words of R104, and no other word, are commands. -/
def Obligations.OpcodeMap : Prop :=
  (decode 0x00000001#32 = .ok .isprime ∧ decode 0x00000002#32 = .ok .nextprime ∧ decode 0x00000003#32 = .ok .rndprime ∧
    decode 0x00000004#32 = .ok .rndprimer ∧ decode 0x00000005#32 = .ok .genpq ∧ decode 0x00000006#32 = .ok .geng ∧
    decode 0x00000007#32 = .ok .verifyg ∧ decode 0x00000008#32 = .ok .genpg ∧ decode 0x00000009#32 = .ok .powmod ∧
    decode 0x0000000A#32 = .ok .sieve ∧ decode 0x0000000B#32 = .ok .mrwit ∧ decode 0x0000000C#32 = .ok .seedq ∧
    decode 0x0000000D#32 = .ok .seedp) ∧
  ∀ w : Word, (∃ i, decode w = .ok i) ↔ 1 ≤ w.toNat ∧ w.toNat ≤ 13

/-- Decoding takes back what encoding gives, and nothing else decodes (R101, R104; byte lanes R64): for words, and for the
four byte lanes of a word, lane 0 first, with any bytes after them. -/
def Obligations.DecodeEncodeAgree : Prop :=
  (∀ i : Instr, i.wellFormed = true → decode (encode i) = .ok i ∧ decodeTableWord 32 (encode i).toNat = some i ∧
    (formatC (encode i)).wellFormed = true) ∧
  (∀ (w : Word) (i : Instr), decode w = .ok i → w = encode i) ∧
  ∀ (bytes rest : List Byte) (i : Instr), decodeBytes bytes = .ok (i, rest) ↔
    bytes = (encode i).extractLsb' 0 8 :: (encode i).extractLsb' 8 8 :: (encode i).extractLsb' 16 8 ::
      (encode i).extractLsb' 24 8 :: rest

/-- An illegal word is rejected by the name of its fault (R105, R106). -/
def Obligations.IllegalWordsNamed : Prop :=
  ∀ w : Word,
    (w.extractLsb' 8 24 ≠ 0#24 → decode w = .error (.zeroFieldSet (w.extractLsb' 8 24))) ∧
    (w.extractLsb' 8 24 = 0#24 → (w.extractLsb' 0 8).toNat = 0 ∨ 14 ≤ (w.extractLsb' 0 8).toNat →
      decode w = .error (.opcodeUnassigned (w.extractLsb' 0 8)))

/-! ### Issue, command start, illegal word -/

/-- A step whose next event is the write of a command's word to CMD is `exec` of that command, with the bus reply noted;
`withFetchWord` places that write (R100, R62 (a)). -/
def Obligations.StepRunsCommand : Prop :=
  ∀ (s : State) (w : Word) (i : Instr), decode w = .ok i →
    step (s.event (.write 0x008 32 w)) = exec i { s with reply := .accepted } ∧
    step (s.withFetchWord 32 w.toNat) = exec i { s with reply := .accepted }

/-- An illegal word written to CMD while BUSY = 0 (R105). -/
def Obligations.IllegalCommandWord : Prop :=
  ∀ (s : State) (w : Word), s.status.busy = false →
    (w.extractLsb' 0 8).toNat = 0 ∨ 0x0E ≤ (w.extractLsb' 0 8).toNat ∨ w.extractLsb' 8 24 ≠ 0#24 →
    step (s.event (.write 0x008 32 w)) = .next { s with
      cmd := w
      status := ⟨false, true, true, false, false, s.status.wign⟩
      cause := 4#32
      einfo := w
      inFlight := none
      requests := []
      reply := .accepted }

/-- While BUSY = 1 a write to CMD, of any word, only sets WIGN (R307, R100 (a)). -/
def Obligations.CommandWriteWhileBusy : Prop :=
  ∀ s : State, s.status.busy = true →
    (∀ i, exec i s = .next { s with status := { s.status with wign := true } }) ∧
    ∀ w, step (s.event (.write 0x008 32 w)) =
      .next { s with reply := .accepted, status := { s.status with wign := true } }

/-- Command start (R36), seen before the engine's first move: in one step CMD, BUSY, DONE, ERR, RES, UNDEC, CAUSE and EINFO
change and nothing else of the machine does; no request has been sent. -/
def Obligations.CommandStart : Prop :=
  ∀ (s : State) (i : Instr), s.status.busy = false →
    step ((s.event .engineLate).event (.write 0x008 32 (encode i))) = .next { s with
      cmd := encode i
      status := ⟨true, false, false, false, false, s.status.wign⟩
      cause := 0#32
      einfo := 0#32
      inFlight := some ⟨i, [], 0, none⟩
      requests := []
      reply := .accepted }

/-- It makes no difference whether the engine moves in the step of the CMD write or in a later one (R12). -/
def Obligations.EngineMoveTime : Prop :=
  ∀ (s t : State) (i : Instr), s.ready →
    exec i (s.event .engineLate) = .next t → step (t.event .engine) = exec i s

/-- It makes no difference when an answer arrives (R12, R75, R80): a command that waits and then gets its answer ends as
the command does that finds this answer ready behind the others. -/
def Obligations.AnswerTime : Prop :=
  ∀ (s t : State) (i : Instr) (f : InFlight) (r : Request), s.ready → exec i s = .next t → t.inFlight = some f →
    f.outstanding = some r →
    match r with
    | .randBits _ | .randRange _ _ => ∀ v, step (t.event (.randAnswer v)) = exec i { s with randIn := s.randIn ++ [v] }
    | .hash _ => step (t.event .hashAnswer) = exec i { s with hashIn := s.hashIn + 1 }

/-! ### The register bank -/

/-- The control registers as a host read returns them, in every phase (R31, R33, R34, R35, R39); CAP at every width the
parameter NBITS allows (R4). -/
def Obligations.ControlRegisterReads : Prop :=
  ∀ s : State,
    s.ReadsAs 0x000 0x4D524531#32 ∧ s.ReadsAs 0x004 (BitVec.ofNat 32 (0xA8200000 + s.nbits)) ∧
    (s.nbits = 4096 → s.ReadsAs 0x004 0xA8201000#32) ∧ s.ReadsAs 0x008 s.cmd ∧
    s.ReadsAs 0x010 s.cause ∧ s.ReadsAs 0x014 s.einfo ∧
    s.ReadsAs 0x020 s.bits ∧ s.ReadsAs 0x024 s.qbits ∧ s.ReadsAs 0x028 s.seedbits ∧ s.ReadsAs 0x02C s.rounds ∧
    s.ReadsAs 0x030 s.offset ∧
    (∃ w, s.ReadsAs 0x00C w ∧ w.getLsbD 0 = s.status.busy ∧ w.getLsbD 1 = s.status.done ∧ w.getLsbD 2 = s.status.err ∧
      w.getLsbD 3 = s.status.res ∧ w.getLsbD 4 = s.status.undec ∧ w.getLsbD 5 = s.status.wign ∧
      ∀ k, 6 ≤ k → w.getLsbD k = false) ∧
    ∃ w, s.ReadsAs 0x018 w ∧ w.getLsbD 0 = s.ie ∧ ∀ k, 1 ≤ k → w.getLsbD k = false

/-- A read at any aligned offset of the bank is answered and changes no state of the machine; it counts a free value at
most while BUSY = 1 (R61). -/
def Obligations.ReadsHaveNoEffect : Prop :=
  ∀ (s : State) (addr : Nat), addr % 4 = 0 → addr < 0x2000 →
    ∃ w k, step (s.event (.read addr 32)) = .next { s with reply := .data w, freeReads := k } ∧
      (s.status.busy = false → k = s.freeReads)

/-- The small-prime table: 168 entries, ascending, the primes not above 997; its window reads them in every phase and
ignores writes (R40, R67). -/
def Obligations.SmallPrimeTable : Prop :=
  smallPrimeTable.length = 168 ∧ smallPrimeTable.Pairwise (· < ·) ∧
  (∀ n, n ∈ smallPrimeTable ↔ n.Prime ∧ n ≤ 997) ∧
  ∀ (s : State) (i : Fin smallPrimeTable.length) (v : Word),
    s.ReadsAs (0x0400 + 4 * i.val) (BitVec.ofNat 32 smallPrimeTable[i.val]) ∧
    s.IgnoresWrite (0x0400 + 4 * i.val) v

/-- Reserved and unmapped words read 0 and ignore writes, in every phase (R68, R63, R31); the read-only registers ID, CAP,
CAUSE and EINFO ignore writes too (R62 (e)). -/
def Obligations.ReservedWords : Prop :=
  (∀ (s : State) (addr : Nat) (v : Word), addr % 4 = 0 →
    addr = 0x01C ∨ (0x034 ≤ addr ∧ addr < 0x400) ∨ (0x6A0 ≤ addr ∧ addr < 0x1000) ∨
      (0x1000 ≤ addr ∧ addr < 0x2000 ∧ 4 * s.nlimbs ≤ (addr - 0x1000) % 0x400) →
    s.ReadsAs addr 0#32 ∧ s.IgnoresWrite addr v) ∧
  ∀ (s : State) (v : Word),
    s.IgnoresWrite 0x000 v ∧ s.IgnoresWrite 0x004 v ∧ s.IgnoresWrite 0x010 v ∧ s.IgnoresWrite 0x014 v

/-- Limb j of x[i] at 0x1000 + 0x400·i + 4·j while BUSY = 0: it reads as bits 32j+31 : 32j; a write sets these bits, no
other bit of any register, and nothing else (R63, R62 (d)). -/
def Obligations.LimbAccess : Prop :=
  ∀ (s : State) (i : Fin 4) (j : Nat) (v : Word), j < s.nlimbs → s.status.busy = false →
    s.ReadsAs (0x1000 + 0x400 * i.val + 4 * j) (BitVec.ofNat 32 (s.x i / 2 ^ (32 * j))) ∧
    ∃ r : Nat, step (s.event (.write (0x1000 + 0x400 * i.val + 4 * j) 32 v)) =
        .next { s.setX i r with reply := .accepted } ∧
      (∀ k, k < 32 → r.testBit (32 * j + k) = v.getLsbD k) ∧
      ∀ k, (k < 32 * j ∨ 32 * j + 32 ≤ k) → r.testBit k = (s.x i).testBit k

/-- The value of x[i] is the sum of limb j · 2^(32·j) over the words the bank returns while BUSY = 0 (R24); `rdx` reads
these words in ascending order, one a step (R111). -/
def Obligations.RegisterIsSumOfLimbs : Prop :=
  ∀ (s : State) (i : Fin 4), s.Consistent → s.status.busy = false → ∃ ws : List Word, ws.length = s.nlimbs ∧
    (∀ j (h : j < ws.length), s.ReadsAs (0x1000 + 0x400 * i.val + 4 * j) ws[j]) ∧
    (∀ j (h : j < ws.length),
      Host.Core.run Sys2Proof.core (j + 1) { s with script := scriptRdx s.nlimbs i ++ s.script } =
        .next { s with reply := .data ws[j], script := (scriptRdx s.nlimbs i).drop (j + 1) ++ s.script }) ∧
    s.x i = valueOfLimbs ws ∧
    s.x i = ((List.range s.nlimbs).map fun j => (ws.getD j 0#32).toNat * 2 ^ (32 * j)).sum

/-- `ldx`: the NLIMBS limb writes of a value, run one after the other while BUSY = 0, load exactly that value and change
nothing else (R111, R24). -/
def Obligations.LoadRegister : Prop :=
  ∀ (s : State) (i : Fin 4) (v : Nat), s.Consistent → s.status.busy = false → v < 2 ^ s.nbits →
    Host.Core.run Sys2Proof.core s.nlimbs { s with script := scriptLdx s.nlimbs i v ++ s.script } =
      .next { s.setX i v with reply := .accepted }

/-- A limb read while BUSY = 1 returns the next free value and changes nothing but the count of free values; CAUSE and
EINFO read 0 then and CMD reads the command in flight (R71). -/
def Obligations.ReadsWhileBusy : Prop :=
  ∀ (s : State) (f : InFlight), s.Consistent → s.inFlight = some f →
    (∀ (i : Fin 4) (j : Nat), j < s.nlimbs → step (s.event (.read (limbOffset i.val j) 32)) =
      .next { s with reply := .data (Config.freeLimb s.freeReads), freeReads := s.freeReads + 1 }) ∧
    s.ReadsAs 0x010 0#32 ∧ s.ReadsAs 0x014 0#32 ∧ s.ReadsAs 0x008 (encode f.instr)

/-- A parameter register takes any word while BUSY = 0, and reads as it was written (R32, R62 (d)). -/
def Obligations.ParameterWrite : Prop :=
  ∀ (s : State) (p : Param) (v : Word), s.status.busy = false →
    step (s.event (.write p.byteOffset 32 v)) = .next { s.setParam p v with reply := .accepted } ∧
    (s.setParam p v).ReadsAs p.byteOffset v ∧
    ∀ q : Param, q ≠ p → (s.setParam p v).ReadsAs q.byteOffset (s.param q)

/-- A write to STATUS, in every phase: a 1 in bit 1 clears DONE, a 1 in bit 5 clears WIGN, no other bit has an effect
(R35, R62 (b)). -/
def Obligations.StatusWrite : Prop :=
  ∀ (s : State) (v : Word), step (s.event (.write 0x00C 32 v)) = .next { s with
    reply := .accepted
    status := ⟨s.status.busy, s.status.done && !v.getLsbD 1, s.status.err, s.status.res, s.status.undec,
      s.status.wign && !v.getLsbD 5⟩ }

/-- Acknowledge (R267): DONE <- 0, which drops `irq`; everything else keeps its value; and it is optional, since a CMD
write in phase DONE starts the next command and clears DONE. -/
def Obligations.Acknowledge : Prop :=
  ∀ s : State,
    (∃ t, step { s with script := scriptAck ++ s.script } = .next t ∧
      t = { s with reply := .accepted, status := { s.status with done := false } } ∧ t.irq = false) ∧
    ∀ i, s.status.busy = false → ∃ t, exec i (s.event .engineLate) = .next t ∧ t.status.busy = true ∧ t.status.done = false

/-- CTRL (R39, R62 (c)): bit 0 is IE, read and written in every phase; the other bits read 0 and ignore writes; the
interrupt output is IE and DONE (R270). -/
def Obligations.ControlWrite : Prop :=
  ∀ (s : State) (v : Word),
    (∃ w, s.ReadsAs 0x018 w ∧ w.getLsbD 0 = s.ie ∧ ∀ k, 1 ≤ k → w.getLsbD k = false) ∧
    (s.irq = true ↔ s.ie = true ∧ s.status.done = true) ∧
    ∃ t, step (s.event (.write 0x018 32 v)) = .next t ∧
      t = { s with reply := .accepted, ie := v.getLsbD 0 } ∧ t.irq = (v.getLsbD 0 && s.status.done)

/-- Writes while BUSY = 1 (R306): a limb and a parameter register keep their value and WIGN is set. In every phase: STATUS
and CTRL are written and do not set WIGN; every other word but CMD ignores the write, without WIGN. -/
def Obligations.WritesWhileBusy : Prop :=
  ∀ (s : State) (addr : Nat) (v : Word), addr % 4 = 0 → addr < 0x2000 →
    (s.status.busy = true → OperandAddress s.nlimbs addr → step (s.event (.write addr 32 v)) =
      .next { s with reply := .accepted, status := { s.status with wign := true } }) ∧
    (addr = 0x00C → ∃ t, step (s.event (.write addr 32 v)) = .next t ∧
      t.status.wign = (s.status.wign && !v.getLsbD 5) ∧ t.status.done = (s.status.done && !v.getLsbD 1)) ∧
    (addr = 0x018 → step (s.event (.write addr 32 v)) = .next { s with reply := .accepted, ie := v.getLsbD 0 }) ∧
    (¬OperandAddress s.nlimbs addr → addr ≠ 0x008 → addr ≠ 0x00C → addr ≠ 0x018 → s.IgnoresWrite addr v)

/-- The bus refuses exactly the accesses that are not aligned 32-bit accesses below 0x2000, and nothing else is a fault
(R65). -/
def Obligations.BusRefusal : Prop :=
  ∀ (s : State) (e : Fault), step s = .fault e ↔ ∃ addr width, e = .busRefused addr width ∧
    ¬(width = 32 ∧ addr % 4 = 0 ∧ addr < 0x2000) ∧
    (s.script.head? = some (.read addr width) ∨ ∃ v, s.script.head? = some (.write addr width v))

/-! ### Reset -/

/-- The state after reset (R50), of a chip of any width. -/
def Obligations.ResetValues : Prop :=
  ∀ (w : Config.Width) (s : State), s = State.resetOf w →
    (∀ i, s.x i = 0) ∧ (∀ p, s.param p = 0#32) ∧ s.cmd = 0#32 ∧
    s.status = ⟨false, false, false, false, false, false⟩ ∧ s.status.phase = .idle ∧
    s.cause = 0#32 ∧ s.einfo = 0#32 ∧ s.ie = false ∧ s.irq = false ∧ s.inFlight = none ∧
    s.ReadsAs 0x000 0x4D524531#32 ∧ s.ReadsAs 0x004 (BitVec.ofNat 32 (0xA8200000 + s.nbits)) ∧
    ∀ i : Fin smallPrimeTable.length, s.ReadsAs (0x0400 + 4 * i.val) (BitVec.ofNat 32 smallPrimeTable[i.val])

/-- Reset in any phase (R300, R301): everything the machine holds takes its reset value, a command in flight is abandoned,
and an answer that arrives later is ignored; an answer the command got before the reset is lost with it, also when the
engine has not moved since. What the environment still has to give is kept (log entry 11). -/
def Obligations.ResetEvent : Prop :=
  ∀ s : State, ∃ t, step (s.event .reset) = .next t ∧
    t = { State.resetOf s.width with script := s.script, randIn := s.randIn, hashIn := s.hashIn, freeReads := s.freeReads } ∧
    (∀ v, step (t.event (.randAnswer v)) = .next t) ∧ step (t.event .hashAnswer) = .next t ∧
    step (t.event .engine) = .next t ∧
    ∀ f r, s.inFlight = some f → f.outstanding = some r →
      match r with
      | .randBits _ | .randRange _ _ => ∀ v, Host.Core.run Sys2Proof.core 2
          { s with script := .randAnswer v :: .engineLate :: .reset :: s.script } = .next t
      | .hash _ => Host.Core.run Sys2Proof.core 2
          { s with script := .hashAnswer :: .engineLate :: .reset :: s.script } = .next t

/-- Without a command in flight the engine does nothing: an engine move, an answer and the lack of any event leave the
state as it is (R300). -/
def Obligations.EngineIdle : Prop :=
  ∀ s : State, s.inFlight = none →
    step (s.event .engine) = .next s ∧ (∀ v, step (s.event (.randAnswer v)) = .next s) ∧
    step (s.event .hashAnswer) = .next s ∧ (s.script = [] → step s = .next s)

/-! ### Invariants of every step -/

/-- The control registers stay consistent in every step. -/
def Obligations.ConsistencyKept : Prop :=
  ∀ s t : State, s.Consistent → step s = .next t → t.Consistent

/-- All three invariants hold after reset, at every width. There is a chip for each NBITS that R4 allows and for no other,
with NLIMBS = NBITS / 32; `State.reset` is the one of the default width 4096. -/
def Obligations.InvariantsAtReset : Prop :=
  (∀ w, (State.resetOf w).Consistent ∧ (State.resetOf w).Replays ∧ (State.resetOf w).PortsLegal) ∧
  (∀ N, (∃ w, (State.resetOf w).nbits = N) ↔ N % 32 = 0 ∧ 3072 ≤ N ∧ N ≤ 8192) ∧
  (∀ s : State, 32 * s.nlimbs = s.nbits) ∧
  (∃ w, State.reset = State.resetOf w) ∧ State.reset.nbits = 4096

/-- The working state stays what the recorded answers make it: the command in flight, run again on them, sends again the
requests it has sent (R45, R12; log entry 6). -/
def Obligations.ReplayKept : Prop :=
  ∀ s t : State, s.Consistent → s.Replays → step s = .next t → t.Replays

/-- Every request on the ports stays legal, and the one that is outstanding stays the last (R75, R76, R77, R80, R83). -/
def Obligations.PortsStayLegal : Prop :=
  ∀ s t : State, s.Consistent → s.PortsLegal → step s = .next t → t.PortsLegal

/-- No command delivers a value that does not fit a register: none is ever reduced modulo 2^NBITS (R129). -/
def Obligations.ResultsFit : Prop :=
  ∀ (i : Instr) (s : State) (p q : Ports) (r : Result) (v : Nat), (∀ k, s.x k < 2 ^ s.nbits) →
    (bodyOf i s).run p = .ok r q →
    r.x0 = some v ∨ r.x1 = some v ∨ r.x2 = some v ∨ r.x3 = some v → v < 2 ^ s.nbits

/-! ### Rules of the whole machine -/

/-- While a command stays in flight its operands stay, CMD stays, and its requests only grow (R36, R306, R307, R12). -/
def Obligations.OperandsLocked : Prop :=
  ∀ s t : State, s.Consistent → s.Replays → step s = .next t → s.status.busy = true → t.status.busy = true →
    (∀ k, t.x k = s.x k) ∧ (∀ p, t.param p = s.param p) ∧ t.cmd = s.cmd ∧ s.requests <+: t.requests

/-- How the three phases are left (R30): IDLE by a CMD write; BUSY to DONE by the engine, to IDLE by reset; DONE to IDLE by
the acknowledge or reset, to BUSY by a CMD write. -/
def Obligations.PhaseChanges : Prop :=
  ∀ s t : State, s.Consistent → step s = .next t →
    (s.status.phase = .idle → t.status.phase ≠ .idle → ∃ w, s.script.head? = some (.write 0x008 32 w)) ∧
    (s.status.phase = .busy → t.status.phase = .idle → s.script.head? = some .reset) ∧
    (s.status.phase = .busy → t.status.phase = .done → s.script.head? = none ∨ s.script.head? = some .engine ∨
      (∃ v, s.script.head? = some (.randAnswer v)) ∨ s.script.head? = some .hashAnswer) ∧
    (s.status.phase = .done → t.status.phase = .idle → s.script.head? = some .reset ∨
      ∃ v : Word, v.getLsbD 1 = true ∧ s.script.head? = some (.write 0x00C 32 v)) ∧
    (s.status.phase = .done → t.status.phase = .busy → ∃ i, s.script.head? = some (.write 0x008 32 (encode i)))

/-- What may change a big-integer register (R20, R23): a host write of one of its limbs while BUSY = 0, reset, and the
success outcome of a command whose row in R23 names it. -/
def Obligations.RegisterChanges : Prop :=
  ∀ (s t : State) (k : Fin 4), s.Consistent → step s = .next t → t.x k ≠ s.x k →
    (s.status.busy = false ∧ ∃ j v, j < s.nlimbs ∧ s.script.head? = some (.write (limbOffset k.val j) 32 v)) ∨
    s.script.head? = some .reset ∨
    (t.status.busy = false ∧ t.status.done = true ∧ t.status.err = false ∧ ∃ i, t.cmd = encode i ∧ k ∈ resultRegisters i ∧
      ((s.status.busy = true ∧ s.cmd = encode i) ∨ s.script.head? = some (.write 0x008 32 (encode i))))

/-- What may change a parameter register, IE and WIGN: only the host and reset (R32, R39, R35, R306). Nothing changes the
width of the chip (R4). -/
def Obligations.HostOnlyState : Prop :=
  ∀ s t : State, step s = .next t → t.width = s.width ∧
    (∀ p, t.param p ≠ s.param p → s.script.head? = some .reset ∨
      (s.status.busy = false ∧ s.script.head? = some (.write p.byteOffset 32 (t.param p)))) ∧
    (t.ie ≠ s.ie → s.script.head? = some .reset ∨
      ∃ v : Word, v.getLsbD 0 = t.ie ∧ s.script.head? = some (.write 0x018 32 v)) ∧
    (s.status.wign = true → t.status.wign = false → s.script.head? = some .reset ∨
      ∃ v : Word, v.getLsbD 5 = true ∧ s.script.head? = some (.write 0x00C 32 v)) ∧
    (s.status.wign = false → t.status.wign = true → s.status.busy = true ∧
      ∃ addr v, (addr = 0x008 ∨ OperandAddress s.nlimbs addr) ∧ s.script.head? = some (.write addr 32 v))

/-- The frame of every command that is issued while BUSY = 0 (R23, R32, R36, R260, R263, R264): registers outside its row,
and all of them after an error and while it is in flight, keep their values; so do the parameter registers, IE and WIGN;
RES and UNDEC are set only by the commands whose row names them. -/
def Obligations.CommandFrame : Prop :=
  ∀ (i : Instr) (s t : State), s.status.busy = false → exec i s = .next t →
    (∀ k, k ∉ resultRegisters i → t.x k = s.x k) ∧
    (t.status.err = true ∨ t.status.busy = true → ∀ k, t.x k = s.x k) ∧
    t.width = s.width ∧ (∀ p, t.param p = s.param p) ∧ t.ie = s.ie ∧ t.status.wign = s.status.wign ∧ t.cmd = encode i ∧
    t.reply = s.reply ∧ t.freeReads = s.freeReads ∧
    (writesRes i = false → t.status.res = false) ∧ (i ≠ .sieve → t.status.undec = false)

/-- A command reads the registers its row in R23 names, and no other: in two states of chips of one width that agree on
them and on the ready answers it ends the same way, with the same flags, error, requests and results. -/
def Obligations.ReadsNamedOperands : Prop :=
  ∀ (i : Instr) (s t s' : State), s.ready → t.ready → t.width = s.width →
    (∀ k ∈ operandRegisters i, t.x k = s.x k) →
    (∀ p ∈ operandParams i, t.param p = s.param p) → t.randIn = s.randIn → t.hashIn = s.hashIn → exec i s = .next s' →
    ∃ t', exec i t = .next t' ∧ t'.status.busy = s'.status.busy ∧ t'.status.done = s'.status.done ∧
      t'.status.err = s'.status.err ∧ t'.status.res = s'.status.res ∧ t'.status.undec = s'.status.undec ∧
      t'.cause = s'.cause ∧ t'.einfo = s'.einfo ∧ t'.cmd = s'.cmd ∧ t'.inFlight = s'.inFlight ∧
      t'.requests = s'.requests ∧ t'.randIn = s'.randIn ∧ t'.hashIn = s'.hashIn ∧
      (s'.status.busy = false → s'.status.err = false → ∀ k ∈ resultRegisters i, t'.x k = s'.x k)

/-- Which command raises which error, and with which detail (R261, R262). -/
def Obligations.ErrorCauses : Prop :=
  ∀ (i : Instr) (s t : State), s.ready → exec i s = .next t → t.status.err = true →
    match i with
    | .isprime | .verifyg | .sieve => False
    | .nextprime => t.cause = 5#32 ∧ t.einfo = 0#32
    | .rndprimer => t.cause = 2#32 ∧ t.einfo = 0#32
    | .rndprime => t.cause = 1#32 ∧ t.einfo ∈ [6#32, 7#32]
    | .genpq => t.cause = 1#32 ∧ t.einfo ∈ [1#32, 2#32, 3#32]
    | .geng => t.cause = 1#32 ∧ t.einfo ∈ [9#32, 10#32]
    | .genpg => (t.cause = 1#32 ∧ t.einfo ∈ [4#32, 5#32]) ∨ (t.cause = 3#32 ∧ t.einfo = 0#32)
    | .powmod => t.cause = 1#32 ∧ t.einfo = 8#32
    | .mrwit => t.cause = 1#32 ∧ t.einfo ∈ [11#32, 12#32]
    | .seedq => t.cause = 1#32 ∧ t.einfo ∈ [13#32, 14#32, 15#32]
    | .seedp => t.cause = 1#32 ∧ t.einfo ∈ [13#32, 14#32, 16#32, 17#32]

/-- A command other than GENG that has run and is still in flight has a request outstanding, whatever its operands and the
answers it got: it waits for an answer of a port (R304, R310, R78). -/
def Obligations.InFlightWaits : Prop :=
  ∀ (i : Instr) (s t : State) (f : InFlight), s.ready → exec i s = .next t → t.inFlight = some f → i ≠ .geng →
    ∃ r, f.outstanding = some r

/-- The interrupt output when a command ends, and when it starts (R270). -/
def Obligations.CompletionInterrupt : Prop :=
  ∀ (i : Instr) (s t : State), s.status.busy = false → exec i s = .next t →
    (t.status.busy = false → t.status.done = true ∧ t.irq = s.ie) ∧ (t.status.busy = true → t.irq = false)

/-! ### The commands -/

/-- POWMOD (R128, R124). -/
def Obligations.Powmod : Prop :=
  ∀ s : State, s.ready →
    (s.x 0 = 0 → exec .powmod s = .next (s.failedWith 0x9#32 1#32 8#32 [] s.randIn s.hashIn)) ∧
    (s.x 0 ≠ 0 → exec .powmod s = .next { s.ended 0x9#32 false false [] s.randIn s.hashIn with
      x3 := s.x 2 ^ s.x 1 % s.x 0 })

/-- SIEVE (R141, R140): RES exactly for the primes not above 997, UNDEC exactly for the n ≥ 2 without a prime factor
not above 997. -/
def Obligations.Sieve : Prop :=
  ∀ s : State, s.ready → ∃ res undec,
    exec .sieve s = .next (s.ended 0xA#32 res undec [] s.randIn s.hashIn) ∧
    (res = true ↔ (s.x 0).Prime ∧ s.x 0 ≤ 997) ∧
    (undec = true ↔ 2 ≤ s.x 0 ∧ ∀ p, p.Prime → p ≤ 997 → ¬p ∣ s.x 0)

/-- MRWIT (R147, R142, R146). -/
def Obligations.Mrwit : Prop :=
  ∀ s : State, s.ready →
    (s.x 0 % 2 = 0 ∨ s.x 0 < 5 →
      exec .mrwit s = .next (s.failedWith 0xB#32 1#32 11#32 [] s.randIn s.hashIn)) ∧
    (s.x 0 % 2 = 1 → 5 ≤ s.x 0 → s.x 2 < 2 ∨ s.x 0 < s.x 2 + 2 →
      exec .mrwit s = .next (s.failedWith 0xB#32 1#32 12#32 [] s.randIn s.hashIn)) ∧
    (s.x 0 % 2 = 1 → 5 ≤ s.x 0 → 2 ≤ s.x 2 → s.x 2 + 2 ≤ s.x 0 →
      ∃ res, exec .mrwit s = .next (s.ended 0xB#32 res false [] s.randIn s.hashIn) ∧
        (res = true ↔ StrongPass (s.x 0) (s.x 2)))

/-- ISPRIME (R149, R148): on the answers of a run of `is_prime` it ends with that run's answer, no error and no register
written. It always ends when as many answers as ROUNDS are ready, all of them in range: a run takes the first of them. -/
def Obligations.Isprime : Prop :=
  ∀ s : State, s.ready →
    (∀ as rest b, s.randIn = as ++ rest → IsPrimeRun (s.x 0) (s.paramNat .rounds) as b →
      exec .isprime s = .next (s.ended 0x1#32 b false (witnessRequests (s.x 0) as) rest s.hashIn)) ∧
    (s.paramNat .rounds ≤ s.randIn.length →
      (∀ a ∈ s.randIn.take (s.paramNat .rounds), 2 ≤ a ∧ a ≤ s.x 0 - 2) →
      ∃ as rest b, s.randIn = as ++ rest ∧ as.length ≤ s.paramNat .rounds ∧
        IsPrimeRun (s.x 0) (s.paramNat .rounds) as b)

/-- ISPRIME without enough answers waits: it stays in flight with the request for the next witness outstanding (R78,
R148). -/
def Obligations.IsprimeWaits : Prop :=
  ∀ s : State, s.ready → ¬TableDecides (s.x 0) → s.randIn.length < s.paramNat .rounds →
    (∀ a ∈ s.randIn, 2 ≤ a ∧ a ≤ s.x 0 - 2 ∧ StrongPass (s.x 0) a) →
    exec .isprime s = .next (s.flying 0x1#32 ⟨.isprime, s.randIn, 0, some (.randRange 2 (s.x 0 - 2))⟩
      (witnessRequests (s.x 0) s.randIn ++ [.randRange 2 (s.x 0 - 2)]) [] s.hashIn)

/-- The facts of R151 about ISPRIME. (a) a table prime is prime, with no draw; (b) a product of two distinct table entries
is not, with no draw; (c) nor is an even n > 2, nor 0, nor 1; (d) a prime is prime whatever the witnesses; (e) an n that the
table does not decide is prime if all drawn witnesses pass and not as soon as one fails; (f) with ROUNDS = 0 the table
alone decides. -/
def Obligations.IsprimeFacts : Prop :=
  ∀ s : State, s.ready →
    (s.x 0 ∈ smallPrimeTable → exec .isprime s = .next (s.ended 0x1#32 true false [] s.randIn s.hashIn)) ∧
    (∀ a ∈ smallPrimeTable, ∀ b ∈ smallPrimeTable, a ≠ b → s.x 0 = a * b →
      exec .isprime s = .next (s.ended 0x1#32 false false [] s.randIn s.hashIn)) ∧
    ((s.x 0 % 2 = 0 ∧ 2 < s.x 0) ∨ s.x 0 < 2 →
      exec .isprime s = .next (s.ended 0x1#32 false false [] s.randIn s.hashIn)) ∧
    (∀ as rest, (s.x 0).Prime → s.randIn = as ++ rest →
      as.length = (if s.x 0 ≤ 997 then 0 else s.paramNat .rounds) → (∀ a ∈ as, 2 ≤ a ∧ a ≤ s.x 0 - 2) →
      exec .isprime s = .next (s.ended 0x1#32 true false (witnessRequests (s.x 0) as) rest s.hashIn)) ∧
    (∀ as rest, ¬TableDecides (s.x 0) → s.randIn = as ++ rest → (∀ a ∈ as, 2 ≤ a ∧ a ≤ s.x 0 - 2) →
      (as.length = s.paramNat .rounds → (∀ a ∈ as, StrongPass (s.x 0) a) →
        exec .isprime s = .next (s.ended 0x1#32 true false (witnessRequests (s.x 0) as) rest s.hashIn)) ∧
      (∀ bs a, as = bs ++ [a] → as.length ≤ s.paramNat .rounds → (∀ b ∈ bs, StrongPass (s.x 0) b) →
        ¬StrongPass (s.x 0) a →
        exec .isprime s = .next (s.ended 0x1#32 false false (witnessRequests (s.x 0) as) rest s.hashIn))) ∧
    (s.paramNat .rounds = 0 → ∃ b, exec .isprime s = .next (s.ended 0x1#32 b false [] s.randIn s.hashIn) ∧
      (b = true ↔ s.x 0 ∈ smallPrimeTable ∨ ¬TableDecides (s.x 0)))

/-- NEXTPRIME (R150): from n, or n + 1 for an even n, upwards in steps of 2 to the first that passes; Overflow when the
walk would leave the register width, x[0] unchanged. The result is odd and not below n. -/
def Obligations.Nextprime : Prop :=
  ∀ (s : State) (start : Nat) (as rest : List Nat) (sent : List Request), s.ready → s.randIn = as ++ rest →
    start = (if s.x 0 % 2 = 0 then s.x 0 + 1 else s.x 0) →
    (∀ p, SearchRun (s.paramNat .rounds) (fun n => n + 2) start as sent p → p < 2 ^ s.nbits →
      exec .nextprime s = .next { s.ended 0x2#32 false false sent rest s.hashIn with x0 := p } ∧
      p % 2 = 1 ∧ s.x 0 ≤ p) ∧
    (WidthExhausted s.nbits (s.paramNat .rounds) start as sent →
      exec .nextprime s = .next (s.failedWith 0x2#32 5#32 0#32 sent rest s.hashIn))

/-- RNDPRIME (R173, R170, R171, R172): the two checks; the search; 1 for BITS = 1, 3 for BITS = 2; and, for BITS ≥ 2, the
result is odd, has exactly BITS bits and passed the test. -/
def Obligations.Rndprime : Prop :=
  ∀ s : State, s.ready →
    (s.paramNat .bits = 0 → exec .rndprime s = .next (s.failedWith 0x3#32 1#32 6#32 [] s.randIn s.hashIn)) ∧
    (s.nbits < s.paramNat .bits →
      exec .rndprime s = .next (s.failedWith 0x3#32 1#32 7#32 [] s.randIn s.hashIn)) ∧
    (∀ as rest sent p, 1 ≤ s.paramNat .bits → s.paramNat .bits ≤ s.nbits → s.randIn = as ++ rest →
      RandomPrimeRun (s.paramNat .bits) as sent p →
      exec .rndprime s = .next { s.ended 0x3#32 false false sent rest s.hashIn with x0 := p } ∧
      (s.paramNat .bits = 1 → p = 1) ∧ (s.paramNat .bits = 2 → p = 3) ∧
      (2 ≤ s.paramNat .bits → p % 2 = 1 ∧ bitlen p = s.paramNat .bits ∧
        ∃ bs, bs <:+ as ∧ IsPrimeRun p Config.GEN_ROUNDS bs true))

/-- RNDPRIMER (R184, R180 to R183). The short circuits give 2 with no draw. Otherwise the bounds are made odd, the first
candidate and the direction are drawn, and the search steps by 2 with wrap-around until a candidate passes, or the budget c
is spent: ResourceExhausted, x[0] unchanged. A result of the search lies between the normalised bounds and passed the test. -/
def Obligations.Rndprimer : Prop :=
  ∀ s : State, s.ready →
    (s.x 2 < s.x 1 ∨ s.x 2 < 2 ∨ (s.x 2 = s.x 1 ∧ s.x 2 % 2 = 0) →
      exec .rndprimer s = .next { s.ended 0x4#32 false false [] s.randIn s.hashIn with x0 := 2 }) ∧
    (∀ (mn mx c u d : Nat) (as rest : List Nat) (sent : List Request) (r : Option Nat),
      s.x 1 ≤ s.x 2 → 2 ≤ s.x 2 → (s.x 2 = s.x 1 → s.x 2 % 2 = 1) →
      mx = (if s.x 2 % 2 = 0 then s.x 2 + 1 else s.x 2) →
      mn = (if s.x 1 = 0 then 2 else if s.x 1 % 2 = 0 then s.x 1 + 1 else s.x 1) →
      c = (mx - mn) / 2 → u ≤ c → d < 2 → s.randIn = u :: d :: (as ++ rest) →
      RangeRun (fun cand =>
          if d = 1 then (if cand + 2 > mx then mn else cand + 2)
          else if cand < mn + 2 then mx else if cand - 2 = 1 then mx else cand - 2)
        c ((mn + 2 * u) ||| 1) as sent r →
      (∀ p, r = some p →
        exec .rndprimer s = .next { s.ended 0x4#32 false false (.randRange 0 c :: .randBits 1 :: sent) rest s.hashIn with
          x0 := p } ∧ mn ≤ p ∧ p ≤ mx ∧
        ∃ bs, bs <:+ as ∧ IsPrimeRun p Config.GEN_ROUNDS bs true) ∧
      (r = none → exec .rndprimer s =
        .next (s.failedWith 0x4#32 2#32 0#32 (.randRange 0 c :: .randBits 1 :: sent) rest s.hashIn)))

/-- GENPQ's checks, in their order, and its start (R211, R212, R213, R265): with nothing ready it asks for its first seed
and waits (R78). -/
def Obligations.GenpqStart : Prop :=
  ∀ s : State, s.ready →
    ((s.paramNat .bits, s.paramNat .qbits) ∉ [(1024, 160), (2048, 224), (2048, 256), (3072, 256)] →
      exec .genpq s = .next (s.failedWith 0x5#32 1#32 1#32 [] s.randIn s.hashIn)) ∧
    ((s.paramNat .bits, s.paramNat .qbits) ∈ [(1024, 160), (2048, 224), (2048, 256), (3072, 256)] →
      (s.paramNat .seedbits < s.paramNat .qbits →
        exec .genpq s = .next (s.failedWith 0x5#32 1#32 2#32 [] s.randIn s.hashIn)) ∧
      (s.nbits < s.paramNat .seedbits →
        exec .genpq s = .next (s.failedWith 0x5#32 1#32 3#32 [] s.randIn s.hashIn)) ∧
      (s.paramNat .qbits ≤ s.paramNat .seedbits → s.paramNat .seedbits ≤ s.nbits → s.randIn = [] →
        exec .genpq s = .next (s.flying 0x5#32 ⟨.genpq, [], 0, some (.randBits (s.paramNat .seedbits))⟩
          [.randBits (s.paramNat .seedbits)] [] s.hashIn)))

/-- GENPQ on the answers of a run of its search (R213, R200, R204, R206), for every hash oracle o: the engine delivers p and
q together, having sent the run's requests; what R213 says of p and q; and, where o is the machine's oracle, the state after
the command. (The machine's oracle is an uninterpreted constant, so the premise is met for particular oracles o.) -/
def Obligations.GenpqSearch : Prop :=
  ∀ (s : State) (o : Oracle) (as rest : List Nat) (sent : List Request) (p q left : Nat), s.ready →
    (s.paramNat .bits, s.paramNat .qbits) ∈ [(1024, 160), (2048, 224), (2048, 256), (3072, 256)] →
    s.paramNat .qbits ≤ s.paramNat .seedbits → s.paramNat .seedbits ≤ s.nbits →
    OuterRun o (s.paramNat .bits) (s.paramNat .qbits) (s.paramNat .seedbits) as sent p q →
    s.randIn = as ++ rest → s.hashIn = hashCount sent + left →
    (bodyOf .genpq s).run ⟨o, as ++ rest, hashCount sent + left, [], 0, []⟩ =
      .ok { x0 := some p, x1 := some q } ⟨o, rest, left, as.reverse, hashCount sent, sent.reverse⟩ ∧
    (q % 2 = 1 ∧ bitlen q = s.paramNat .qbits ∧ p % 2 = 1 ∧ bitlen p = s.paramNat .bits ∧ q ∣ p - 1) ∧
    (o = Config.hash → exec .genpq s = .next { s.ended 0x5#32 false false sent rest left with
      x0 := p
      x1 := q })

/-- GENPQ on every state its checks accept, whatever the oracle answers: with ready answers that are in range for each
request it can make, the command answers next without an error. Either it has ended in success with p and q as R213 says,
or it waits for an answer with no register changed (R213, R78, R263). -/
def Obligations.GenpqOutcome : Prop :=
  ∀ s : State, s.ready →
    (s.paramNat .bits, s.paramNat .qbits) ∈ [(1024, 160), (2048, 224), (2048, 256), (3072, 256)] →
    s.paramNat .qbits ≤ s.paramNat .seedbits → s.paramNat .seedbits ≤ s.nbits →
    (∀ a ∈ s.randIn, 2 ≤ a ∧ a < 2 ^ (s.paramNat .qbits - 1)) →
    ∃ t, exec .genpq s = .next t ∧
      ((∃ p q sent rest left, t = { s.ended 0x5#32 false false sent rest left with
            x0 := p
            x1 := q } ∧
          (q % 2 = 1 ∧ bitlen q = s.paramNat .qbits ∧ p % 2 = 1 ∧ bitlen p = s.paramNat .bits ∧ q ∣ p - 1) ∧
          (∃ as, IsPrimeRun p Config.GEN_ROUNDS as true) ∧ ∃ as, IsPrimeRun q Config.GEN_ROUNDS as true) ∨
        ∃ f r sent rest left, t = s.flying 0x5#32 f sent rest left ∧ f.instr = .genpq ∧ f.outstanding = some r ∧
          sent.getLast? = some r)

/-- GENG (R221, R220): the two checks; the first h of the cyclic walk whose power is not 1 gives the result; the walk
finds one if there is one in [2, p − 2]; when there is none, the command stays in flight for ever. -/
def Obligations.Geng : Prop :=
  ∀ s : State, s.ready →
    (s.x 0 < 4 → exec .geng s = .next (s.failedWith 0x6#32 1#32 9#32 [] s.randIn s.hashIn)) ∧
    (4 ≤ s.x 0 → s.x 1 = 0 → exec .geng s = .next (s.failedWith 0x6#32 1#32 10#32 [] s.randIn s.hashIn)) ∧
    (∀ h d rest, 4 ≤ s.x 0 → s.x 1 ≠ 0 → 2 ≤ h → h ≤ s.x 0 - 2 → d < 2 → s.randIn = h :: d :: rest →
      (∀ k, (∀ j, j < k → ((nextH (s.x 0) d)^[j] h) ^ ((s.x 0 - 1) / s.x 1) % s.x 0 = 1) →
        ((nextH (s.x 0) d)^[k] h) ^ ((s.x 0 - 1) / s.x 1) % s.x 0 ≠ 1 →
        exec .geng s = .next { s.ended 0x6#32 false false [.randRange 2 (s.x 0 - 2), .randBits 1] rest s.hashIn with
          x2 := ((nextH (s.x 0) d)^[k] h) ^ ((s.x 0 - 1) / s.x 1) % s.x 0 }) ∧
      ((∃ g, 2 ≤ g ∧ g ≤ s.x 0 - 2 ∧ g ^ ((s.x 0 - 1) / s.x 1) % s.x 0 ≠ 1) →
        ∃ k, (∀ j, j < k → ((nextH (s.x 0) d)^[j] h) ^ ((s.x 0 - 1) / s.x 1) % s.x 0 = 1) ∧
          ((nextH (s.x 0) d)^[k] h) ^ ((s.x 0 - 1) / s.x 1) % s.x 0 ≠ 1) ∧
      ((∀ g, 2 ≤ g → g ≤ s.x 0 - 2 → g ^ ((s.x 0 - 1) / s.x 1) % s.x 0 = 1) →
        ∃ t, exec .geng s = .next t ∧ step (t.event .engine) = .next t ∧
          t = s.flying 0x6#32 ⟨.geng, [h, d], 0, none⟩ [.randRange 2 (s.x 0 - 2), .randBits 1] rest s.hashIn))

/-- VERIFYG (R226, R225). -/
def Obligations.Verifyg : Prop :=
  ∀ s : State, s.ready → ∃ res,
    exec .verifyg s = .next (s.ended 0x7#32 res false [] s.randIn s.hashIn) ∧
    (res = true ↔ 2 ≤ s.x 2 ∧ s.x 2 < s.x 0 ∧ s.x 2 ^ s.x 1 % s.x 0 = 1)

/-- GENPG (R245, R240 to R244): the two checks; the construction of p; the walk from the drawn base to the first g that
passes the three tests; the final check, InternalConsistency when it fails. p is odd with exactly BITS bits. -/
def Obligations.Genpg : Prop :=
  ∀ s : State, s.ready →
    (s.paramNat .bits < 128 → exec .genpg s = .next (s.failedWith 0x8#32 1#32 4#32 [] s.randIn s.hashIn)) ∧
    (s.nbits < s.paramNat .bits →
      exec .genpg s = .next (s.failedWith 0x8#32 1#32 5#32 [] s.randIn s.hashIn)) ∧
    (∀ as rest sent prime1 prime2 shift p base g, 128 ≤ s.paramNat .bits → s.paramNat .bits ≤ s.nbits →
      ConstructionRun (s.paramNat .bits) as sent prime1 prime2 shift p → 2 ≤ base → base ≤ p - 2 → base ≤ g →
      (∀ a, base ≤ a → a < g → ¬ThreeTests prime1 prime2 shift p a) → ThreeTests prime1 prime2 shift p g →
      s.randIn = as ++ base :: rest →
      bitlen p = s.paramNat .bits ∧ p % 2 = 1 ∧
      (g ^ (p - 1) % p = 1 → exec .genpg s = .next { s.ended 0x8#32 false false (sent ++ [.randRange 2 (p - 2)]) rest
          s.hashIn with x0 := p, x2 := g }) ∧
      (g ^ (p - 1) % p ≠ 1 →
        exec .genpg s = .next (s.failedWith 0x8#32 3#32 0#32 (sent ++ [.randRange 2 (p - 2)]) rest s.hashIn)))

/-- SEEDQ (R205, R204, R83). -/
def Obligations.Seedq : Prop :=
  ∀ s : State, s.ready →
    (s.paramNat .seedbits = 0 ∨ s.nbits < s.paramNat .seedbits →
      exec .seedq s = .next (s.failedWith 0xC#32 1#32 13#32 [] s.randIn s.hashIn)) ∧
    (1 ≤ s.paramNat .seedbits → s.paramNat .seedbits ≤ s.nbits →
      (2 ^ s.paramNat .seedbits ≤ s.x 3 →
        exec .seedq s = .next (s.failedWith 0xC#32 1#32 14#32 [] s.randIn s.hashIn)) ∧
      (s.x 3 < 2 ^ s.paramNat .seedbits →
        (s.paramNat .qbits < 2 ∨ s.nbits < s.paramNat .qbits →
          exec .seedq s = .next (s.failedWith 0xC#32 1#32 15#32 [] s.randIn s.hashIn)) ∧
        (∀ left, 2 ≤ s.paramNat .qbits → s.paramNat .qbits ≤ s.nbits → s.hashIn = 1 + left →
          exec .seedq s = .next { s.ended 0xC#32 false false [.hash (hashMessage (s.x 3) (s.paramNat .seedbits))]
              s.randIn left with
            x1 := qOfSeed Config.hash (s.x 3) (s.paramNat .seedbits) (s.paramNat .qbits) })))

/-- SEEDP (R207, R206, R200, R84). -/
def Obligations.Seedp : Prop :=
  ∀ s : State, s.ready →
    (s.paramNat .seedbits = 0 ∨ s.nbits < s.paramNat .seedbits →
      exec .seedp s = .next (s.failedWith 0xD#32 1#32 13#32 [] s.randIn s.hashIn)) ∧
    (1 ≤ s.paramNat .seedbits → s.paramNat .seedbits ≤ s.nbits →
      (2 ^ s.paramNat .seedbits ≤ s.x 3 →
        exec .seedp s = .next (s.failedWith 0xD#32 1#32 14#32 [] s.randIn s.hashIn)) ∧
      (s.x 3 < 2 ^ s.paramNat .seedbits →
        (s.paramNat .bits < 2 ∨ s.nbits < s.paramNat .bits →
          exec .seedp s = .next (s.failedWith 0xD#32 1#32 16#32 [] s.randIn s.hashIn)) ∧
        (2 ≤ s.paramNat .bits → s.paramNat .bits ≤ s.nbits →
          (s.x 1 = 0 → exec .seedp s = .next (s.failedWith 0xD#32 1#32 17#32 [] s.randIn s.hashIn)) ∧
          (∀ left p, s.x 1 ≠ 0 → s.hashIn = lastDigest (s.paramNat .bits) + 1 + left →
            p = pOfSeed Config.hash (s.x 3) (s.paramNat .seedbits) (s.paramNat .offset) (s.paramNat .bits) (s.x 1) →
            exec .seedp s = .next { s.ended 0xD#32 (decide (2 ^ (s.paramNat .bits - 1) ≤ p)) false
                (streamRequests (s.x 3) (s.paramNat .seedbits) (s.paramNat .offset) (s.paramNat .bits)) s.randIn left with
              x0 := p }))))

/-- What R204 and R206 say of the derived values, for every hash function: q is odd and has exactly N bits; the candidate p
is below 2^L and 1 modulo 2q; n and b of R200. And the conversions they rest on: the machine's I2BE gives `len` bytes, most
significant first, and BE2I takes them back (R82, R64 (b)); its `H(v, S)` sends the message of ceil(S/8) bytes of v mod 2^S
and gives the digest's value (R83); its bit length is that of R5. -/
def Obligations.DerivedValues : Prop :=
  (∀ (o : Oracle) (seed S offset N L q : Nat), 2 ≤ N → 2 ≤ L → 1 ≤ q →
    qOfSeed o seed S N % 2 = 1 ∧ bitlen (qOfSeed o seed S N) = N ∧
    pOfSeed o seed S offset L q < 2 ^ L ∧ pOfSeed o seed S offset L q % (2 * q) = 1 ∧
    lastDigest L = (L + 256 - 1) / 256 - 1 ∧ lastDigest L * 256 < L ∧ L ≤ (lastDigest L + 1) * 256) ∧
  (∀ v len : Nat, (i2be v len).length = len ∧
    (∀ k, k < len → ((i2be v len).getD k 0#8).toNat = v / 2 ^ (8 * (len - 1 - k)) % 2 ^ 8) ∧
    (v < 2 ^ (8 * len) → be2i (i2be v len) = v)) ∧
  (∀ B : List Byte, be2i B = ((List.range B.length).map fun k => (B.getD k 0#8).toNat * 2 ^ (8 * (B.length - 1 - k))).sum) ∧
  (∀ (o : Oracle) (v S left : Nat), (hashInt v S).run ⟨o, [], left + 1, [], 0, []⟩ =
    .ok (hashOf o v S) ⟨o, [], left, [], 1, [.hash (i2be (v % 2 ^ S) ((S + 7) / 8))]⟩) ∧
  bitlen 0 = 0 ∧ ∀ v k : Nat, 0 < v → (bitlen v = k ↔ 2 ^ (k - 1) ≤ v ∧ v < 2 ^ k)

/-! ### Headlines -/

/-- For a prime p and a divisor q of p − 1, whatever GENG delivers passes VERIFYG (R221, R226). -/
def Obligations.GengThenVerifyg : Prop :=
  ∀ s t : State, s.ready → (s.x 0).Prime → 1 ≤ s.x 1 → s.x 1 ∣ s.x 0 - 1 → exec .geng s = .next t →
    t.status.busy = false → t.status.err = false →
    ∃ u, exec .verifyg t = .next u ∧ u.status = ⟨false, true, false, true, false, s.status.wign⟩

/-- GENPG with a prime p and its two primes (R245): if some value from the base up to p − 1 passes the three tests, the
command succeeds, and its g is a primitive root modulo p. -/
def Obligations.GenpgPrimitiveRoot : Prop :=
  ∀ (s : State) (as rest : List Nat) (sent : List Request) (prime1 prime2 shift p base g : Nat), s.ready →
    128 ≤ s.paramNat .bits → s.paramNat .bits ≤ s.nbits →
    ConstructionRun (s.paramNat .bits) as sent prime1 prime2 shift p → p.Prime → prime1.Prime → prime2.Prime →
    2 ≤ base → base ≤ p - 2 → base ≤ g → g < p →
    (∀ a, base ≤ a → a < g → ¬ThreeTests prime1 prime2 shift p a) → ThreeTests prime1 prime2 shift p g →
    s.randIn = as ++ base :: rest →
    exec .genpg s = .next { s.ended 0x8#32 false false (sent ++ [.randRange 2 (p - 2)]) rest s.hashIn with
      x0 := p, x2 := g } ∧
    orderOf (g : ZMod p) = p - 1
end

