-- ==== Sys2Proof/Laws/Bytes.lean ====
section
/-! SUPPORT. The conversions between naturals and bytes, most significant byte first (R82, R83). -/

namespace Sys2Proof.Machine

@[simp] theorem i2be_length (v len : Nat) : (i2be v len).length = len := by simp [i2be]

/-- Byte k of I2BE (R82). -/
theorem i2be_getD (v : Nat) {len k : Nat} (h : k < len) :
    ((i2be v len).getD k 0#8).toNat = v / 2 ^ (8 * (len - 1 - k)) % 2 ^ 8 := by
  simp [i2be, h, Nat.shiftRight_eq_div_pow]

theorem be2i_append (B : List Byte) (b : Byte) : be2i (B ++ [b]) = be2i B * 256 + b.toNat := by
  simp [be2i, List.foldl_append]

/-- BE2I as the sum of R82. -/
theorem be2i_eq_sum (B : List Byte) :
    be2i B = ((List.range B.length).map fun k => (B.getD k 0#8).toNat * 2 ^ (8 * (B.length - 1 - k))).sum := by
  induction B using List.reverseRecOn with
  | nil => rfl
  | append_singleton B b ih =>
    rw [be2i_append, ih, List.length_append, List.length_singleton, List.range_succ, List.map_append, List.sum_append,
      ← List.sum_map_mul_right]
    congr 1
    · congr 1
      refine List.map_congr_left fun k hk => ?_
      have hk := List.mem_range.mp hk
      rw [List.getD_append _ _ _ _ hk, mul_assoc, show (256 : Nat) = 2 ^ 8 from rfl, ← pow_add]
      congr 2
      omega
    · simp

theorem i2be_succ (v len : Nat) : i2be v (len + 1) = i2be (v / 256) len ++ [BitVec.ofNat 8 v] := by
  unfold i2be
  rw [List.range_succ, List.map_append]
  congr 1
  · refine List.map_congr_left fun k hk => ?_
    have hk := List.mem_range.mp hk
    rw [Nat.shiftRight_eq_div_pow, Nat.shiftRight_eq_div_pow, show (256 : Nat) = 2 ^ 8 from rfl, Nat.div_div_eq_div_mul,
      ← pow_add]
    congr 3
    omega
  · simp

/-- `BE2I(I2BE(v, len)) = v` for v of `len` bytes (R82). -/
theorem be2i_i2be {len : Nat} : ∀ {v : Nat}, v < 2 ^ (8 * len) → be2i (i2be v len) = v := by
  induction len with
  | zero => intro v h; simp [i2be, be2i] at *; omega
  | succ len ih =>
    intro v h
    rw [show 8 * (len + 1) = 8 + 8 * len by omega, pow_add] at h
    rw [i2be_succ, be2i_append, ih (by omega), BitVec.toNat_ofNat]
    omega

theorem be2i_lt (l : List Byte) : be2i l < 256 ^ l.length := by
  suffices h : ∀ (l : List Byte) (acc k : Nat), acc < 256 ^ k →
      l.foldl (fun acc b => acc * 256 + b.toNat) acc < 256 ^ (k + l.length) by
    have := h l 0 0 (by simp)
    simpa [be2i] using this
  intro l
  induction l with
  | nil => intro acc k h; simpa using h
  | cons b l ih =>
    intro acc k h
    rw [List.foldl_cons, List.length_cons, show k + (l.length + 1) = (k + 1) + l.length by omega]
    refine ih _ _ ?_
    have hb : b.toNat < 256 := b.isLt
    rw [pow_succ]
    omega

theorem digest_lt (d : Vector Byte Config.DIGESTBYTES) : be2i d.toList < 2 ^ Config.OUTLEN := by
  have h := be2i_lt d.toList
  rw [Vector.length_toList] at h
  calc be2i d.toList < 256 ^ Config.DIGESTBYTES := h
    _ = 2 ^ Config.OUTLEN := by
      rw [show (256 : Nat) = 2 ^ 8 by norm_num, ← pow_mul]
      rfl

/-- The message of a hash request, as the machine makes it (R83). -/
theorem hashMessage_eq (v S : Nat) : hashMessage v S = i2be (v % 2 ^ S) (seedBytes S) := by
  refine List.map_congr_left fun k _ => ?_
  rw [Nat.shiftRight_eq_div_pow, pow_mul]
  rfl

/-- The value of a digest, as the machine takes it (R83). -/
theorem hashOf_eq (o : Oracle) (v S : Nat) : hashOf o v S = be2i (o (hashMessage v S)).toList := by
  rw [be2i_eq_sum, Vector.length_toList, hashOf]
  congr 1

end Sys2Proof.Machine
end

