-- ==== Sys2Proof/Laws/State.lean ====
section
/-! SUPPORT. One lemma per field for each update of State and of STATUS: later proofs rewrite with these and do not unfold
the updates. -/

namespace Sys2Proof.Machine

/-! ### The width of the chip -/

/-- What R4 says of NBITS and NLIMBS. -/
theorem width_facts (w : Config.Width) :
    w.nbits % 32 = 0 ∧ 3072 ≤ w.nbits ∧ w.nbits ≤ 8192 ∧ 32 * w.nlimbs = w.nbits ∧ 96 ≤ w.nlimbs ∧ w.nlimbs ≤ 256 := by
  have := w.isLt
  unfold Config.Width.nlimbs Config.Width.nbits
  omega

theorem State.width_facts (s : State) :
    s.nbits % 32 = 0 ∧ 3072 ≤ s.nbits ∧ s.nbits ≤ 8192 ∧ 32 * s.nlimbs = s.nbits ∧ 96 ≤ s.nlimbs ∧ s.nlimbs ≤ 256 :=
  Machine.width_facts s.width

theorem State.nbits_eq {s t : State} (h : s.width = t.width) : s.nbits = t.nbits := congrArg Config.Width.nbits h

theorem State.nlimbs_eq {s t : State} (h : s.width = t.width) : s.nlimbs = t.nlimbs := congrArg Config.Width.nlimbs h

/-! ### Updates -/

section started
variable (f : Status)
@[simp] theorem Status.started_busy : f.started.busy = true := rfl
@[simp] theorem Status.started_done : f.started.done = false := rfl
@[simp] theorem Status.started_err : f.started.err = false := rfl
@[simp] theorem Status.started_res : f.started.res = false := rfl
@[simp] theorem Status.started_undec : f.started.undec = false := rfl
@[simp] theorem Status.started_wign : f.started.wign = f.wign := rfl
end started

section succeeded
variable (r u : Bool) (f : Status)
@[simp] theorem Status.succeeded_busy : (f.succeeded r u).busy = false := rfl
@[simp] theorem Status.succeeded_done : (f.succeeded r u).done = true := rfl
@[simp] theorem Status.succeeded_err : (f.succeeded r u).err = f.err := rfl
@[simp] theorem Status.succeeded_res : (f.succeeded r u).res = r := rfl
@[simp] theorem Status.succeeded_undec : (f.succeeded r u).undec = u := rfl
@[simp] theorem Status.succeeded_wign : (f.succeeded r u).wign = f.wign := rfl
end succeeded

section failed
variable (f : Status)
@[simp] theorem Status.failed_busy : f.failed.busy = false := rfl
@[simp] theorem Status.failed_done : f.failed.done = true := rfl
@[simp] theorem Status.failed_err : f.failed.err = true := rfl
@[simp] theorem Status.failed_res : f.failed.res = false := rfl
@[simp] theorem Status.failed_undec : f.failed.undec = false := rfl
@[simp] theorem Status.failed_wign : f.failed.wign = f.wign := rfl
end failed

section writeIgnored
variable (f : Status)
@[simp] theorem Status.writeIgnored_busy : f.writeIgnored.busy = f.busy := rfl
@[simp] theorem Status.writeIgnored_done : f.writeIgnored.done = f.done := rfl
@[simp] theorem Status.writeIgnored_err : f.writeIgnored.err = f.err := rfl
@[simp] theorem Status.writeIgnored_res : f.writeIgnored.res = f.res := rfl
@[simp] theorem Status.writeIgnored_undec : f.writeIgnored.undec = f.undec := rfl
@[simp] theorem Status.writeIgnored_wign : f.writeIgnored.wign = true := rfl
end writeIgnored

section writeOneToClear
variable (v : Word) (f : Status)
@[simp] theorem Status.writeOneToClear_busy : (f.writeOneToClear v).busy = f.busy := rfl
@[simp] theorem Status.writeOneToClear_done : (f.writeOneToClear v).done = (f.done && !v.getLsbD 1) := rfl
@[simp] theorem Status.writeOneToClear_err : (f.writeOneToClear v).err = f.err := rfl
@[simp] theorem Status.writeOneToClear_res : (f.writeOneToClear v).res = f.res := rfl
@[simp] theorem Status.writeOneToClear_undec : (f.writeOneToClear v).undec = f.undec := rfl
@[simp] theorem Status.writeOneToClear_wign : (f.writeOneToClear v).wign = (f.wign && !v.getLsbD 5) := rfl
end writeOneToClear

section startCommand
variable (i : Instr) (s : State)
@[simp] theorem startCommand_width : (startCommand i s).width = s.width := rfl
@[simp] theorem startCommand_nbits : (startCommand i s).nbits = s.nbits := rfl
@[simp] theorem startCommand_nlimbs : (startCommand i s).nlimbs = s.nlimbs := rfl
@[simp] theorem startCommand_x0 : (startCommand i s).x0 = s.x0 := rfl
@[simp] theorem startCommand_x1 : (startCommand i s).x1 = s.x1 := rfl
@[simp] theorem startCommand_x2 : (startCommand i s).x2 = s.x2 := rfl
@[simp] theorem startCommand_x3 : (startCommand i s).x3 = s.x3 := rfl
@[simp] theorem startCommand_bits : (startCommand i s).bits = s.bits := rfl
@[simp] theorem startCommand_qbits : (startCommand i s).qbits = s.qbits := rfl
@[simp] theorem startCommand_seedbits : (startCommand i s).seedbits = s.seedbits := rfl
@[simp] theorem startCommand_rounds : (startCommand i s).rounds = s.rounds := rfl
@[simp] theorem startCommand_offset : (startCommand i s).offset = s.offset := rfl
@[simp] theorem startCommand_cmd : (startCommand i s).cmd = encode i := rfl
@[simp] theorem startCommand_status : (startCommand i s).status = s.status.started := rfl
@[simp] theorem startCommand_cause : (startCommand i s).cause = 0#32 := rfl
@[simp] theorem startCommand_einfo : (startCommand i s).einfo = 0#32 := rfl
@[simp] theorem startCommand_ie : (startCommand i s).ie = s.ie := rfl
@[simp] theorem startCommand_inFlight : (startCommand i s).inFlight = some ⟨i, [], 0, none⟩ := rfl
@[simp] theorem startCommand_requests : (startCommand i s).requests = [] := rfl
@[simp] theorem startCommand_reply : (startCommand i s).reply = s.reply := rfl
@[simp] theorem startCommand_script : (startCommand i s).script = s.script := rfl
@[simp] theorem startCommand_randIn : (startCommand i s).randIn = s.randIn := rfl
@[simp] theorem startCommand_hashIn : (startCommand i s).hashIn = s.hashIn := rfl
@[simp] theorem startCommand_freeReads : (startCommand i s).freeReads = s.freeReads := rfl
end startCommand

section succeed
variable (r : Result) (s : State)
@[simp] theorem succeed_width : (succeed r s).width = s.width := rfl
@[simp] theorem succeed_nbits : (succeed r s).nbits = s.nbits := rfl
@[simp] theorem succeed_nlimbs : (succeed r s).nlimbs = s.nlimbs := rfl
@[simp] theorem succeed_x0 : (succeed r s).x0 = resultReg s.x0 r.x0 := rfl
@[simp] theorem succeed_x1 : (succeed r s).x1 = resultReg s.x1 r.x1 := rfl
@[simp] theorem succeed_x2 : (succeed r s).x2 = resultReg s.x2 r.x2 := rfl
@[simp] theorem succeed_x3 : (succeed r s).x3 = resultReg s.x3 r.x3 := rfl
@[simp] theorem succeed_bits : (succeed r s).bits = s.bits := rfl
@[simp] theorem succeed_qbits : (succeed r s).qbits = s.qbits := rfl
@[simp] theorem succeed_seedbits : (succeed r s).seedbits = s.seedbits := rfl
@[simp] theorem succeed_rounds : (succeed r s).rounds = s.rounds := rfl
@[simp] theorem succeed_offset : (succeed r s).offset = s.offset := rfl
@[simp] theorem succeed_cmd : (succeed r s).cmd = s.cmd := rfl
@[simp] theorem succeed_status : (succeed r s).status = s.status.succeeded r.res r.undec := rfl
@[simp] theorem succeed_cause : (succeed r s).cause = s.cause := rfl
@[simp] theorem succeed_einfo : (succeed r s).einfo = s.einfo := rfl
@[simp] theorem succeed_ie : (succeed r s).ie = s.ie := rfl
@[simp] theorem succeed_inFlight : (succeed r s).inFlight = none := rfl
@[simp] theorem succeed_requests : (succeed r s).requests = s.requests := rfl
@[simp] theorem succeed_reply : (succeed r s).reply = s.reply := rfl
@[simp] theorem succeed_script : (succeed r s).script = s.script := rfl
@[simp] theorem succeed_randIn : (succeed r s).randIn = s.randIn := rfl
@[simp] theorem succeed_hashIn : (succeed r s).hashIn = s.hashIn := rfl
@[simp] theorem succeed_freeReads : (succeed r s).freeReads = s.freeReads := rfl
end succeed

section raiseError
variable (e : ErrorKind) (info : Word) (s : State)
@[simp] theorem raiseError_width : (raiseError e info s).width = s.width := rfl
@[simp] theorem raiseError_nbits : (raiseError e info s).nbits = s.nbits := rfl
@[simp] theorem raiseError_nlimbs : (raiseError e info s).nlimbs = s.nlimbs := rfl
@[simp] theorem raiseError_x0 : (raiseError e info s).x0 = s.x0 := rfl
@[simp] theorem raiseError_x1 : (raiseError e info s).x1 = s.x1 := rfl
@[simp] theorem raiseError_x2 : (raiseError e info s).x2 = s.x2 := rfl
@[simp] theorem raiseError_x3 : (raiseError e info s).x3 = s.x3 := rfl
@[simp] theorem raiseError_bits : (raiseError e info s).bits = s.bits := rfl
@[simp] theorem raiseError_qbits : (raiseError e info s).qbits = s.qbits := rfl
@[simp] theorem raiseError_seedbits : (raiseError e info s).seedbits = s.seedbits := rfl
@[simp] theorem raiseError_rounds : (raiseError e info s).rounds = s.rounds := rfl
@[simp] theorem raiseError_offset : (raiseError e info s).offset = s.offset := rfl
@[simp] theorem raiseError_cmd : (raiseError e info s).cmd = s.cmd := rfl
@[simp] theorem raiseError_status : (raiseError e info s).status = s.status.failed := rfl
@[simp] theorem raiseError_cause : (raiseError e info s).cause = e.code := rfl
@[simp] theorem raiseError_einfo : (raiseError e info s).einfo = info := rfl
@[simp] theorem raiseError_ie : (raiseError e info s).ie = s.ie := rfl
@[simp] theorem raiseError_inFlight : (raiseError e info s).inFlight = none := rfl
@[simp] theorem raiseError_requests : (raiseError e info s).requests = s.requests := rfl
@[simp] theorem raiseError_reply : (raiseError e info s).reply = s.reply := rfl
@[simp] theorem raiseError_script : (raiseError e info s).script = s.script := rfl
@[simp] theorem raiseError_randIn : (raiseError e info s).randIn = s.randIn := rfl
@[simp] theorem raiseError_hashIn : (raiseError e info s).hashIn = s.hashIn := rfl
@[simp] theorem raiseError_freeReads : (raiseError e info s).freeReads = s.freeReads := rfl
end raiseError

section ignoreWrite
variable (s : State)
@[simp] theorem ignoreWrite_width : (ignoreWrite s).width = s.width := rfl
@[simp] theorem ignoreWrite_nbits : (ignoreWrite s).nbits = s.nbits := rfl
@[simp] theorem ignoreWrite_nlimbs : (ignoreWrite s).nlimbs = s.nlimbs := rfl
@[simp] theorem ignoreWrite_x0 : (ignoreWrite s).x0 = s.x0 := rfl
@[simp] theorem ignoreWrite_x1 : (ignoreWrite s).x1 = s.x1 := rfl
@[simp] theorem ignoreWrite_x2 : (ignoreWrite s).x2 = s.x2 := rfl
@[simp] theorem ignoreWrite_x3 : (ignoreWrite s).x3 = s.x3 := rfl
@[simp] theorem ignoreWrite_bits : (ignoreWrite s).bits = s.bits := rfl
@[simp] theorem ignoreWrite_qbits : (ignoreWrite s).qbits = s.qbits := rfl
@[simp] theorem ignoreWrite_seedbits : (ignoreWrite s).seedbits = s.seedbits := rfl
@[simp] theorem ignoreWrite_rounds : (ignoreWrite s).rounds = s.rounds := rfl
@[simp] theorem ignoreWrite_offset : (ignoreWrite s).offset = s.offset := rfl
@[simp] theorem ignoreWrite_cmd : (ignoreWrite s).cmd = s.cmd := rfl
@[simp] theorem ignoreWrite_status : (ignoreWrite s).status = s.status.writeIgnored := rfl
@[simp] theorem ignoreWrite_cause : (ignoreWrite s).cause = s.cause := rfl
@[simp] theorem ignoreWrite_einfo : (ignoreWrite s).einfo = s.einfo := rfl
@[simp] theorem ignoreWrite_ie : (ignoreWrite s).ie = s.ie := rfl
@[simp] theorem ignoreWrite_inFlight : (ignoreWrite s).inFlight = s.inFlight := rfl
@[simp] theorem ignoreWrite_requests : (ignoreWrite s).requests = s.requests := rfl
@[simp] theorem ignoreWrite_reply : (ignoreWrite s).reply = s.reply := rfl
@[simp] theorem ignoreWrite_script : (ignoreWrite s).script = s.script := rfl
@[simp] theorem ignoreWrite_randIn : (ignoreWrite s).randIn = s.randIn := rfl
@[simp] theorem ignoreWrite_hashIn : (ignoreWrite s).hashIn = s.hashIn := rfl
@[simp] theorem ignoreWrite_freeReads : (ignoreWrite s).freeReads = s.freeReads := rfl
end ignoreWrite

section acknowledge
variable (v : Word) (s : State)
@[simp] theorem acknowledge_width : (acknowledge v s).width = s.width := rfl
@[simp] theorem acknowledge_nbits : (acknowledge v s).nbits = s.nbits := rfl
@[simp] theorem acknowledge_nlimbs : (acknowledge v s).nlimbs = s.nlimbs := rfl
@[simp] theorem acknowledge_x0 : (acknowledge v s).x0 = s.x0 := rfl
@[simp] theorem acknowledge_x1 : (acknowledge v s).x1 = s.x1 := rfl
@[simp] theorem acknowledge_x2 : (acknowledge v s).x2 = s.x2 := rfl
@[simp] theorem acknowledge_x3 : (acknowledge v s).x3 = s.x3 := rfl
@[simp] theorem acknowledge_bits : (acknowledge v s).bits = s.bits := rfl
@[simp] theorem acknowledge_qbits : (acknowledge v s).qbits = s.qbits := rfl
@[simp] theorem acknowledge_seedbits : (acknowledge v s).seedbits = s.seedbits := rfl
@[simp] theorem acknowledge_rounds : (acknowledge v s).rounds = s.rounds := rfl
@[simp] theorem acknowledge_offset : (acknowledge v s).offset = s.offset := rfl
@[simp] theorem acknowledge_cmd : (acknowledge v s).cmd = s.cmd := rfl
@[simp] theorem acknowledge_status : (acknowledge v s).status = s.status.writeOneToClear v := rfl
@[simp] theorem acknowledge_cause : (acknowledge v s).cause = s.cause := rfl
@[simp] theorem acknowledge_einfo : (acknowledge v s).einfo = s.einfo := rfl
@[simp] theorem acknowledge_ie : (acknowledge v s).ie = s.ie := rfl
@[simp] theorem acknowledge_inFlight : (acknowledge v s).inFlight = s.inFlight := rfl
@[simp] theorem acknowledge_requests : (acknowledge v s).requests = s.requests := rfl
@[simp] theorem acknowledge_reply : (acknowledge v s).reply = s.reply := rfl
@[simp] theorem acknowledge_script : (acknowledge v s).script = s.script := rfl
@[simp] theorem acknowledge_randIn : (acknowledge v s).randIn = s.randIn := rfl
@[simp] theorem acknowledge_hashIn : (acknowledge v s).hashIn = s.hashIn := rfl
@[simp] theorem acknowledge_freeReads : (acknowledge v s).freeReads = s.freeReads := rfl
end acknowledge

section leavePorts
variable (p : Ports) (s : State)
@[simp] theorem leavePorts_width : (leavePorts p s).width = s.width := rfl
@[simp] theorem leavePorts_nbits : (leavePorts p s).nbits = s.nbits := rfl
@[simp] theorem leavePorts_nlimbs : (leavePorts p s).nlimbs = s.nlimbs := rfl
@[simp] theorem leavePorts_x0 : (leavePorts p s).x0 = s.x0 := rfl
@[simp] theorem leavePorts_x1 : (leavePorts p s).x1 = s.x1 := rfl
@[simp] theorem leavePorts_x2 : (leavePorts p s).x2 = s.x2 := rfl
@[simp] theorem leavePorts_x3 : (leavePorts p s).x3 = s.x3 := rfl
@[simp] theorem leavePorts_bits : (leavePorts p s).bits = s.bits := rfl
@[simp] theorem leavePorts_qbits : (leavePorts p s).qbits = s.qbits := rfl
@[simp] theorem leavePorts_seedbits : (leavePorts p s).seedbits = s.seedbits := rfl
@[simp] theorem leavePorts_rounds : (leavePorts p s).rounds = s.rounds := rfl
@[simp] theorem leavePorts_offset : (leavePorts p s).offset = s.offset := rfl
@[simp] theorem leavePorts_cmd : (leavePorts p s).cmd = s.cmd := rfl
@[simp] theorem leavePorts_status : (leavePorts p s).status = s.status := rfl
@[simp] theorem leavePorts_cause : (leavePorts p s).cause = s.cause := rfl
@[simp] theorem leavePorts_einfo : (leavePorts p s).einfo = s.einfo := rfl
@[simp] theorem leavePorts_ie : (leavePorts p s).ie = s.ie := rfl
@[simp] theorem leavePorts_inFlight : (leavePorts p s).inFlight = s.inFlight := rfl
@[simp] theorem leavePorts_requests : (leavePorts p s).requests = p.sent.reverse := rfl
@[simp] theorem leavePorts_reply : (leavePorts p s).reply = s.reply := rfl
@[simp] theorem leavePorts_script : (leavePorts p s).script = s.script := rfl
@[simp] theorem leavePorts_randIn : (leavePorts p s).randIn = p.rand := rfl
@[simp] theorem leavePorts_hashIn : (leavePorts p s).hashIn = p.hash := rfl
@[simp] theorem leavePorts_freeReads : (leavePorts p s).freeReads = s.freeReads := rfl
end leavePorts

section holdCommand
variable (f : InFlight) (o : Option Request) (p : Ports) (s : State)
@[simp] theorem holdCommand_width : (holdCommand f o p s).width = s.width := rfl
@[simp] theorem holdCommand_nbits : (holdCommand f o p s).nbits = s.nbits := rfl
@[simp] theorem holdCommand_nlimbs : (holdCommand f o p s).nlimbs = s.nlimbs := rfl
@[simp] theorem holdCommand_x0 : (holdCommand f o p s).x0 = s.x0 := rfl
@[simp] theorem holdCommand_x1 : (holdCommand f o p s).x1 = s.x1 := rfl
@[simp] theorem holdCommand_x2 : (holdCommand f o p s).x2 = s.x2 := rfl
@[simp] theorem holdCommand_x3 : (holdCommand f o p s).x3 = s.x3 := rfl
@[simp] theorem holdCommand_bits : (holdCommand f o p s).bits = s.bits := rfl
@[simp] theorem holdCommand_qbits : (holdCommand f o p s).qbits = s.qbits := rfl
@[simp] theorem holdCommand_seedbits : (holdCommand f o p s).seedbits = s.seedbits := rfl
@[simp] theorem holdCommand_rounds : (holdCommand f o p s).rounds = s.rounds := rfl
@[simp] theorem holdCommand_offset : (holdCommand f o p s).offset = s.offset := rfl
@[simp] theorem holdCommand_cmd : (holdCommand f o p s).cmd = s.cmd := rfl
@[simp] theorem holdCommand_status : (holdCommand f o p s).status = s.status := rfl
@[simp] theorem holdCommand_cause : (holdCommand f o p s).cause = s.cause := rfl
@[simp] theorem holdCommand_einfo : (holdCommand f o p s).einfo = s.einfo := rfl
@[simp] theorem holdCommand_ie : (holdCommand f o p s).ie = s.ie := rfl
@[simp] theorem holdCommand_inFlight : (holdCommand f o p s).inFlight = some ⟨f.instr, p.drawn.reverse, p.digests, o⟩ := rfl
@[simp] theorem holdCommand_requests : (holdCommand f o p s).requests = p.sent.reverse := rfl
@[simp] theorem holdCommand_reply : (holdCommand f o p s).reply = s.reply := rfl
@[simp] theorem holdCommand_script : (holdCommand f o p s).script = s.script := rfl
@[simp] theorem holdCommand_randIn : (holdCommand f o p s).randIn = p.rand := rfl
@[simp] theorem holdCommand_hashIn : (holdCommand f o p s).hashIn = p.hash := rfl
@[simp] theorem holdCommand_freeReads : (holdCommand f o p s).freeReads = s.freeReads := rfl
end holdCommand

end Sys2Proof.Machine
end

