-- ==== Sys2Proof/Laws/Ports.lean ====
section
/-! SUPPORT. What a part of a command's algorithm can do to the ports, said once: it takes answers from the front, adds
requests, raises only the errors of its rule, and given more answers it goes on from where it waited (`Tame`). And what
it does on given answers, composed part by part (`Runs`, `Raises`). -/

namespace Sys2Proof.Machine

variable {α β : Type}

/-! ### The parts of an algorithm, run -/

@[simp] theorem run_pure (a : α) (p : Ports) : (pure a : Engine α).run p = .ok a p := rfl

@[simp] theorem run_raise (e : ErrorKind) (info : Word) (p : Ports) :
    (raise e info : Engine α).run p = .error (.raise e info) p := rfl

@[simp] theorem run_never (p : Ports) : (never : Engine α).run p = .error .never p := rfl

theorem bind_ok {m : Engine α} {f : α → Engine β} {p q : Ports} {a : α} (h : m.run p = .ok a q) :
    (m >>= f).run p = (f a).run q := by
  simp [EStateM.run_bind, h]

theorem bind_error {m : Engine α} {f : α → Engine β} {p q : Ports} {e : Stop} (h : m.run p = .error e q) :
    (m >>= f).run p = .error e q := by
  simp [EStateM.run_bind, h]

/-! ### Ports that grow -/

/-- `q` is what a part of an algorithm may leave of the ports `p`. -/
structure Grows (p q : Ports) : Prop where
  oracle : q.oracle = p.oracle
  rand : ∃ taken, p.rand = taken ++ q.rand ∧ q.drawn = taken.reverse ++ p.drawn
  hash : ∃ n, p.hash = n + q.hash ∧ q.digests = p.digests + n
  sent : p.sent <:+ q.sent

theorem Grows.refl (p : Ports) : Grows p p :=
  ⟨rfl, ⟨[], by simp⟩, ⟨0, by simp⟩, List.suffix_refl _⟩

theorem Grows.trans {p q r : Ports} (h : Grows p q) (k : Grows q r) : Grows p r := by
  obtain ⟨a, ha, ha'⟩ := h.rand
  obtain ⟨b, hb, hb'⟩ := k.rand
  obtain ⟨m, hm, hm'⟩ := h.hash
  obtain ⟨n, hn, hn'⟩ := k.hash
  exact ⟨k.oracle.trans h.oracle, ⟨a ++ b, by simp [ha, hb], by simp [hb', ha']⟩, ⟨m + n, by omega, by omega⟩,
    h.sent.trans k.sent⟩

theorem Grows.rand_length {p q : Ports} (h : Grows p q) : q.rand.length ≤ p.rand.length := by
  obtain ⟨a, ha, -⟩ := h.rand
  simp [ha]

theorem Grows.drawn_length {p q : Ports} (h : Grows p q) : p.drawn.length ≤ q.drawn.length := by
  obtain ⟨a, -, ha⟩ := h.rand
  simp [ha]

theorem Grows.digests_le {p q : Ports} (h : Grows p q) : p.digests ≤ q.digests := by
  obtain ⟨n, -, hn⟩ := h.hash
  omega

/-- The ports with more answers behind those that are ready. -/
def Ports.extend (p : Ports) (more : List Nat) (k : Nat) : Ports :=
  { p with rand := p.rand ++ more, hash := p.hash + k }

section extend
variable (p : Ports) (more : List Nat) (k : Nat)
@[simp] theorem Ports.extend_oracle : (p.extend more k).oracle = p.oracle := rfl
@[simp] theorem Ports.extend_rand : (p.extend more k).rand = p.rand ++ more := rfl
@[simp] theorem Ports.extend_hash : (p.extend more k).hash = p.hash + k := rfl
@[simp] theorem Ports.extend_drawn : (p.extend more k).drawn = p.drawn := rfl
@[simp] theorem Ports.extend_digests : (p.extend more k).digests = p.digests := rfl
@[simp] theorem Ports.extend_sent : (p.extend more k).sent = p.sent := rfl
end extend

/-- A request for the hash oracle. -/
def Request.isHash (r : Request) : Bool :=
  match r with
  | .hash _ => true
  | .randBits _ => false
  | .randRange _ _ => false

@[simp] theorem portsAfter_ok (a : α) (p : Ports) : portsAfter (.ok a p) = p := rfl
@[simp] theorem portsAfter_error (e : Stop) (p : Ports) : portsAfter (α := α) (.error e p) = p := rfl

/-- The random source answered out of range. -/
def IsBadAnswer (r : EStateM.Result Stop Ports α) : Prop := ∃ q v p, r = .error (.badAnswer q v) p

/-- `r'` is how a part that ended in `r` ends when `more` random answers and `k` digests are ready in addition: the same,
but where it waited and the awaited answer is now there it has gone on. -/
def Extends (r r' : EStateM.Result Stop Ports α) (more : List Nat) (k : Nat) : Prop :=
  match r with
  | .ok a q => r' = .ok a (q.extend more k)
  | .error (.wait req) q =>
    if req.isHash then
      q.hash = 0 ∧ (k = 0 → r' = .error (.wait req) (q.extend more k)) ∧
        (k ≠ 0 → q.sent <:+ (portsAfter r').sent ∧ q.digests < (portsAfter r').digests)
    else
      q.rand = [] ∧ (more = [] → r' = .error (.wait req) (q.extend more k)) ∧
        (more ≠ [] → q.sent <:+ (portsAfter r').sent ∧
          (q.drawn.length < (portsAfter r').drawn.length ∨ IsBadAnswer r'))
  | .error e q => r' = .error e (q.extend more k)

/-- Everything a part of an algorithm can do, whatever its result; `E` are the errors it may raise. -/
structure Tame (E : ErrorKind → Word → Prop) (m : Engine α) : Prop where
  grows : ∀ p, Grows p (portsAfter (m.run p))
  raises : ∀ p e info q, m.run p = .error (.raise e info) q → E e info
  extends_ : ∀ p more k, Extends (m.run p) (m.run (p.extend more k)) more k

/-- No error at all. -/
def NoError (_e : ErrorKind) (_info : Word) : Prop := False

theorem Tame.mono {E F : ErrorKind → Word → Prop} {m : Engine α} (h : Tame E m) (hEF : ∀ e i, E e i → F e i) :
    Tame F m :=
  ⟨h.grows, fun p e i q hm => hEF e i (h.raises p e i q hm), h.extends_⟩

/-- A part that waits has used up the answers of the port it waits on (R75, R80). -/
theorem Tame.wait_empty {E : ErrorKind → Word → Prop} {m : Engine α} (h : Tame E m) {p q : Ports} {r : Request}
    (hm : m.run p = .error (.wait r) q) : if r.isHash then q.hash = 0 else q.rand = [] := by
  have := h.extends_ p [] 0
  rw [hm] at this
  unfold Extends at this
  dsimp only at this
  split at this
  · rw [if_pos ‹_›]; exact this.1
  · rw [if_neg ‹_›]; exact this.1

theorem tame_pure {E : ErrorKind → Word → Prop} (a : α) : Tame E (pure a : Engine α) :=
  ⟨fun p => Grows.refl p, fun _ _ _ _ h => by simp at h, fun _ _ _ => rfl⟩

theorem tame_raise {E : ErrorKind → Word → Prop} {e : ErrorKind} {info : Word} (h : E e info) :
    Tame E (raise e info : Engine α) := by
  refine ⟨fun p => Grows.refl p, fun p e' i' q hm => ?_, fun _ _ _ => rfl⟩
  simp only [run_raise, EStateM.Result.error.injEq, Stop.raise.injEq] at hm
  rw [← hm.1.1, ← hm.1.2]
  exact h

theorem tame_never {E : ErrorKind → Word → Prop} : Tame E (never : Engine α) :=
  ⟨fun p => Grows.refl p, fun _ _ _ _ h => by simp at h,
    fun _ _ _ => rfl⟩

theorem extends_error_of_not_wait {r' : EStateM.Result Stop Ports α} {e : Stop} {q : Ports} {more : List Nat} {k : Nat}
    (he : ∀ r, e ≠ .wait r) (h : Extends (.error e q) r' more k) : r' = .error e (q.extend more k) := by
  cases e with
  | wait r => exact absurd rfl (he r)
  | _ => exact h

theorem tame_bind {E : ErrorKind → Word → Prop} {m : Engine α} {f : α → Engine β} (hm : Tame E m)
    (hf : ∀ a, Tame E (f a)) : Tame E (m >>= f) := by
  refine ⟨fun p => ?_, fun p e i q h => ?_, fun p more k => ?_⟩
  · cases hp : m.run p with
    | ok a q =>
      rw [bind_ok hp]
      exact (by simpa [hp] using hm.grows p : Grows p q).trans ((hf a).grows q)
    | error e q =>
      rw [bind_error hp]
      simpa [hp] using hm.grows p
  · cases hp : m.run p with
    | ok a q' =>
      rw [bind_ok hp] at h
      exact (hf a).raises _ _ _ _ h
    | error e' q' =>
      rw [bind_error hp] at h
      cases h
      exact hm.raises _ _ _ _ hp
  · have hx : Extends (m.run p) (m.run (p.extend more k)) more k := hm.extends_ p more k
    cases hp : m.run p with
    | ok a q =>
      rw [hp] at hx
      rw [bind_ok hp, bind_ok hx]
      exact (hf a).extends_ q more k
    | error e q =>
      rw [hp] at hx
      rw [bind_error hp]
      cases e with
      | wait req =>
        -- what `m` did after the awaited answer, followed by `f`
        have after : ∀ r', m.run (p.extend more k) = r' → portsAfter r' = portsAfter r' →
            (portsAfter r').sent <:+ (portsAfter ((m >>= f).run (p.extend more k))).sent ∧
            (portsAfter r').drawn.length ≤ (portsAfter ((m >>= f).run (p.extend more k))).drawn.length ∧
            (portsAfter r').digests ≤ (portsAfter ((m >>= f).run (p.extend more k))).digests ∧
            (IsBadAnswer r' → IsBadAnswer ((m >>= f).run (p.extend more k))) := by
          intro r' hr' _
          cases r' with
          | ok a q' =>
            rw [bind_ok hr']
            have g := (hf a).grows q'
            exact ⟨g.sent, g.drawn_length, g.digests_le, fun ⟨_, _, _, hb⟩ => by cases hb⟩
          | error e' q' =>
            rw [bind_error hr']
            exact ⟨List.suffix_refl _, le_refl _, le_refl _, fun ⟨r, v, p', hb⟩ => by cases hb; exact ⟨r, v, _, rfl⟩⟩
        obtain ⟨a1, a2, a3, a4⟩ := after _ rfl rfl
        simp only [Extends] at hx ⊢
        split at hx
        · rename_i hh
          simp only [hh, if_true]
          refine ⟨hx.1, fun h0 => bind_error (hx.2.1 h0), fun h0 => ?_⟩
          obtain ⟨b1, b2⟩ := hx.2.2 h0
          exact ⟨b1.trans a1, by omega⟩
        · rename_i hh
          simp only [hh]
          refine ⟨hx.1, fun h0 => bind_error (hx.2.1 h0), fun h0 => ?_⟩
          obtain ⟨b1, b2⟩ := hx.2.2 h0
          exact ⟨b1.trans a1, b2.elim (fun b => .inl (by omega)) (fun b => .inr (a4 b))⟩
      | raise e' i' => exact bind_error (extends_error_of_not_wait (by simp) hx)
      | never => exact bind_error (extends_error_of_not_wait (by simp) hx)
      | badAnswer r v => exact bind_error (extends_error_of_not_wait (by simp) hx)

theorem tame_ite {E : ErrorKind → Word → Prop} {c : Prop} [Decidable c] {m n : Engine α} (hm : Tame E m)
    (hn : Tame E n) : Tame E (if c then m else n) := by
  split <;> assumption

theorem draw_nil {r : Request} {range : Nat → Bool} {p : Ports} (h : p.rand = []) :
    (draw r range).run p = .error (.wait r) { p with sent := r :: p.sent } := by
  simp [draw, EStateM.run, h]

theorem draw_good {r : Request} {range : Nat → Bool} {p : Ports} {v : Nat} {rest : List Nat} (h : p.rand = v :: rest)
    (hv : range v = true) :
    (draw r range).run p = .ok v { p with rand := rest, drawn := v :: p.drawn, sent := r :: p.sent } := by
  simp [draw, EStateM.run, h, hv]

theorem draw_bad {r : Request} {range : Nat → Bool} {p : Ports} {v : Nat} {rest : List Nat} (h : p.rand = v :: rest)
    (hv : range v = false) : (draw r range).run p = .error (.badAnswer r v) { p with sent := r :: p.sent } := by
  simp [draw, EStateM.run, h, hv]

theorem tame_draw {E : ErrorKind → Word → Prop} {r : Request} {range : Nat → Bool} (hr : r.isHash = false) :
    Tame E (draw r range) := by
  refine ⟨fun p => ?_, fun p e i q h => ?_, fun p more k => ?_⟩
  · cases hp : p.rand with
    | nil => rw [draw_nil hp]; exact ⟨rfl, ⟨[], by simp⟩, ⟨0, by simp⟩, List.suffix_cons _ _⟩
    | cons v rest =>
      cases hv : range v with
      | true => rw [draw_good hp hv]; exact ⟨rfl, ⟨[v], by simp [hp]⟩, ⟨0, by simp⟩, List.suffix_cons _ _⟩
      | false => rw [draw_bad hp hv]; exact ⟨rfl, ⟨[], by simp⟩, ⟨0, by simp⟩, List.suffix_cons _ _⟩
  · cases hp : p.rand with
    | nil => rw [draw_nil hp] at h; cases h
    | cons v rest =>
      cases hv : range v with
      | true => rw [draw_good hp hv] at h; cases h
      | false => rw [draw_bad hp hv] at h; cases h
  · cases hp : p.rand with
    | nil =>
      rw [draw_nil hp]
      simp only [Extends, hr]
      refine ⟨hp, fun hm => ?_, fun hm => ?_⟩
      · rw [draw_nil (by simp [hp, hm])]; rfl
      · obtain ⟨v, rest, rfl⟩ := List.exists_cons_of_ne_nil hm
        cases hv : range v with
        | true => rw [draw_good (rest := rest) (by simp [hp]) hv]; exact ⟨List.suffix_refl _, .inl (by simp)⟩
        | false => rw [draw_bad (rest := rest) (by simp [hp]) hv]; exact ⟨List.suffix_refl _, .inr ⟨_, _, _, rfl⟩⟩
    | cons v rest =>
      cases hv : range v with
      | true => rw [draw_good hp hv, draw_good (rest := rest ++ more) (by simp [hp]) hv]; rfl
      | false => rw [draw_bad hp hv, draw_bad (rest := rest ++ more) (by simp [hp]) hv]; rfl

theorem tame_randBits {E : ErrorKind → Word → Prop} (k : Nat) : Tame E (randBits k) := tame_draw rfl

theorem tame_randRange {E : ErrorKind → Word → Prop} (lo hi : Nat) : Tame E (randRange lo hi) := tame_draw rfl

theorem tame_randDirection {E : ErrorKind → Word → Prop} : Tame E randDirection :=
  tame_bind (tame_randBits 1) fun _ => tame_pure _

theorem hashRequest_zero {msg : List Byte} {p : Ports} (h : p.hash = 0) :
    (hashRequest msg).run p = .error (.wait (.hash msg)) { p with sent := .hash msg :: p.sent } := by
  simp [hashRequest, EStateM.run, h]

theorem hashRequest_succ {msg : List Byte} {p : Ports} {n : Nat} (h : p.hash = n + 1) :
    (hashRequest msg).run p =
      .ok (p.oracle msg) { p with hash := n, digests := p.digests + 1, sent := .hash msg :: p.sent } := by
  simp [hashRequest, EStateM.run, h]

theorem tame_hashRequest {E : ErrorKind → Word → Prop} (msg : List Byte) : Tame E (hashRequest msg) := by
  refine ⟨fun p => ?_, fun p e i q h => ?_, fun p more k => ?_⟩
  · cases hp : p.hash with
    | zero => rw [hashRequest_zero hp]; exact ⟨rfl, ⟨[], by simp⟩, ⟨0, by simp⟩, List.suffix_cons _ _⟩
    | succ n => rw [hashRequest_succ hp]; exact ⟨rfl, ⟨[], by simp⟩, ⟨1, by rw [hp]; exact Nat.add_comm n 1, rfl⟩, List.suffix_cons _ _⟩
  · cases hp : p.hash with
    | zero => rw [hashRequest_zero hp] at h; cases h
    | succ n => rw [hashRequest_succ hp] at h; cases h
  · cases hp : p.hash with
    | zero =>
      rw [hashRequest_zero hp]
      simp only [Extends, Request.isHash, if_true]
      refine ⟨hp, fun hk => ?_, fun hk => ?_⟩
      · rw [hashRequest_zero (by simp [hp, hk])]; rfl
      · obtain ⟨n, rfl⟩ := Nat.exists_eq_succ_of_ne_zero hk
        rw [hashRequest_succ (n := n) (by simp [hp])]
        exact ⟨List.suffix_refl _, by simp⟩
    | succ n =>
      rw [hashRequest_succ hp, hashRequest_succ (n := n + k) (by simp [hp]; omega)]
      rfl

theorem tame_hashInt {E : ErrorKind → Word → Prop} (v S : Nat) : Tame E (hashInt v S) :=
  tame_bind (tame_hashRequest _) fun _ => tame_pure _

/-- An unbounded loop whose rounds each take an answer does not depend on how many rounds it is allowed, once they are
more than the answers; then it is tame. -/
theorem tame_whileAnswered {E : ErrorKind → Word → Prop} {loop : Nat → Engine α} (hl : ∀ fuel, Tame E (loop fuel))
    (hfuel : ∀ p fuel, p.rand.length < fuel → (loop fuel).run p = (loop (p.rand.length + 1)).run p) :
    Tame E (whileAnswered loop) := by
  refine ⟨fun p => (hl _).grows p, fun p e i q h => (hl _).raises p e i q h, fun p more k => ?_⟩
  have h := (hl ((p.extend more k).rand.length + 1)).extends_ p more k
  rw [hfuel p _ (by simp only [Ports.extend_rand, List.length_append]; omega)] at h
  exact h

/-! ### Trimming: a run takes exactly the answers it has taken -/

/-- A run that did not meet a bad answer sends the same requests on the answers it took alone. -/
theorem Tame.trim {E : ErrorKind → Word → Prop} {m : Engine α} (hm : Tame E m) {p : Ports} (hd : p.drawn = [])
    (hg : p.digests = 0) (hbad : ¬IsBadAnswer (m.run p)) :
    (portsAfter (m.run { p with rand := (portsAfter (m.run p)).drawn.reverse, hash := (portsAfter (m.run p)).digests })).sent
      = (portsAfter (m.run p)).sent := by
  generalize hq : portsAfter (m.run p) = q
  have g : Grows p q := hq ▸ hm.grows p
  obtain ⟨taken, ht, ht'⟩ := g.rand
  obtain ⟨n, hn, hn'⟩ := g.hash
  simp only [hd, List.append_nil] at ht'
  simp only [hg, Nat.zero_add] at hn'
  rw [ht', List.reverse_reverse, hn']
  generalize hp0 : ({ p with rand := taken, hash := n } : Ports) = p0
  have hp : p = p0.extend q.rand q.hash := by subst hp0; cases p; simp_all [Ports.extend]
  have hx := hm.extends_ p0 q.rand q.hash
  rw [← hp] at hx
  have g0 := hm.grows p0
  have lens : (portsAfter (m.run p0)).rand = [] → (portsAfter (m.run p0)).drawn.length = taken.length := by
    intro h
    obtain ⟨a, ha, ha'⟩ := g0.rand
    have hat : a = taken := by rw [h] at ha; subst hp0; simpa using ha.symm
    have hd0 : p0.drawn = [] := by subst hp0; exact hd
    simp [ha', hat, hd0]
  have cnt : (portsAfter (m.run p0)).hash = 0 → (portsAfter (m.run p0)).digests = n := by
    intro h
    obtain ⟨a, ha, ha'⟩ := g0.hash
    have h1 : p0.hash = n := by subst hp0; rfl
    have h2 : p0.digests = 0 := by subst hp0; exact hg
    omega
  cases h0 : m.run p0 with
  | ok a q0 =>
    rw [h0] at hx
    have : m.run p = .ok a (q0.extend q.rand q.hash) := hx
    rw [this] at hq
    rw [← hq]; rfl
  | error e q0 =>
    rw [h0] at hx lens cnt
    cases e with
    | wait req =>
      simp only [Extends] at hx
      split at hx
      · by_cases hk : q.hash = 0
        · rw [hx.2.1 hk] at hq
          rw [← hq]; rfl
        · have := (hx.2.2 hk).2
          rw [hq, hn'] at this
          have := cnt hx.1
          simp only [portsAfter_error] at this
          omega
      · by_cases hk : q.rand = []
        · rw [hx.2.1 hk] at hq
          rw [← hq]; rfl
        · rcases (hx.2.2 hk).2 with h | h
          · rw [hq, ht'] at h
            have := lens hx.1
            simp only [portsAfter_error, List.length_reverse] at this h
            omega
          · exact absurd h hbad
    | raise e' i' =>
      rw [extends_error_of_not_wait (by simp) hx] at hq
      rw [← hq]; rfl
    | never =>
      rw [extends_error_of_not_wait (by simp) hx] at hq
      rw [← hq]; rfl
    | badAnswer r v =>
      rw [extends_error_of_not_wait (by simp) hx] at hq
      rw [← hq]; rfl

/-! ### Runs on given answers -/

/-- The ports with the given answers in front of those that are ready. -/
def Ports.feed (p : Ports) (draws : List Nat) (digests : Nat) : Ports :=
  { p with rand := draws ++ p.rand, hash := digests + p.hash }

/-- The ports after the given answers have been taken and the given requests sent. -/
def Ports.take (p : Ports) (draws : List Nat) (digests : Nat) (sent : List Request) : Ports :=
  { p with drawn := draws.reverse ++ p.drawn, digests := p.digests + digests, sent := sent.reverse ++ p.sent }

@[simp] theorem Ports.feed_nil (p : Ports) : p.feed [] 0 = p := by simp [Ports.feed]
@[simp] theorem Ports.take_nil (p : Ports) : p.take [] 0 [] = p := by simp [Ports.take]

theorem Ports.feed_feed (p : Ports) (a b : List Nat) (m n : Nat) : (p.feed b n).feed a m = p.feed (a ++ b) (m + n) := by
  simp [Ports.feed, Nat.add_assoc]

theorem Ports.take_take (p : Ports) (a b : List Nat) (m n : Nat) (s t : List Request) :
    (p.take a m s).take b n t = p.take (a ++ b) (m + n) (s ++ t) := by
  simp [Ports.take, Nat.add_assoc]

theorem Ports.take_feed (p : Ports) (a b : List Nat) (m n : Nat) (s : List Request) :
    (p.feed b n).take a m s = (p.take a m s).feed b n := by
  simp [Ports.feed, Ports.take]

@[simp] theorem Ports.take_rand (p : Ports) (a : List Nat) (m : Nat) (s : List Request) : (p.take a m s).rand = p.rand := rfl

/-- On exactly these answers of the ports with oracle `o` the part ends with `a`, having sent these requests. -/
def Runs (o : Oracle) (m : Engine α) (draws : List Nat) (digests : Nat)
    (sent : List Request) (a : α) : Prop :=
  ∀ p : Ports, p.oracle = o → m.run (p.feed draws digests) = .ok a (p.take draws digests sent)

/-- On exactly these answers the part raises this error, having sent these requests. -/
def Raises (o : Oracle) (m : Engine α) (draws : List Nat) (digests : Nat)
    (sent : List Request) (e : ErrorKind) (info : Word) : Prop :=
  ∀ p : Ports, p.oracle = o → m.run (p.feed draws digests) = .error (.raise e info) (p.take draws digests sent)

variable {o : Oracle}

theorem runs_pure (a : α) : Runs o (pure a) [] 0 [] a := fun p _ => by simp

theorem raises_raise (e : ErrorKind) (info : Word) : Raises o (raise e info : Engine α) [] 0 [] e info := fun p _ => by
  simp

/-- The same run with its answers and requests written otherwise. -/
theorem Runs.eq {m : Engine α} {d d' : List Nat} {h h' : Nat} {s s' : List Request} {a : α} (hm : Runs o m d h s a)
    (hd : d = d') (hh : h = h') (hs : s = s') : Runs o m d' h' s' a := by
  subst hd hh hs
  exact hm

theorem Raises.eq {m : Engine α} {d d' : List Nat} {h h' : Nat} {s s' : List Request} {e : ErrorKind} {info : Word}
    (hm : Raises o m d h s e info) (hd : d = d') (hh : h = h') (hs : s = s') : Raises o m d' h' s' e info := by
  subst hd hh hs
  exact hm

theorem Runs.bind {m : Engine α} {f : α → Engine β} {d1 d2 : List Nat} {h1 h2 : Nat} {s1 s2 : List Request} {a : α}
    {b : β} (hm : Runs o m d1 h1 s1 a) (hf : Runs o (f a) d2 h2 s2 b) :
    Runs o (m >>= f) (d1 ++ d2) (h1 + h2) (s1 ++ s2) b := fun p hp => by
  rw [← Ports.feed_feed, bind_ok (hm (p.feed d2 h2) hp), Ports.take_feed, hf (p.take d1 h1 s1) hp, Ports.take_take]

theorem Runs.bind_raises {m : Engine α} {f : α → Engine β} {d1 d2 : List Nat} {h1 h2 : Nat} {s1 s2 : List Request}
    {a : α} {e : ErrorKind} {info : Word} (hm : Runs o m d1 h1 s1 a) (hf : Raises o (f a) d2 h2 s2 e info) :
    Raises o (m >>= f) (d1 ++ d2) (h1 + h2) (s1 ++ s2) e info := fun p hp => by
  rw [← Ports.feed_feed, bind_ok (hm (p.feed d2 h2) hp), Ports.take_feed, hf (p.take d1 h1 s1) hp, Ports.take_take]

theorem Raises.bind {m : Engine α} {f : α → Engine β} {d : List Nat} {h : Nat} {s : List Request} {e : ErrorKind}
    {info : Word} (hm : Raises o m d h s e info) : Raises o (m >>= f) d h s e info := fun p hp => bind_error (hm p hp)

/-- A run followed by a pure last part. -/
theorem Runs.map {m : Engine α} {f : α → β} {d : List Nat} {h : Nat} {s : List Request} {a : α} (hm : Runs o m d h s a) :
    Runs o (m >>= fun x => pure (f x)) d h s (f a) := by
  simpa using hm.bind (f := fun x => pure (f x)) (runs_pure (f a))

theorem runs_draw {r : Request} {range : Nat → Bool} {v : Nat} (hv : range v = true) :
    Runs o (draw r range) [v] 0 [r] v := fun p _ => by
  rw [draw_good (rest := p.rand) (by simp [Ports.feed]) hv]
  simp [Ports.feed, Ports.take]

theorem runs_randBits {k v : Nat} (hv : v < 2 ^ k) : Runs o (randBits k) [v] 0 [.randBits k] v :=
  runs_draw (by simpa using hv)

theorem runs_randRange {lo hi v : Nat} (h1 : lo ≤ v) (h2 : v ≤ hi) :
    Runs o (randRange lo hi) [v] 0 [.randRange lo hi] v :=
  runs_draw (by simp [h1, h2])

theorem runs_randDirection {d : Nat} (hd : d < 2) : Runs o randDirection [d] 0 [.randBits 1] (d == 1) :=
  (runs_randBits (by simpa using hd)).map

theorem runs_hashRequest (msg : List Byte) : Runs o (hashRequest msg) [] 1 [.hash msg] (o msg) := fun p hp => by
  rw [hashRequest_succ (n := p.hash) (by simp [Ports.feed, Nat.add_comm])]
  simp [Ports.feed, Ports.take, hp]

theorem runs_hashInt (o : Oracle) (v S : Nat) :
    Runs o (hashInt v S) [] 1 [.hash (hashMessage v S)] (hashOf o v S) := by
  rw [hashOf_eq, hashMessage_eq]
  exact (runs_hashRequest (o := o) _).map

/-- An unbounded loop: the rounds it is allowed are more than the answers it is given. -/
theorem Runs.whileAnswered {loop : Nat → Engine α} {d : List Nat} {h : Nat} {s : List Request} {a : α}
    (hl : ∀ fuel, d.length < fuel → Runs o (loop fuel) d h s a) : Runs o (whileAnswered loop) d h s a := fun p hp =>
  hl _ (by simp [Ports.feed]) p hp

end Sys2Proof.Machine
end

