-- ==== Sys2Proof/Laws/Algorithms.lean ====
section
/-! SUPPORT. Every algorithm of the spec is tame, with the errors its rule names (R261, R262), and what the result of
each command can be (R23, R35). -/

namespace Sys2Proof.Machine

variable {α β : Type} {E : ErrorKind → Word → Prop}

/-! ### Taking a run apart -/

theorem bind_ok_inv {m : Engine α} {f : α → Engine β} {p q : Ports} {b : β} (h : (m >>= f).run p = .ok b q) :
    ∃ a p', m.run p = .ok a p' ∧ (f a).run p' = .ok b q := by
  cases hm : m.run p with
  | ok a p' => rw [bind_ok hm] at h; exact ⟨a, p', rfl, h⟩
  | error e p' => rw [bind_error hm] at h; cases h

theorem bind_congr_run {m : Engine α} {f g : α → Engine β} {p : Ports}
    (h : ∀ a q, m.run p = .ok a q → (f a).run q = (g a).run q) : (m >>= f).run p = (m >>= g).run p := by
  cases hm : m.run p with
  | ok a q => rw [bind_ok hm, bind_ok hm]; exact h a q hm
  | error e q => rw [bind_error hm, bind_error hm]

theorem draw_consumes {r : Request} {range : Nat → Bool} {p q : Ports} {v : Nat} (h : (draw r range).run p = .ok v q) :
    q.rand.length < p.rand.length ∧ range v = true := by
  cases hp : p.rand with
  | nil => rw [draw_nil hp] at h; cases h
  | cons w rest =>
    cases hw : range w with
    | true => rw [draw_good hp hw] at h; cases h; exact ⟨by simp, hw⟩
    | false => rw [draw_bad hp hw] at h; cases h

theorem Tame.rand_le {m : Engine α} (hm : Tame E m) {p q : Ports} {a : α} (h : m.run p = .ok a q) :
    q.rand.length ≤ p.rand.length := by
  simpa [h] using (hm.grows p).rand_length

/-! ### Primality -/

theorem mrRounds_tame (n d r k : Nat) : Tame E (mrRounds n d r k) := by
  induction k with
  | zero => exact tame_pure _
  | succ k ih => exact tame_bind (tame_randRange _ _) fun a => tame_ite ih (tame_pure _)

theorem isPrime_tame (n rounds : Nat) : Tame E (isPrime n rounds) := by
  unfold isPrime
  split
  · exact tame_pure _
  · exact tame_pure _
  · exact mrRounds_tame _ _ _ _

theorem nextPrimeWalk_tame (nbits rounds fuel n : Nat) (h : E .overflow 0#32) :
    Tame E (nextPrimeWalk nbits rounds fuel n) := by
  induction fuel generalizing n with
  | zero => exact tame_never
  | succ fuel ih =>
    exact tame_bind (isPrime_tame _ _) fun b => tame_ite (tame_pure _) (tame_ite (tame_raise h) (ih _))

/-! ### Prime generator -/

theorem randomPrimeSearch_tame (bits : Nat) (up : Bool) (fuel cand : Nat) :
    Tame E (randomPrimeSearch bits up fuel cand) := by
  induction fuel generalizing cand with
  | zero => exact tame_never
  | succ fuel ih => exact tame_bind (isPrime_tame _ _) fun b => tame_ite (tame_pure _) (ih _)

theorem randomPrime_tame (bits : Nat) : Tame E (randomPrime bits) :=
  tame_ite (tame_pure _) (tame_bind (tame_randBits _) fun _ => tame_bind tame_randDirection fun _ =>
    randomPrimeSearch_tame _ _ _ _)

theorem rangeCandidate_fuel (mn mx c f g : Nat) (p : Ports) (hf : p.rand.length < f) (hg : p.rand.length < g) :
    (rangeCandidate mn mx c f).run p = (rangeCandidate mn mx c g).run p := by
  induction f generalizing g p with
  | zero => omega
  | succ f ih =>
    obtain ⟨g, rfl⟩ : ∃ g', g = g' + 1 := ⟨g - 1, by omega⟩
    refine bind_congr_run fun u q hq => ?_
    have := (draw_consumes hq).1
    dsimp only
    split
    · rfl
    · exact ih g q (by omega) (by omega)

theorem rangeCandidate_tame (mn mx c : Nat) : Tame E (whileAnswered (rangeCandidate mn mx c)) := by
  refine tame_whileAnswered (fun fuel => ?_) fun p fuel h => rangeCandidate_fuel _ _ _ _ _ p h (by omega)
  induction fuel with
  | zero => exact tame_never
  | succ fuel ih => exact tame_bind (tame_randRange _ _) fun _ => tame_ite (tame_pure _) ih

theorem rangeSearch_tame (up : Bool) (mn mx c cand : Nat) (h : E .resourceExhausted 0#32) :
    Tame E (rangeSearch up mn mx c cand) := by
  induction c generalizing cand with
  | zero => exact tame_bind (isPrime_tame _ _) fun _ => tame_ite (tame_pure _) (tame_raise h)
  | succ c ih =>
    exact tame_bind (isPrime_tame _ _) fun _ => tame_ite (tame_pure _) (tame_ite (tame_raise h) (ih _))

theorem randomPrimeRange_tame (min max : Nat) (h : E .resourceExhausted 0#32) : Tame E (randomPrimeRange min max) :=
  tame_ite (tame_pure _) (tame_bind (rangeCandidate_tame _ _ _) fun _ => tame_bind tame_randDirection fun _ =>
    rangeSearch_tame _ _ _ _ _ h)

/-! ### Domain parameters -/

theorem deriveQ_tame (seed S N : Nat) : Tame E (deriveQ seed S N) := tame_bind (tame_hashInt _ _) fun _ => tame_pure _

theorem assembleW_tame (seed S offset n b left j W : Nat) : Tame E (assembleW seed S offset n b left j W) := by
  induction left generalizing j W with
  | zero => exact tame_pure _
  | succ left ih => exact tame_bind (tame_hashInt _ _) fun _ => ih _ _

theorem deriveP_tame (seed S offset L q : Nat) : Tame E (deriveP seed S offset L q) :=
  tame_bind (assembleW_tame _ _ _ _ _ _ _ _) fun _ => tame_pure _

theorem testCandidate_tame (pok : Nat × Bool) : Tame E (testCandidate pok) := tame_ite (isPrime_tame _ _) (tame_pure _)

theorem genpqInner_tame (seed S L q left offset : Nat) : Tame E (genpqInner seed S L q left offset) := by
  induction left generalizing offset with
  | zero => exact tame_pure _
  | succ left ih =>
    exact tame_bind (deriveP_tame _ _ _ _ _) fun pok =>
      tame_bind (testCandidate_tame pok) fun _ => tame_ite (tame_pure _) (ih _)

theorem genpqOuter_tame (L N S fuel : Nat) : Tame E (genpqOuter L N S fuel) := by
  induction fuel with
  | zero => exact tame_never
  | succ fuel ih =>
    refine tame_bind (tame_randBits _) fun seed => tame_bind (deriveQ_tame _ _ _) fun q =>
      tame_bind (isPrime_tame _ _) fun ok => tame_ite (tame_bind (genpqInner_tame _ _ _ _ _ _) fun found => ?_) ih
    cases found with
    | some p => exact tame_pure _
    | none => exact ih

theorem genpqOuter_fuel (L N S f g : Nat) (p : Ports) (hf : p.rand.length < f) (hg : p.rand.length < g) :
    (genpqOuter L N S f).run p = (genpqOuter L N S g).run p := by
  induction f generalizing g p with
  | zero => omega
  | succ f ih =>
    obtain ⟨g, rfl⟩ : ∃ g', g = g' + 1 := ⟨g - 1, by omega⟩
    refine bind_congr_run fun seed p1 h1 => bind_congr_run fun q p2 h2 => bind_congr_run fun ok p3 h3 => ?_
    have l1 := (draw_consumes h1).1
    have l2 := (deriveQ_tame (E := NoError) _ _ _).rand_le h2
    have l3 := (isPrime_tame (E := NoError) _ _).rand_le h3
    split
    · refine bind_congr_run fun found p4 h4 => ?_
      have l4 := (genpqInner_tame (E := NoError) _ _ _ _ _ _).rand_le h4
      cases found with
      | some p => rfl
      | none => exact ih g p4 (by omega) (by omega)
    · exact ih g p3 (by omega) (by omega)

theorem generatorWalk_tame (p e : Nat) (up : Bool) (fuel h : Nat) : Tame E (generatorWalk p e up fuel h) := by
  induction fuel generalizing h with
  | zero => exact tame_never
  | succ fuel ih => exact tame_ite (tame_pure _) (ih _)

theorem generateG_tame (p q : Nat) : Tame E (generateG p q) :=
  tame_bind (tame_randRange _ _) fun _ => tame_bind tame_randDirection fun _ => generatorWalk_tame _ _ _ _ _

/-! ### Alternative generator -/

theorem pgTries_tame (L prime1 left : Nat) : Tame E (pgTries L prime1 left) := by
  induction left with
  | zero => exact tame_pure _
  | succ left ih =>
    exact tame_bind (randomPrime_tame _) fun _ => tame_bind (isPrime_tame _ _) fun _ => tame_ite (tame_pure _) ih

theorem pgSearch_tame (L fuel : Nat) : Tame E (pgSearch L fuel) := by
  induction fuel with
  | zero => exact tame_never
  | succ fuel ih =>
    refine tame_bind (randomPrime_tame _) fun prime1 => tame_bind (pgTries_tame _ _ _) fun found => ?_
    cases found with
    | some c => exact tame_pure _
    | none => exact ih

theorem randomPrime_consumes {bits : Nat} (hb : bits ≠ 1) {p q : Ports} {a : Nat}
    (h : (randomPrime bits).run p = .ok a q) : q.rand.length < p.rand.length := by
  rw [randomPrime, if_neg hb] at h
  obtain ⟨v, p1, h1, h⟩ := bind_ok_inv h
  obtain ⟨up, p2, h2, h⟩ := bind_ok_inv h
  have l1 := (draw_consumes h1).1
  have l2 := (tame_randDirection (E := NoError)).rand_le h2
  have l3 := (randomPrimeSearch_tame (E := NoError) _ _ _ _).rand_le h
  omega

theorem pgSearch_fuel (L f g : Nat) (hL : L / 2 ≠ 1) (p : Ports) (hf : p.rand.length < f) (hg : p.rand.length < g) :
    (pgSearch L f).run p = (pgSearch L g).run p := by
  induction f generalizing g p with
  | zero => omega
  | succ f ih =>
    obtain ⟨g, rfl⟩ : ∃ g', g = g' + 1 := ⟨g - 1, by omega⟩
    refine bind_congr_run fun prime1 p1 h1 => bind_congr_run fun found p2 h2 => ?_
    have l1 := randomPrime_consumes hL h1
    have l2 := (pgTries_tame (E := NoError) _ _ _).rand_le h2
    cases found with
    | some c => rfl
    | none => exact ih g p2 (by omega) (by omega)

theorem pgWalk_tame (c : PgPrime) (fuel g : Nat) : Tame E (pgWalk c fuel g) := by
  induction fuel generalizing g with
  | zero => exact tame_never
  | succ fuel ih => exact tame_ite (tame_pure _) (ih _)

/-! ### The commands -/

/-- The errors a command may raise (R261, R262). -/
def MayRaise (i : Instr) (e : ErrorKind) (info : Word) : Prop :=
  match i with
  | .nextprime => e = .overflow ∧ info = 0#32
  | .rndprime => e = .invalidParameters ∧ info ∈ [6#32, 7#32]
  | .rndprimer => e = .resourceExhausted ∧ info = 0#32
  | .genpq => e = .invalidParameters ∧ info ∈ [1#32, 2#32, 3#32]
  | .geng => e = .invalidParameters ∧ info ∈ [9#32, 10#32]
  | .genpg => (e = .invalidParameters ∧ info ∈ [4#32, 5#32]) ∨ (e = .internalConsistency ∧ info = 0#32)
  | .powmod => e = .invalidParameters ∧ info = 8#32
  | .mrwit => e = .invalidParameters ∧ info ∈ [11#32, 12#32]
  | .seedq => e = .invalidParameters ∧ info ∈ [13#32, 14#32, 15#32]
  | .seedp => e = .invalidParameters ∧ info ∈ [13#32, 14#32, 16#32, 17#32]
  | .isprime | .verifyg | .sieve => False

/-- Every command's algorithm is tame, with the errors of its rule. -/
theorem bodyOf_tame (i : Instr) (s : State) : Tame (MayRaise i) (bodyOf i s) := by
  cases i with
  | isprime => exact tame_bind (isPrime_tame _ _) fun _ => tame_pure _
  | nextprime => exact tame_bind (nextPrimeWalk_tame _ _ _ _ ⟨rfl, rfl⟩) fun _ => tame_pure _
  | rndprime =>
    exact tame_ite (tame_raise (by simp [MayRaise])) (tame_ite (tame_raise (by simp [MayRaise]))
      (tame_bind (randomPrime_tame _) fun _ => tame_pure _))
  | rndprimer => exact tame_bind (randomPrimeRange_tame _ _ ⟨rfl, rfl⟩) fun _ => tame_pure _
  | genpq =>
    exact tame_ite (tame_raise (by simp [MayRaise])) (tame_ite (tame_raise (by simp [MayRaise]))
      (tame_ite (tame_raise (by simp [MayRaise]))
        (tame_bind (tame_whileAnswered (genpqOuter_tame _ _ _) fun p f h => genpqOuter_fuel _ _ _ _ _ p h (by omega))
          fun _ => tame_pure _)))
  | geng =>
    exact tame_ite (tame_raise (by simp [MayRaise])) (tame_ite (tame_raise (by simp [MayRaise]))
      (tame_bind (generateG_tame _ _) fun _ => tame_pure _))
  | verifyg => exact tame_pure _
  | genpg =>
    show Tame _ (bodyGenpg s)
    unfold bodyGenpg
    by_cases h : s.paramNat .bits < Config.PG_MIN_BITS
    · simp only [h, if_true]; exact tame_raise (by simp [MayRaise])
    · simp only [h, if_false]
      refine tame_ite (tame_raise (by simp [MayRaise])) (tame_bind ?_ fun c => tame_bind (tame_randRange _ _) fun b =>
        tame_bind (pgWalk_tame _ _ _) fun g => tame_ite (tame_raise (by simp [MayRaise])) (tame_pure _))
      refine tame_whileAnswered (pgSearch_tame _) fun p f hf => pgSearch_fuel _ _ _ ?_ p hf (by omega)
      simp only [Config.PG_MIN_BITS] at h
      omega
  | powmod => exact tame_ite (tame_raise (by simp [MayRaise])) (tame_pure _)
  | sieve => exact tame_pure _
  | mrwit =>
    exact tame_ite (tame_raise (by simp [MayRaise])) (tame_ite (tame_raise (by simp [MayRaise])) (tame_pure _))
  | seedq =>
    exact tame_ite (tame_raise (by simp [MayRaise])) (tame_ite (tame_raise (by simp [MayRaise]))
      (tame_ite (tame_raise (by simp [MayRaise])) (tame_bind (deriveQ_tame _ _ _) fun _ => tame_pure _)))
  | seedp =>
    exact tame_ite (tame_raise (by simp [MayRaise])) (tame_ite (tame_raise (by simp [MayRaise]))
      (tame_ite (tame_raise (by simp [MayRaise])) (tame_ite (tame_raise (by simp [MayRaise]))
        (tame_bind (deriveP_tame _ _ _ _ _) fun _ => tame_pure _))))

-- not proved by `rfl`, so that the kernel never unfolds a value while it checks a rewrite
@[simp] theorem resultReg_some (old v : Nat) : resultReg old (some v) = v := by simp [resultReg]
@[simp] theorem resultReg_none (old : Nat) : resultReg old none = old := by simp [resultReg]

/-- What a command's result may name (R23, R35): its own result registers and flags, and never both flags. -/
structure ResultOf (i : Instr) (r : Result) : Prop where
  x0 : (0 : Fin 4) ∉ resultRegisters i → r.x0 = none
  x1 : (1 : Fin 4) ∉ resultRegisters i → r.x1 = none
  x2 : (2 : Fin 4) ∉ resultRegisters i → r.x2 = none
  x3 : (3 : Fin 4) ∉ resultRegisters i → r.x3 = none
  res : r.res = true → writesRes i = true
  undec : r.undec = true → i = .sieve
  flags : ¬(r.res = true ∧ r.undec = true)

theorem pure_ok_inv {a b : α} {p q : Ports} (h : (pure a : Engine α).run p = .ok b q) : b = a := by
  rw [run_pure] at h
  cases h
  rfl

theorem ite_raise_inv {c : Prop} [Decidable c] {e : ErrorKind} {info : Word} {m : Engine α} {p q : Ports} {b : α}
    (h : (if c then raise e info else m).run p = .ok b q) : ¬c ∧ m.run p = .ok b q := by
  split at h
  · rw [run_raise] at h; cases h
  · exact ⟨‹_›, h⟩

theorem bodyOf_result (i : Instr) (s : State) {p q : Ports} {r : Result} (h : (bodyOf i s).run p = .ok r q) :
    ResultOf i r := by
  cases i with
  | isprime =>
    obtain ⟨b, p1, -, h⟩ := bind_ok_inv h
    rw [pure_ok_inv h]; constructor <;> simp [resultRegisters, writesRes]
  | nextprime =>
    obtain ⟨b, p1, -, h⟩ := bind_ok_inv h
    rw [pure_ok_inv h]; constructor <;> simp [resultRegisters]
  | rndprime =>
    obtain ⟨b, p1, -, h⟩ := bind_ok_inv (ite_raise_inv (ite_raise_inv h).2).2
    rw [pure_ok_inv h]; constructor <;> simp [resultRegisters]
  | rndprimer =>
    obtain ⟨b, p1, -, h⟩ := bind_ok_inv h
    rw [pure_ok_inv h]; constructor <;> simp [resultRegisters]
  | genpq =>
    obtain ⟨b, p1, -, h⟩ := bind_ok_inv (ite_raise_inv (ite_raise_inv (ite_raise_inv h).2).2).2
    rw [pure_ok_inv h]; constructor <;> simp [resultRegisters]
  | geng =>
    obtain ⟨b, p1, -, h⟩ := bind_ok_inv (ite_raise_inv (ite_raise_inv h).2).2
    rw [pure_ok_inv h]; constructor <;> simp [resultRegisters]
  | verifyg => rw [pure_ok_inv h]; constructor <;> simp [resultRegisters, writesRes]
  | genpg =>
    obtain ⟨b, p1, -, h⟩ := bind_ok_inv (ite_raise_inv (ite_raise_inv h).2).2
    obtain ⟨b, p2, -, h⟩ := bind_ok_inv h
    obtain ⟨b, p3, -, h⟩ := bind_ok_inv h
    rw [pure_ok_inv (ite_raise_inv h).2]; constructor <;> simp [resultRegisters]
  | powmod => rw [pure_ok_inv (ite_raise_inv h).2]; constructor <;> simp [resultRegisters]
  | sieve =>
    rw [pure_ok_inv h]
    cases hv : sieve (s.x 0) <;> constructor <;> simp [resultRegisters, writesRes]
  | mrwit =>
    rw [pure_ok_inv (ite_raise_inv (ite_raise_inv h).2).2]; constructor <;> simp [resultRegisters, writesRes]
  | seedq =>
    obtain ⟨b, p1, -, h⟩ := bind_ok_inv (ite_raise_inv (ite_raise_inv (ite_raise_inv h).2).2).2
    rw [pure_ok_inv h]; constructor <;> simp [resultRegisters]
  | seedp =>
    obtain ⟨b, p1, -, h⟩ := bind_ok_inv (ite_raise_inv (ite_raise_inv (ite_raise_inv (ite_raise_inv h).2).2).2).2
    rw [pure_ok_inv h]; constructor <;> simp [resultRegisters, writesRes]

end Sys2Proof.Machine
end

