-- ==== Sys2Proof/Laws/Arith.lean ====
section
/-! SUPPORT. The arithmetic of the engine is the mathematics the rules name: bit length (R5), modular exponentiation
(R124), decomposition (R142), the Miller–Rabin round (R146), the sieve (R140). -/

namespace Sys2Proof.Machine

/-! ### Bit length -/

theorem bitlen_le_iff {v k : Nat} : bitlen v ≤ k ↔ v < 2 ^ k := by
  unfold bitlen
  split
  · subst_vars; simp
  · rename_i h
    rw [Nat.succ_le_iff, Nat.log2_lt h]

theorem lt_bitlen_iff {v k : Nat} : k < bitlen v ↔ 2 ^ k ≤ v := by
  rw [← not_le, bitlen_le_iff, not_lt]

/-- For v > 0, k is the bit length exactly when 2^(k−1) ≤ v < 2^k (R5). -/
theorem bitlen_eq_iff {v k : Nat} (hk : 1 ≤ k) : bitlen v = k ↔ 2 ^ (k - 1) ≤ v ∧ v < 2 ^ k := by
  rw [← bitlen_le_iff, ← lt_bitlen_iff]
  omega

theorem bitlen_half {e fuel : Nat} (h : bitlen e ≤ fuel + 1) : bitlen (e / 2) ≤ fuel := by
  rw [bitlen_le_iff] at h ⊢
  rw [pow_succ] at h
  omega

/-! ### Modular exponentiation -/

theorem powModLoop_mod (m fuel r b e : Nat) (h : bitlen e ≤ fuel) :
    powModLoop m fuel r b e % m = r * b ^ e % m := by
  induction fuel generalizing r b e with
  | zero =>
    have : e = 0 := by rw [bitlen_le_iff] at h; omega
    simp [powModLoop, this]
  | succ fuel ih =>
    unfold powModLoop
    split
    · simp [*]
    · rw [ih _ _ _ (bitlen_half h)]
      have he : b ^ e = (b * b) ^ (e / 2) * b ^ (e % 2) := by
        rw [← pow_two, ← pow_mul, ← pow_add, Nat.div_add_mod]
      rw [Nat.mul_mod, ← Nat.pow_mod, he]
      split
      · rename_i h1
        rw [h1, Nat.mod_mod, ← Nat.mul_mod]
        ring_nf
      · rename_i h1
        rw [show e % 2 = 0 by omega, ← Nat.mul_mod]
        ring_nf

theorem powModLoop_lt {m fuel r b e : Nat} (hm : 0 < m) (hr : r < m) : powModLoop m fuel r b e < m := by
  induction fuel generalizing r b e with
  | zero => exact hr
  | succ fuel ih =>
    unfold powModLoop
    split
    · exact hr
    · split
      · exact ih (Nat.mod_lt _ hm)
      · exact ih hr

/-- The reference loop computes a^e mod m (R124). -/
theorem powMod_eq {a e m : Nat} (hm : 0 < m) : powMod a e m = a ^ e % m := by
  have h := powModLoop_mod m (bitlen e) (1 % m) (a % m) e le_rfl
  rw [Nat.mod_eq_of_lt (powModLoop_lt hm (Nat.mod_lt _ hm))] at h
  rw [powMod, h, Nat.mul_mod, Nat.mod_mod, ← Nat.pow_mod, ← Nat.mul_mod, one_mul]

theorem powMod_lt {a e m : Nat} (hm : 0 < m) : powMod a e m < m := by
  rw [powMod_eq hm]
  exact Nat.mod_lt _ hm

/-! ### Decomposition -/

theorem halveWhileEven_spec (fuel d r : Nat) (hd : 0 < d) (h : bitlen d ≤ fuel) :
    (halveWhileEven fuel d r).1 % 2 = 1 ∧
      (halveWhileEven fuel d r).1 * 2 ^ (halveWhileEven fuel d r).2 = d * 2 ^ r := by
  induction fuel generalizing d r with
  | zero => rw [bitlen_le_iff] at h; omega
  | succ fuel ih =>
    unfold halveWhileEven
    split
    · obtain ⟨h1, h2⟩ := ih (d / 2) (r + 1) (by omega) (bitlen_half h)
      refine ⟨h1, h2.trans ?_⟩
      rw [pow_succ, mul_comm (2 ^ r), ← mul_assoc, Nat.div_mul_cancel (by omega)]
    · exact ⟨by simp only; omega, rfl⟩

/-- n − 1 = d · 2^r with d odd (R142). -/
theorem decompose_spec {n : Nat} (hn : 2 ≤ n) :
    n - 1 = (decompose n).1 * 2 ^ (decompose n).2 ∧ (decompose n).1 % 2 = 1 := by
  obtain ⟨h1, h2⟩ := halveWhileEven_spec (bitlen (n - 1)) (n - 1) 0 (by omega) le_rfl
  rw [pow_zero, mul_one] at h2
  exact ⟨h2.symm, h1⟩

theorem odd_part_unique {d d' r r' : Nat} (hd : d % 2 = 1) (hd' : d' % 2 = 1) (h : d * 2 ^ r = d' * 2 ^ r') :
    d = d' ∧ r = r' := by
  induction r generalizing r' with
  | zero =>
    cases r' with
    | zero => simpa using h
    | succ r' => rw [pow_succ, ← mul_assoc] at h; omega
  | succ r ih =>
    cases r' with
    | zero => rw [pow_succ, ← mul_assoc] at h; omega
    | succ r' =>
      rw [pow_succ, pow_succ, ← mul_assoc, ← mul_assoc] at h
      obtain ⟨h1, h2⟩ := ih (Nat.eq_of_mul_eq_mul_right (by omega) h)
      exact ⟨h1, by omega⟩

/-- For odd n, r ≥ 1 (R142). -/
theorem decompose_r_pos {n : Nat} (hn : 2 ≤ n) (hodd : n % 2 = 1) : 1 ≤ (decompose n).2 := by
  obtain ⟨h1, h2⟩ := decompose_spec hn
  by_contra h
  rw [show (decompose n).2 = 0 by omega] at h1
  omega

/-! ### The Miller–Rabin round -/

theorem squarings_iff (n k x : Nat) : squarings n k x = true ↔ ∃ j, 1 ≤ j ∧ j ≤ k ∧ x ^ 2 ^ j % n = n - 1 := by
  induction k generalizing x with
  | zero => simp [squarings]
  | succ k ih =>
    unfold squarings
    split
    · rename_i h
      exact ⟨fun _ => ⟨1, le_rfl, by omega, by rw [pow_one, pow_two]; exact h⟩, fun _ => rfl⟩
    · rename_i h
      rw [ih]
      have hp : ∀ j, (x * x % n) ^ 2 ^ j % n = x ^ 2 ^ (j + 1) % n := fun j => by
        rw [← Nat.pow_mod, ← pow_two, ← pow_mul, pow_succ, mul_comm]
      constructor
      · rintro ⟨j, h1, h2, h3⟩
        exact ⟨j + 1, by omega, by omega, (hp j) ▸ h3⟩
      · rintro ⟨j, h1, h2, h3⟩
        obtain ⟨j, rfl⟩ : ∃ i, j = i + 1 := ⟨j - 1, by omega⟩
        refine ⟨j, ?_, by omega, (hp j).trans h3⟩
        rcases Nat.eq_zero_or_pos j with h0 | h0
        · subst h0; rw [zero_add, pow_one, pow_two] at h3; exact absurd h3 h
        · exact h0

/-- What a round decides (R146), for r ≥ 1. -/
theorem mrRound_iff {n d r a : Nat} (hn : 0 < n) (hr : 1 ≤ r) :
    mrRound n d r a = true ↔ a ^ d % n = 1 ∨ ∃ k, k < r ∧ a ^ (d * 2 ^ k) % n = n - 1 := by
  unfold mrRound
  simp only [powMod_eq hn]
  have hp : ∀ j, (a ^ d % n) ^ 2 ^ j % n = a ^ (d * 2 ^ j) % n := fun j => by rw [← Nat.pow_mod, ← pow_mul]
  split
  · rename_i h
    refine ⟨fun _ => h.imp_right fun h => ⟨0, by omega, by simpa using h⟩, fun _ => rfl⟩
  · rename_i h
    rw [squarings_iff]
    constructor
    · rintro ⟨j, h1, h2, h3⟩
      exact .inr ⟨j, by omega, (hp j) ▸ h3⟩
    · rintro (h1 | ⟨k, h1, h2⟩)
      · exact absurd (.inl h1) h
      · rcases Nat.eq_zero_or_pos k with h0 | h0
        · subst h0; exact absurd (.inr (by simpa using h2)) h
        · exact ⟨k, h0, by omega, (hp k).trans h2⟩

/-- The round with the decomposition of n decides `StrongPass`. -/
theorem mrRound_decompose {n a : Nat} (hn : 2 ≤ n) (hodd : n % 2 = 1) :
    mrRound n (decompose n).1 (decompose n).2 a = true ↔ StrongPass n a := by
  rw [mrRound_iff (by omega) (decompose_r_pos hn hodd)]
  obtain ⟨h1, h2⟩ := decompose_spec hn
  constructor
  · exact fun h => ⟨_, _, h1, h2, h⟩
  · rintro ⟨d, r, h3, h4, h5⟩
    obtain ⟨rfl, rfl⟩ := odd_part_unique h4 h2 (h3.symm.trans h1)
    exact h5

/-! ### The sieve -/

/-- `n` is at least 2 and no prime below 32 that is less than `n` divides it. -/
def noSmallFactor (n : Nat) : Bool :=
  Nat.ble 2 n && [2, 3, 5, 7, 11, 13, 17, 19, 23, 29, 31].all fun m => Nat.ble n m || !Nat.beq (n % m) 0

theorem table_eq_filter : smallPrimeTable = (List.range 1000).filter noSmallFactor := by
  decide +kernel

theorem small_prime_listed {m : Nat} (hp : m.Prime) (h : m < 32) : m ∈ [2, 3, 5, 7, 11, 13, 17, 19, 23, 29, 31] := by
  interval_cases m <;> first | decide | (exact absurd hp (by norm_num))

theorem noSmallFactor_iff {n : Nat} (h : n < 1000) : noSmallFactor n = true ↔ n.Prime := by
  unfold noSmallFactor
  rw [Bool.and_eq_true, List.all_eq_true, Nat.ble_eq]
  constructor
  · rintro ⟨h2, hall⟩
    by_contra hc
    have hp := Nat.minFac_prime (n := n) (by omega)
    have hsq := Nat.minFac_sq_le_self (by omega) hc
    have hd := Nat.minFac_dvd n
    have hlt := (Nat.not_prime_iff_minFac_lt h2).mp hc
    have hm := hall _ (small_prime_listed hp (by nlinarith))
    have h0 := Nat.mod_eq_zero_of_dvd hd
    simp [h0] at hm
    omega
  · intro hp
    refine ⟨hp.two_le, fun m hm => ?_⟩
    by_contra hc
    simp only [Bool.or_eq_true, Nat.ble_eq, Bool.not_eq_true', not_or, not_le] at hc
    have h2 : 2 ≤ m := by
      simp only [List.mem_cons, List.not_mem_nil, or_false] at hm; omega
    rcases (Nat.dvd_prime hp).mp (Nat.dvd_of_mod_eq_zero (by simpa using hc.2)) with h | h <;> omega

/-- T holds exactly the primes below 1000 (R40). -/
theorem mem_table_iff {n : Nat} : n ∈ smallPrimeTable ↔ n.Prime ∧ n < 1000 := by
  rw [table_eq_filter, List.mem_filter, List.mem_range]
  exact ⟨fun h => ⟨(noSmallFactor_iff h.1).mp h.2, h.1⟩, fun h => ⟨h.2, (noSmallFactor_iff h.2).mpr h.1⟩⟩

theorem sieveScan_spec (n : Nat) (ts : List Nat) (ht : ∀ t ∈ ts, t.Prime) :
    sieveScan n ts =
      if ∃ t ∈ ts, t ∣ n then (if n ∈ ts then .prime else .composite) else .undecided := by
  induction ts with
  | nil => simp [sieveScan]
  | cons t ts ih =>
    have ih := ih fun u hu => ht u (List.mem_cons_of_mem _ hu)
    have hp := ht t List.mem_cons_self
    unfold sieveScan
    by_cases h : n % t = 0
    · have hd : t ∣ n := Nat.dvd_of_mod_eq_zero h
      have hex : ∃ u ∈ t :: ts, u ∣ n := ⟨t, List.mem_cons_self, hd⟩
      simp only [h, hex, if_true]
      by_cases hn : n = t
      · simp [hn]
      · have : n ∉ ts := fun hm =>
          hn ((Nat.prime_dvd_prime_iff_eq hp (ht n (List.mem_cons_of_mem _ hm))).mp hd).symm
        simp [hn, this]
    · have hd : ¬t ∣ n := fun hd => h (Nat.mod_eq_zero_of_dvd hd)
      have hn : n ≠ t := fun hn => hd (hn ▸ dvd_rfl)
      rw [if_neg h, ih]
      simp [hd, hn]

theorem table_prime {t : Nat} (h : t ∈ smallPrimeTable) : t.Prime := (mem_table_iff.mp h).1

/-- The three verdicts (R140). -/
theorem sieve_spec (n : Nat) :
    (TableDecides n → sieve n = if n ∈ smallPrimeTable then .prime else .composite) ∧
      (¬TableDecides n → sieve n = .undecided) := by
  unfold sieve TableDecides
  by_cases h : n < 2
  · have : n ∉ smallPrimeTable := fun hm => by have := (table_prime hm).two_le; omega
    simp [h, this]
  · rw [if_neg h, sieveScan_spec _ _ fun t => table_prime]
    constructor
    · rintro (h' | h')
      · exact absurd h' h
      · rw [if_pos h']
    · intro h'
      rw [if_neg fun hc => h' (.inr hc)]

/-- `sieve(n) = UNDECIDED` implies n is odd and n ≥ 1009 (R140). -/
theorem undecided_facts {n : Nat} (h : ¬TableDecides n) : 1009 ≤ n ∧ n % 2 = 1 := by
  have h2 : 2 ≤ n := by by_contra hc; exact h (.inl (by omega))
  have hd : ∀ t, t.Prime → t < 1000 → ¬t ∣ n := fun t ht hlt hdvd => h (.inr ⟨t, mem_table_iff.mpr ⟨ht, hlt⟩, hdvd⟩)
  refine ⟨?_, ?_⟩
  · by_contra hc
    have hm := Nat.minFac_prime (n := n) (by omega)
    have hle := Nat.minFac_le (n := n) (by omega)
    by_cases hlt : n.minFac < 1000
    · exact hd _ hm hlt (Nat.minFac_dvd n)
    · have : ∀ k, 1000 ≤ k → k < 1009 → ¬k.Prime := by intro k h1 h2; interval_cases k <;> norm_num
      exact this _ (by omega) (by omega) hm
  · by_contra hc
    exact hd 2 Nat.prime_two (by omega) (Nat.dvd_of_mod_eq_zero (by omega))

end Sys2Proof.Machine
end

