-- ==== Sys2Proof/Laws/Bank.lean ====
section
/-! SUPPORT. Limbs (R63): reading after writing, and the value a register has (R24, R111). Register accessors. -/

namespace Sys2Proof.Machine

theorem testBit_of_limb (v j k : Nat) : (getLimb v j).getLsbD k = (decide (k < 32) && v.testBit (32 * j + k)) := by
  simp [getLimb, BitVec.getLsbD_ofNat, Nat.testBit_shiftRight]

/-- The bits of a value with a limb replaced (R63). -/
theorem testBit_setLimb (v j : Nat) (w : Word) (k : Nat) :
    (setLimb v j w).testBit k = if 32 * j ≤ k ∧ k < 32 * j + 32 then w.getLsbD (k - 32 * j) else v.testBit k := by
  have hv : v % 2 ^ (32 * j) < 2 ^ (32 * j) := Nat.mod_lt _ (by positivity)
  unfold setLimb
  rw [Nat.testBit_two_pow_mul_add _ hv, Nat.testBit_two_pow_mul_add _ w.isLt]
  by_cases h1 : k < 32 * j
  · rw [if_pos h1, if_neg (by omega), Nat.testBit_mod_two_pow]
    simp [h1]
  · rw [if_neg h1]
    by_cases h2 : k - 32 * j < 32
    · rw [if_pos h2, if_pos (by omega)]
      rfl
    · rw [if_neg h2, if_neg (by omega), Nat.testBit_div_two_pow]
      congr 1
      omega

/-- Writing a limb below NLIMBS keeps the value below 2^NBITS (R21). -/
theorem setLimb_lt {w : Config.Width} {v j : Nat} (u : Word) (hv : v < 2 ^ w.nbits) (hj : j < w.nlimbs) :
    setLimb v j u < 2 ^ w.nbits := by
  have hw := width_facts w
  refine Nat.lt_pow_two_of_testBit _ fun k hk => ?_
  rw [testBit_setLimb, if_neg (by omega)]
  exact Nat.testBit_lt_two_pow (hv.trans_le (Nat.pow_le_pow_right (by omega) hk))

/-- A limb reads as it was written. -/
theorem getLimb_setLimb_same (v j : Nat) (w : Word) : getLimb (setLimb v j w) j = w := by
  refine BitVec.eq_of_getLsbD_eq fun k hk => ?_
  rw [testBit_of_limb, testBit_setLimb, if_pos (by omega)]
  simp [hk]

/-- Writing a limb leaves every other limb alone. -/
theorem getLimb_setLimb_other (v : Nat) {i j : Nat} (w : Word) (h : i ≠ j) : getLimb (setLimb v j w) i = getLimb v i := by
  refine BitVec.eq_of_getLsbD_eq fun k hk => ?_
  rw [testBit_of_limb, testBit_of_limb, testBit_setLimb, if_neg (by omega)]

theorem toNat_getLimb (v j : Nat) : (getLimb v j).toNat = v / 2 ^ (32 * j) % 2 ^ 32 := by
  simp [getLimb, Nat.shiftRight_eq_div_pow]

theorem valueOfLimbs_range (x n : Nat) (f : Nat → Word) (hf : ∀ j, j < n → (f j).toNat = x / 2 ^ (32 * j) % 2 ^ 32) :
    valueOfLimbs ((List.range n).map f) = x % 2 ^ (32 * n) := by
  suffices h : ∀ k m, m + k = n → (((List.range' m k).map f).foldr (fun w acc => w.toNat + 2 ^ 32 * acc) 0)
      = x / 2 ^ (32 * m) % 2 ^ (32 * k) by
    have := h n 0 (by omega)
    rw [valueOfLimbs, List.range_eq_range', this]
    simp
  intro k
  induction k with
  | zero => intro m _; simp [Nat.mod_one]
  | succ k ih =>
    intro m hm
    rw [List.range'_succ, List.map_cons, List.foldr_cons, ih (m + 1) (by omega), hf m (by omega)]
    rw [show 32 * (m + 1) = 32 * m + 32 by omega, show 32 * (k + 1) = 32 + 32 * k by omega, pow_add, pow_add 2 32,
      ← Nat.div_div_eq_div_mul, Nat.mod_mul]

/-- A value below 2^NBITS is the sum of its NLIMBS limbs (R24). -/
theorem valueOfLimbs_getLimb {w : Config.Width} {v : Nat} (hv : v < 2 ^ w.nbits) :
    valueOfLimbs ((List.range w.nlimbs).map (getLimb v)) = v := by
  rw [valueOfLimbs_range v _ _ fun j _ => toNat_getLimb v j, (width_facts w).2.2.2.1, Nat.mod_eq_of_lt hv]

/-- Two values with the same limbs are equal. -/
theorem eq_of_getLimb_eq {c : Config.Width} {v w : Nat} (hv : v < 2 ^ c.nbits) (hw : w < 2 ^ c.nbits)
    (h : ∀ j, j < c.nlimbs → getLimb v j = getLimb w j) : v = w := by
  rw [← valueOfLimbs_getLimb hv, ← valueOfLimbs_getLimb hw]
  congr 1
  exact List.map_congr_left fun j hj => h j (List.mem_range.mp hj)

theorem valueOfLimbs_cons (w : Word) (ws : List Word) :
    valueOfLimbs (w :: ws) = w.toNat + 2 ^ 32 * valueOfLimbs ws := by
  simp only [valueOfLimbs, List.foldr_cons]

/-- `valueOfLimbs` as the sum of R24. -/
theorem valueOfLimbs_eq_sum (ws : List Word) :
    valueOfLimbs ws = ((List.range ws.length).map fun j => (ws.getD j 0#32).toNat * 2 ^ (32 * j)).sum := by
  induction ws with
  | nil => rfl
  | cons w ws ih =>
    rw [List.length_cons, List.range_succ_eq_map, List.map_cons, List.sum_cons, List.map_map, valueOfLimbs_cons, ih, ← List.sum_map_mul_left]
    refine congrArg₂ (· + ·) (by simp) (congrArg List.sum (List.map_congr_left fun j _ => ?_))
    rw [Function.comp_apply, List.getD_cons_succ, Nat.succ_eq_add_one, show 32 * (j + 1) = 32 * j + 32 by omega, pow_add]
    exact (mul_left_comm _ _ _).trans (congrArg _ (mul_comm _ _))

/-! ### The STATUS and CTRL words -/

/-- The bits of the STATUS word, bit 0 first (R35). -/
theorem toWord_bits (f : Status) (k : Nat) :
    f.toWord.getLsbD k = [f.busy, f.done, f.err, f.res, f.undec, f.wign].getD k false := by
  obtain ⟨b, d, e, r, u, w⟩ := f
  by_cases hk : k < 32
  · have : ∀ b d e r u w : Bool, ∀ k : Fin 32, (Status.mk b d e r u w).toWord.getLsbD k.val
        = [b, d, e, r, u, w].getD k.val false := by decide +kernel
    exact this b d e r u w ⟨k, hk⟩
  · rw [BitVec.getLsbD_of_ge _ _ (by omega), List.getD_eq_default _ _ (by simp; omega)]

/-- The bits of the CTRL word (R39). -/
theorem ctrlWord_bits (s : State) (k : Nat) : s.ctrlWord.getLsbD k = [s.ie].getD k false := by
  by_cases hk : k < 32
  · have : ∀ b : Bool, ∀ k : Fin 32, (0#31 ++ BitVec.ofBool b : Word).getLsbD k.val = [b].getD k.val false := by
      decide +kernel
    exact this s.ie ⟨k, hk⟩
  · rw [BitVec.getLsbD_of_ge _ _ (by omega), List.getD_eq_default _ _ (by simp; omega)]

/-! ### Accessors -/

@[simp] theorem x_setX_same (s : State) (i : Fin 4) (v : Nat) : (s.setX i v).x i = v := by
  fin_cases i <;> rfl

theorem x_setX_other (s : State) {i k : Fin 4} (v : Nat) (h : k ≠ i) : (s.setX i v).x k = s.x k := by
  fin_cases i <;> fin_cases k <;> first | rfl | exact absurd rfl h

@[simp] theorem param_setX (s : State) (i : Fin 4) (v : Nat) (p : Param) : (s.setX i v).param p = s.param p := by
  fin_cases i <;> cases p <;> rfl

@[simp] theorem param_setParam_same (s : State) (p : Param) (w : Word) : (s.setParam p w).param p = w := by
  cases p <;> rfl

theorem param_setParam_other (s : State) {p q : Param} (w : Word) (h : q ≠ p) : (s.setParam p w).param q = s.param q := by
  cases p <;> cases q <;> first | rfl | exact absurd rfl h

@[simp] theorem x_setParam (s : State) (p : Param) (w : Word) (k : Fin 4) : (s.setParam p w).x k = s.x k := by
  fin_cases k <;> cases p <;> rfl

section setX
variable (s : State) (i : Fin 4) (v : Nat)
@[simp] theorem setX_width : (s.setX i v).width = s.width := by fin_cases i <;> rfl
@[simp] theorem setX_cmd : (s.setX i v).cmd = s.cmd := by fin_cases i <;> rfl
@[simp] theorem setX_status : (s.setX i v).status = s.status := by fin_cases i <;> rfl
@[simp] theorem setX_cause : (s.setX i v).cause = s.cause := by fin_cases i <;> rfl
@[simp] theorem setX_einfo : (s.setX i v).einfo = s.einfo := by fin_cases i <;> rfl
@[simp] theorem setX_ie : (s.setX i v).ie = s.ie := by fin_cases i <;> rfl
@[simp] theorem setX_inFlight : (s.setX i v).inFlight = s.inFlight := by fin_cases i <;> rfl
@[simp] theorem setX_requests : (s.setX i v).requests = s.requests := by fin_cases i <;> rfl
end setX

section setParam
variable (s : State) (p : Param) (w : Word)
@[simp] theorem setParam_width : (s.setParam p w).width = s.width := by cases p <;> rfl
@[simp] theorem setParam_cmd : (s.setParam p w).cmd = s.cmd := by cases p <;> rfl
@[simp] theorem setParam_status : (s.setParam p w).status = s.status := by cases p <;> rfl
@[simp] theorem setParam_cause : (s.setParam p w).cause = s.cause := by cases p <;> rfl
@[simp] theorem setParam_einfo : (s.setParam p w).einfo = s.einfo := by cases p <;> rfl
@[simp] theorem setParam_ie : (s.setParam p w).ie = s.ie := by cases p <;> rfl
@[simp] theorem setParam_inFlight : (s.setParam p w).inFlight = s.inFlight := by cases p <;> rfl
@[simp] theorem setParam_requests : (s.setParam p w).requests = s.requests := by cases p <;> rfl
end setParam

end Sys2Proof.Machine
end

