-- ==== Sys2Proof/Laws/Primes.lean ====
section
/-! SUPPORT. Primes and the Miller–Rabin round (R151 (d)), and the walk of `random_prime`: why its loop is bounded
(R172, log entry 7). -/

namespace Sys2Proof.Machine

/-! ### A prime passes every round -/

/-- In a field of p elements: if x^(2^r) = 1 then x = 1 or some x^(2^k), k < r, is −1. -/
theorem eq_one_or_neg_one_of_pow {p : Nat} [Fact p.Prime] (x : ZMod p) (r : Nat) (h : x ^ 2 ^ r = 1) :
    x = 1 ∨ ∃ k, k < r ∧ x ^ 2 ^ k = -1 := by
  induction r with
  | zero => left; simpa using h
  | succ r ih =>
    rw [pow_succ, pow_mul, pow_two] at h
    rcases mul_self_eq_one_iff.mp h with h | h
    · rcases ih h with h | ⟨k, hk, h⟩
      · exact .inl h
      · exact .inr ⟨k, by omega, h⟩
    · exact .inr ⟨r, by omega, h⟩

theorem mod_eq_one_of_cast {p x : Nat} (hp : 2 ≤ p) (h : (x : ZMod p) = 1) : x % p = 1 := by
  have := (ZMod.natCast_eq_natCast_iff' x 1 p).mp (by simpa using h)
  rwa [Nat.mod_eq_of_lt (by omega : 1 < p)] at this

theorem mod_eq_pred_of_cast {p x : Nat} (hp : 2 ≤ p) (h : (x : ZMod p) = -1) : x % p = p - 1 := by
  have hc : ((p - 1 : Nat) : ZMod p) = -1 := by
    rw [Nat.cast_sub (by omega), ZMod.natCast_self]; simp
  have := (ZMod.natCast_eq_natCast_iff' x (p - 1) p).mp (h.trans hc.symm)
  rwa [Nat.mod_eq_of_lt (by omega : p - 1 < p)] at this

/-- "If n is prime, every round passes whatever the witness" (R151 (d)). -/
theorem strongPass_of_prime {p a : Nat} (hp : p.Prime) (h1 : 1 ≤ a) (h2 : a < p) : StrongPass p a := by
  have : Fact p.Prime := ⟨hp⟩
  obtain ⟨hd, hodd⟩ := decompose_spec hp.two_le
  refine ⟨(decompose p).1, (decompose p).2, hd, hodd, ?_⟩
  have ha : (a : ZMod p) ≠ 0 := by
    rw [Ne, ZMod.natCast_eq_zero_iff]
    exact fun hdvd => by have := Nat.le_of_dvd (by omega) hdvd; omega
  have hf : ((a : ZMod p) ^ (decompose p).1) ^ 2 ^ (decompose p).2 = 1 := by
    rw [← pow_mul, ← hd]
    exact ZMod.pow_card_sub_one_eq_one ha
  rcases eq_one_or_neg_one_of_pow _ _ hf with h | ⟨k, hk, h⟩
  · exact .inl (mod_eq_one_of_cast hp.two_le (by push_cast; exact h))
  · exact .inr ⟨k, hk, mod_eq_pred_of_cast hp.two_le (by push_cast; rw [pow_mul]; exact h)⟩

/-- No run of `is_prime` on a prime answers false (R151 (a), (d)). -/
theorem isPrimeRun_prime {p rounds : Nat} {as : List Nat} (hp : p.Prime) : ¬IsPrimeRun p rounds as false := by
  intro h
  generalize hb : false = b at h
  cases h with
  | table ht =>
    have hmem : p ∈ smallPrimeTable := by
      rcases ht with ht | ⟨t, ht, hd⟩
      · have := hp.two_le; omega
      · exact ((Nat.prime_dvd_prime_iff_eq (table_prime ht) hp).mp hd) ▸ ht
    simp [hmem] at hb
  | pass => cases hb
  | fail bs a h1 h2 h3 h4 h5 h6 => exact h6 (strongPass_of_prime hp (by omega) (by have := hp.two_le; omega))

/-! ### The walk of `random_prime` -/

/-- The k-th odd number of exactly `bits` bits. -/
def oddOf (bits k : Nat) : Nat := 2 ^ (bits - 1) + 1 + 2 * k

/-- Where the walk goes from the k-th odd number: the next or the previous one, cyclically (R171). -/
def nextIndex (m k : Nat) (up : Bool) : Nat :=
  if up then (if k + 1 = m then 0 else k + 1) else if k = 0 then m - 1 else k - 1

theorem two_pow_split {bits : Nat} (hb : 2 ≤ bits) : 2 ^ (bits - 1) = 2 * 2 ^ (bits - 2) ∧ 2 ^ bits = 4 * 2 ^ (bits - 2) := by
  obtain ⟨b, rfl⟩ : ∃ b, bits = b + 2 := ⟨bits - 2, by omega⟩
  constructor
  · rw [show b + 2 - 1 = b + 1 by omega, show b + 2 - 2 = b by omega, pow_succ, mul_comm]
  · rw [show b + 2 - 2 = b by omega, pow_add]; omega

/-- One step of the walk (R171). -/
theorem stepBits_oddOf {bits k : Nat} (up : Bool) (hb : 2 ≤ bits) (hk : k < 2 ^ (bits - 2)) :
    stepBits bits (oddOf bits k) up = oddOf bits (nextIndex (2 ^ (bits - 2)) k up) ∧
      nextIndex (2 ^ (bits - 2)) k up < 2 ^ (bits - 2) := by
  obtain ⟨h1, h2⟩ := two_pow_split hb
  unfold stepBits oddOf nextIndex
  rw [h1, h2]
  generalize 2 ^ (bits - 2) = m at hk
  cases up with
  | true => simp only [if_true]; split <;> split <;> omega
  | false => simp only [Bool.false_eq_true, if_false]; split <;> split <;> omega

/-- The j-th index of the walk from k. -/
def walkIndex (m : Nat) (up : Bool) : Nat → Nat → Nat
  | 0, k => k
  | j + 1, k => walkIndex m up j (nextIndex m k up)

/-- The walk reaches every index within m steps: it "visits all 2^(bits−2) odd bits-bit values cyclically" (R171). -/
theorem walkIndex_reaches {m : Nat} (up : Bool) {k t : Nat} (hk : k < m) (ht : t < m) :
    ∃ j, j < m ∧ walkIndex m up j k = t := by
  -- the distance still to go, in the direction of the walk
  have key : ∀ n k, k < m → (if up then (if k ≤ t then t - k else t + m - k) else (if t ≤ k then k - t else k + m - t)) = n →
      walkIndex m up n k = t := by
    intro n
    induction n with
    | zero =>
      intro k hk h
      show k = t
      cases up <;> simp only [if_true, Bool.false_eq_true, if_false] at h <;> split at h <;> omega
    | succ n ih =>
      intro k hk h
      refine ih (nextIndex m k up) ?_ ?_
      · unfold nextIndex
        cases up <;> simp only [if_true, Bool.false_eq_true, if_false] <;> split <;> omega
      · unfold nextIndex
        cases up <;> simp only [if_true, Bool.false_eq_true, if_false] at h ⊢ <;> split <;> split <;> split at h <;> omega
  refine ⟨_, ?_, key _ k hk rfl⟩
  cases up <;> simp only [if_true, Bool.false_eq_true, if_false] <;> split <;> omega

/-- There is a prime with exactly `bits` bits, and it is odd (R172). -/
theorem exists_prime_oddOf {bits : Nat} (hb : 2 ≤ bits) : ∃ k, k < 2 ^ (bits - 2) ∧ (oddOf bits k).Prime := by
  obtain ⟨h1, h2⟩ := two_pow_split hb
  have hpos : 0 < 2 ^ (bits - 2) := by positivity
  obtain ⟨p, hp, hlo, hhi⟩ := Nat.exists_prime_lt_and_le_two_mul (2 ^ (bits - 1)) (by positivity)
  have hodd : p % 2 = 1 := by
    rcases hp.eq_two_or_odd with h | h
    · omega
    · exact h
  refine ⟨(p - 2 ^ (bits - 1) - 1) / 2, by omega, ?_⟩
  have : oddOf bits ((p - 2 ^ (bits - 1) - 1) / 2) = p := by unfold oddOf; omega
  rwa [this]

/-- `mkcand` is an odd number of exactly `bits` bits (R170). -/
theorem mkcand_oddOf {bits v : Nat} (hb : 2 ≤ bits) (hv : v < 2 ^ bits) :
    ∃ k, k < 2 ^ (bits - 2) ∧ mkcand bits v = oddOf bits k := by
  obtain ⟨h1, h2⟩ := two_pow_split hb
  have hlt : mkcand bits v < 2 ^ bits := by
    refine Nat.or_lt_two_pow (Nat.or_lt_two_pow hv ?_) (Nat.one_lt_two_pow (by omega))
    rw [h1, h2]; have : 0 < 2 ^ (bits - 2) := by positivity
    omega
  have hge : 2 ^ (bits - 1) ≤ mkcand bits v := by
    have ha : 2 ^ (bits - 1) ≤ v ||| 2 ^ (bits - 1) := Nat.right_le_or
    have hb : v ||| 2 ^ (bits - 1) ≤ mkcand bits v := Nat.left_le_or
    omega
  have hodd : mkcand bits v % 2 = 1 := by
    unfold mkcand
    rw [Nat.or_mod_two_eq_one]
    exact .inr rfl
  refine ⟨(mkcand bits v - 2 ^ (bits - 1) - 1) / 2, by omega, ?_⟩
  unfold oddOf
  omega

end Sys2Proof.Machine
end

