-- ==== Sys2Proof/Laws/Ops.lean ====
section
/-! SUPPORT. What the shared operations can do, said once: how a run concludes, how a command that is issued ends, and
what one step can be. -/

namespace Sys2Proof.Machine

/-! ### A run of the engine concludes -/

/-- The four ways a run gives a next state: success, error, an outstanding request, no end (R11, R263, R264, R78). -/
theorem conclude_next {f : InFlight} {s t : State} {ran : EStateM.Result Stop Ports Result}
    (h : conclude f s ran = .next t) :
    (∃ r p, ran = .ok r p ∧ t = succeed r (leavePorts p s)) ∨
    (∃ e info p, ran = .error (.raise e info) p ∧ t = raiseError e info (leavePorts p s)) ∨
    (∃ r p, ran = .error (.wait r) p ∧ t = holdCommand f (some r) p s) ∨
    (∃ p, ran = .error .never p ∧ t = holdCommand f none p s) := by
  match ran, h with
  | .ok r p, h => cases h; exact .inl ⟨r, p, rfl, rfl⟩
  | .error (.raise e info) p, h => cases h; exact .inr (.inl ⟨e, info, p, rfl, rfl⟩)
  | .error (.wait r) p, h => cases h; exact .inr (.inr (.inl ⟨r, p, rfl, rfl⟩))
  | .error .never p, h => cases h; exact .inr (.inr (.inr ⟨p, rfl, rfl⟩))
  | .error (.badAnswer r v) p, h => cases h

theorem conclude_not_fault {f : InFlight} {s : State} {ran : EStateM.Result Stop Ports Result} {e : Fault} :
    conclude f s ran ≠ .fault e := by
  match ran with
  | .ok r p => simp [conclude]
  | .error (.raise e info) p => simp [conclude]
  | .error (.wait r) p => simp [conclude]
  | .error .never p => simp [conclude]
  | .error (.badAnswer r v) p => simp [conclude]

/-- A next state was not reached through a bad answer. -/
theorem conclude_next_not_bad {f : InFlight} {s t : State} {ran : EStateM.Result Stop Ports Result}
    (h : conclude f s ran = .next t) : ¬IsBadAnswer ran := by
  rintro ⟨r, v, p, rfl⟩
  cases h

theorem runEngine_inFlight {body : State → Engine Result} {s : State} {f : InFlight} (h : s.inFlight = some f) :
    runEngine body s = conclude f s ((body s).run (enginePorts f s)) := by
  simp [runEngine, h]

theorem engineTurn_late {body : State → Engine Result} {s : State} {rest : List Event}
    (h : s.script = .engineLate :: rest) : engineTurn body s = .next { s with script := rest } := by
  simp [engineTurn, h]

theorem engineTurn_prompt {body : State → Engine Result} {s : State} (h : s.script.head? ≠ some .engineLate) :
    engineTurn body s = runEngine body s := by
  unfold engineTurn
  split
  · rename_i hs; simp [hs] at h
  · rfl

theorem issue_busy {i : Instr} {body : State → Engine Result} {s : State} (h : s.status.busy = true) :
    issue i body s = .next (ignoreWrite s) := by
  simp [issue, h]

theorem issue_idle {i : Instr} {body : State → Engine Result} {s : State} (h : s.status.busy = false) :
    issue i body s = engineTurn body (startCommand i s) := by
  simp [issue, h]

/-- Each arm of `exec` issues its command with its own algorithm. -/
theorem exec_eq_issue (i : Instr) (s : State) : exec i s = issue i (bodyOf i) s := by
  cases i <;> rfl

/-- A command's algorithm reads the operand registers and nothing else of the state (R23). -/
theorem bodyOf_congr (i : Instr) {s t : State} (hw : s.width = t.width) (hx : ∀ k, s.x k = t.x k)
    (hp : ∀ p, s.param p = t.param p) : bodyOf i s = bodyOf i t := by
  have hn := State.nbits_eq hw
  have hpn : ∀ p, s.paramNat p = t.paramNat p := fun p => by simp [State.paramNat, hp]
  cases i <;> simp [bodyOf, bodyIsprime, bodyNextprime, bodyRndprime, bodyRndprimer, bodyGenpq, bodyGeng, bodyVerifyg,
    bodyGenpg, bodyPowmod, bodySieve, bodyMrwit, bodySeedq, bodySeedp, hn, hx, hpn]

/-! ### A command that is issued ends -/

/-- The result registers of `r` written into `t`, whose own are those of `s`. -/
def withResults (r : Result) (t : State) : State := writeResults r t

theorem enginePorts_start (i : Instr) (s : State) {draws rest : List Nat} {k left : Nat}
    (hr : s.randIn = draws ++ rest) (hh : s.hashIn = k + left) :
    enginePorts ⟨i, [], 0, none⟩ (startCommand i s) =
      Ports.feed ⟨Config.hash, rest, left, [], 0, []⟩ draws k := by
  simp [enginePorts, Ports.feed, hr, hh]

theorem issue_prompt {i : Instr} {s : State} (h : s.ready) :
    exec i s = conclude ⟨i, [], 0, none⟩ (startCommand i s)
      ((bodyOf i s).run (enginePorts ⟨i, [], 0, none⟩ (startCommand i s))) := by
  rw [exec_eq_issue, issue_idle h.1, engineTurn_prompt (s := startCommand i s) h.2, runEngine_inFlight (startCommand_inFlight i s),
    bodyOf_congr i (s := startCommand i s) (t := s) rfl (by intro k; fin_cases k <;> rfl) (by intro p; cases p <;> rfl)]

/-- A ready command whose algorithm ends on answers that are ready takes its success outcome in this step. -/
theorem exec_of_runs {i : Instr} {s : State} {draws rest : List Nat} {k left : Nat} {sent : List Request} {r : Result}
    (h : s.ready) (hr : s.randIn = draws ++ rest) (hh : s.hashIn = k + left)
    (hrun : Runs Config.hash (bodyOf i s) draws k sent r) :
    exec i s = .next (writeResults r (s.ended (encode i) r.res r.undec sent rest left)) := by
  rw [issue_prompt h, enginePorts_start i s hr hh, hrun _ rfl]
  simp [conclude, succeed, leavePorts, startCommand, State.ended, writeResults, Ports.take, Status.started,
    Status.succeeded]

/-- A ready command whose algorithm raises takes its error outcome in this step. -/
theorem exec_of_raises {i : Instr} {s : State} {draws rest : List Nat} {k left : Nat} {sent : List Request}
    {e : ErrorKind} {info : Word} (h : s.ready) (hr : s.randIn = draws ++ rest) (hh : s.hashIn = k + left)
    (hrun : Raises Config.hash (bodyOf i s) draws k sent e info) :
    exec i s = .next (s.failedWith (encode i) e.code info sent rest left) := by
  rw [issue_prompt h, enginePorts_start i s hr hh, hrun _ rfl]
  simp [conclude, raiseError, leavePorts, startCommand, State.failedWith, Ports.take, Status.started, Status.failed]

/-- An error raised before any request. -/
theorem exec_of_check {i : Instr} {s : State} {e : ErrorKind} {info : Word} (h : s.ready)
    (hrun : bodyOf i s = raise e info) :
    exec i s = .next (s.failedWith (encode i) e.code info [] s.randIn s.hashIn) := by
  refine exec_of_raises (draws := []) (k := 0) h rfl (by simp) ?_
  rw [hrun]
  exact raises_raise e info

/-! ### One event, one step -/

/-- The next event is taken and handled. -/
theorem step_event (s : State) (e : Event) : step (s.event e) = handleEvent e s := rfl

theorem step_empty {s : State} (h : s.script = []) : step s = engineMove s := by
  simp [step, nextEvent, h]

/-- A write is taken by the word that owns the offset. -/
theorem step_write {s : State} {addr : Nat} {v : Word} (h4 : addr % 4 = 0) (hlt : addr < bankSize) :
    step (s.event (.write addr 32 v)) =
      if bankWord s.nlimbs addr = .cmd then commandWrite v { s with reply := .accepted }
      else .next (plainWrite (bankWord s.nlimbs addr) v { s with reply := .accepted }) := by
  rw [step_event]
  simp only [handleEvent, hostWrite, busAccepts, h4, hlt, decide_true, Bool.and_self, if_true]
  split <;> rename_i hb <;> simp [hb]

/-- A read is answered by the word that owns the offset. -/
theorem step_read {s : State} {addr : Nat} (h4 : addr % 4 = 0) (hlt : addr < bankSize) :
    step (s.event (.read addr 32)) = .next { s with
      reply := .data (bankRead (bankWord s.nlimbs addr) s)
      freeReads := if readIsFree (bankWord s.nlimbs addr) s then s.freeReads + 1 else s.freeReads } := by
  rw [step_event]
  simp only [handleEvent, hostRead, busAccepts, h4, hlt, decide_true, Bool.and_self, if_true]

/-- The owner of a limb's offset (R63). -/
theorem bankWord_limb {n : Nat} (hn : n ≤ 256) {i : Fin 4} {j : Nat} (hj : j < n) :
    bankWord n (limbOffset i.val j) = .limb i j := by
  have hP : Config.NPRIMES = 168 := rfl
  have hi := i.isLt
  unfold bankWord limbOffset
  rw [if_neg (by omega), if_neg (by omega), if_neg (by omega)]
  have h1 : (0x1000 + 0x400 * i.val + 4 * j - 0x1000) % 0x400 / 4 = j := by omega
  have h2 : (0x1000 + 0x400 * i.val + 4 * j - 0x1000) / 0x400 = i.val := by omega
  simp only [h1, h2, hj, if_true]
  congr 1
  apply Fin.ext
  simp only [Fin.ofNat]
  omega

theorem limbOffset_ok {i : Fin 4} {j : Nat} (hj : j < 256) :
    limbOffset i.val j % 4 = 0 ∧ limbOffset i.val j < bankSize := by
  have hi := i.isLt
  unfold limbOffset bankSize
  omega

theorem bankWord_cmd (n : Nat) : bankWord n 0x008 = .cmd := rfl

/-- A write to CMD is taken by CMD (R62 (a)). -/
theorem step_commandWrite {s : State} {w : Word} :
    step (s.event (.write 0x008 32 w)) = commandWrite w { s with reply := .accepted } := by
  rw [step_write (by decide) (by decide), if_pos (bankWord_cmd _)]

theorem bankWord_param (n : Nat) (p : Param) : bankWord n p.byteOffset = .param p := by cases p <;> rfl

theorem paramOffset_ok (p : Param) : p.byteOffset % 4 = 0 ∧ p.byteOffset < bankSize := by cases p <;> decide

/-! ### What one step can be -/

/-- The model's own fields replaced (the environment's events and answers, the reply, the count of free reads). -/
def State.env (s : State) (reply : Reply) (script : List Event) (randIn : List Nat) (hashIn freeReads : Nat) : State :=
  { s with reply := reply, script := script, randIn := randIn, hashIn := hashIn, freeReads := freeReads }

section env
variable (s : State) (a : Reply) (b : List Event) (c : List Nat) (d e : Nat)
@[simp] theorem State.env_x (k : Fin 4) : (s.env a b c d e).x k = s.x k := by fin_cases k <;> rfl
@[simp] theorem State.env_param (p : Param) : (s.env a b c d e).param p = s.param p := by cases p <;> rfl
@[simp] theorem State.env_width : (s.env a b c d e).width = s.width := rfl
@[simp] theorem State.env_nbits : (s.env a b c d e).nbits = s.nbits := rfl
@[simp] theorem State.env_cmd : (s.env a b c d e).cmd = s.cmd := rfl
@[simp] theorem State.env_status : (s.env a b c d e).status = s.status := rfl
@[simp] theorem State.env_cause : (s.env a b c d e).cause = s.cause := rfl
@[simp] theorem State.env_einfo : (s.env a b c d e).einfo = s.einfo := rfl
@[simp] theorem State.env_ie : (s.env a b c d e).ie = s.ie := rfl
@[simp] theorem State.env_inFlight : (s.env a b c d e).inFlight = s.inFlight := rfl
@[simp] theorem State.env_requests : (s.env a b c d e).requests = s.requests := rfl
@[simp] theorem State.env_script : (s.env a b c d e).script = b := rfl
@[simp] theorem State.env_randIn : (s.env a b c d e).randIn = c := rfl
@[simp] theorem State.env_hashIn : (s.env a b c d e).hashIn = d := rfl
end env

/-- The events after which the engine may go on with a command that is in flight. -/
def EngineEvent (e : Option Event) : Prop :=
  match e with
  | none | some .engine | some (.randAnswer _) | some .hashAnswer => True
  | some (.read _ _) | some (.write _ _ _) | some .reset | some .engineLate => False

/-- `f` is `f₀` with no request outstanding, and with what it has received since. -/
structure Received (f₀ f : InFlight) : Prop where
  instr : f.instr = f₀.instr
  outstanding : f.outstanding = none
  drawn : f₀.drawn <+: f.drawn
  digests : f₀.digests ≤ f.digests

/-- The state the engine moves from in a step from `s`: the command has just started, or it goes on, maybe with one more
answer. -/
inductive MovesFrom (s : State) (f : InFlight) : State → Prop where
  | start (i : Instr) (a : Reply) (b : List Event) (c : List Nat) (d e : Nat) : s.status.busy = false →
      s.script.head? = some (.write cmdOffset 32 (encode i)) →
      f = ⟨i, [], 0, none⟩ → MovesFrom s f ((startCommand i s).env a b c d e)
  | resume (f₀ : InFlight) (a : Reply) (b : List Event) (c : List Nat) (d e : Nat) : s.inFlight = some f₀ →
      EngineEvent s.script.head? →
      Received f₀ f → MovesFrom s f ({ s with inFlight := some f }.env a b c d e)

/-- Everything a step that gives a next state can be. -/
inductive StepCase (s : State) : State → Prop where
  /-- a read, a write that stores nothing, an event that is ignored -/
  | quiet (a : Reply) (b : List Event) (c : List Nat) (d e : Nat) : StepCase s (s.env a b c d e)
  /-- a write to CTRL (R62 (c)) -/
  | ctrl (v : Word) (a : Reply) (b : List Event) (c : List Nat) (d e : Nat) :
      s.script.head? = some (.write 0x018 32 v) → StepCase s ({ s with ie := v.getLsbD 0 }.env a b c d e)
  /-- a limb is stored (R62 (d)) -/
  | limb (i : Fin 4) (j : Nat) (v : Word) (a : Reply) (b : List Event) (c : List Nat) (d e : Nat) :
      s.status.busy = false → j < s.nlimbs → s.script.head? = some (.write (limbOffset i j) 32 v) →
      StepCase s ((s.setX i (setLimb (s.x i) j v)).env a b c d e)
  /-- a parameter register is stored (R62 (d)) -/
  | param (p : Param) (v : Word) (a : Reply) (b : List Event) (c : List Nat) (d e : Nat) : s.status.busy = false →
      s.script.head? = some (.write p.byteOffset 32 v) → StepCase s ((s.setParam p v).env a b c d e)
  /-- a write to STATUS (R35) -/
  | status (v : Word) (a : Reply) (b : List Event) (c : List Nat) (d e : Nat) :
      s.script.head? = some (.write 0x00C 32 v) → StepCase s ((acknowledge v s).env a b c d e)
  /-- a write that is ignored (R306, R307) -/
  | ignored (addr : Nat) (v : Word) (a : Reply) (b : List Event) (c : List Nat) (d e : Nat) : s.status.busy = true →
      addr = cmdOffset ∨ OperandAddress s.nlimbs addr → s.script.head? = some (.write addr 32 v) →
      StepCase s ((ignoreWrite s).env a b c d e)
  /-- an illegal word (R105) -/
  | illegal (w : Word) (r : Reject) (a : Reply) (b : List Event) (c : List Nat) (d e : Nat) : s.status.busy = false →
      decode w = .error r → s.script.head? = some (.write cmdOffset 32 w) →
      StepCase s ((illegalCommand w s).env a b c d e)
  /-- reset (R300) -/
  | reset (a : Reply) (b : List Event) (c : List Nat) (d e : Nat) : s.script.head? = some .reset →
      StepCase s ((hardReset s).env a b c d e)
  /-- the engine may move but the host moves first (log entry 5) -/
  | late (f : InFlight) (u : State) (b : List Event) : MovesFrom s f u → StepCase s { u with script := b }
  /-- the engine moves -/
  | ran (f : InFlight) (u t : State) : MovesFrom s f u →
      conclude f u ((bodyOf f.instr u).run (enginePorts f u)) = .next t → StepCase s t

theorem engineTurn_case {s u t : State} {f : InFlight} (hu : MovesFrom s f u) (hf : u.inFlight = some f)
    (h : engineTurn (bodyOf f.instr) u = .next t) : StepCase s t := by
  unfold engineTurn at h
  split at h
  · cases h; exact .late f u _ hu
  · rw [runEngine_inFlight hf] at h
    exact .ran f u t hu h

/-! ### Decoding and the map of the bank, read backwards -/

/-- The only word that decodes to a command is its own (R104). -/
theorem decode_ok {w : Word} {i : Instr} (h : decode w = .ok i) : w = encode i := by
  unfold decode at h
  split at h
  · rename_i hz
    have hz : (w.extractLsb' 8 24) = 0#24 := by simpa [FormatC.zeroClear, formatC] using hz
    have hw : w.toNat = (w.extractLsb' 0 8).toNat := by
      have := congrArg BitVec.toNat hz
      simp only [BitVec.extractLsb'_toNat, Nat.shiftRight_eq_div_pow] at this ⊢
      have := w.isLt
      simp at *
      omega
    split at h
    · rename_i j hj
      cases h
      simp only [formatC] at hj
      rw [← hw] at hj
      unfold opcodeMap at hj
      apply BitVec.eq_of_toNat_eq
      split at hj <;> first | (cases hj; rename_i he; rw [he]; rfl) | cases hj
    · cases h
  · cases h

theorem controlWord_inv {addr : Nat} :
    (controlWord addr = .cmd → addr = cmdOffset) ∧ (controlWord addr = .status → addr = 0x00C) ∧
    (controlWord addr = .ctrl → addr = 0x018) ∧ (∀ p, controlWord addr = .param p → addr = p.byteOffset) ∧
    (∀ i j, controlWord addr ≠ .limb i j) := by
  refine ⟨?_, ?_, ?_, ?_, ?_⟩
  · unfold controlWord; split <;> intro h <;> first | rfl | cases h
  · unfold controlWord; split <;> intro h <;> first | rfl | cases h
  · unfold controlWord; split <;> intro h <;> first | rfl | cases h
  · intro p; unfold controlWord; split <;> intro h <;> cases h <;> rfl
  · intro i j; unfold controlWord; split <;> intro h <;> cases h

/-- Where the word of each owner stands (R66). -/
theorem bankWord_inv {n addr : Nat} (h4 : addr % 4 = 0) (hlt : addr < bankSize) :
    (bankWord n addr = .cmd → addr = cmdOffset) ∧ (bankWord n addr = .status → addr = 0x00C) ∧
    (bankWord n addr = .ctrl → addr = 0x018) ∧ (∀ p, bankWord n addr = .param p → addr = p.byteOffset) ∧
    (∀ i j, bankWord n addr = .limb i j → j < n ∧ addr = limbOffset i j) := by
  unfold bankWord
  split
  · obtain ⟨h1, h2, h3, h5, h6⟩ := controlWord_inv (addr := addr)
    exact ⟨h1, h2, h3, h5, fun i j h => absurd h (h6 i j)⟩
  · split
    · simp
    · split
      · simp
      · dsimp only
        split
        · refine ⟨by simp, by simp, by simp, by simp, fun i j h => ?_⟩
          injection h with h1 h2
          subst h2
          refine ⟨‹_›, ?_⟩
          subst h1
          unfold bankSize at hlt
          simp only [limbOffset, Fin.ofNat]
          omega
        · simp

theorem hostWrite_case {addr width : Nat} {v : Word} {s t : State} (b : List Event)
    (hs : s.script.head? = some (.write addr width v)) (h : hostWrite addr width v { s with script := b } = .next t) :
    StepCase s t := by
  unfold hostWrite at h
  split at h
  · rename_i hacc
    simp only [busAccepts, Bool.and_eq_true, decide_eq_true_eq] at hacc
    obtain ⟨⟨rfl, h4⟩, hlt⟩ := hacc
    obtain ⟨i1, i2, i3, i4, i5⟩ := bankWord_inv h4 hlt
    have quiet : StepCase s (s.env .accepted b s.randIn s.hashIn s.freeReads) := .quiet _ _ _ _ _
    dsimp only at h
    split at h
    · rename_i hb
      have ha := i1 hb
      unfold commandWrite at h
      split at h
      · rename_i i hd
        have hw := decode_ok hd
        rw [exec_eq_issue] at h
        cases hbusy : s.status.busy with
        | true =>
          rw [issue_busy (s := { s with reply := .accepted, script := b }) hbusy] at h; cases h
          exact .ignored addr v .accepted b s.randIn s.hashIn s.freeReads hbusy (.inl ha) hs
        | false =>
          rw [issue_idle (s := { s with reply := .accepted, script := b }) hbusy] at h
          exact engineTurn_case (f := ⟨i, [], 0, none⟩)
            (.start i .accepted b s.randIn s.hashIn s.freeReads hbusy (by rw [hs, ha, hw]) rfl) rfl h
      · rename_i r hd
        cases hbusy : s.status.busy with
        | true =>
          simp only [hbusy, if_true] at h; cases h
          exact .ignored addr v .accepted b s.randIn s.hashIn s.freeReads hbusy (.inl ha) hs
        | false =>
          simp only [hbusy, Bool.false_eq_true, if_false] at h; cases h
          exact .illegal v r .accepted b s.randIn s.hashIn s.freeReads hbusy hd (by rw [hs, ha])
    · cases h; exact quiet
    · cases h; exact quiet
    · rename_i hb; cases h; exact .status v .accepted b s.randIn s.hashIn s.freeReads (by rw [hs, i2 hb])
    · cases h; exact quiet
    · cases h; exact quiet
    · rename_i hb; cases h; exact .ctrl v .accepted b s.randIn s.hashIn s.freeReads (by rw [hs, i3 hb])
    · rename_i p hb
      have ha := i4 p hb
      cases hbusy : s.status.busy with
      | true =>
        simp only [plainWrite, operandWrite, hbusy, if_true] at h; cases h
        exact .ignored addr v .accepted b s.randIn s.hashIn s.freeReads hbusy (.inr (.inl ⟨p, ha⟩)) hs
      | false =>
        simp only [plainWrite, operandWrite, hbusy, Bool.false_eq_true, if_false] at h; cases h
        have := StepCase.param (s := s) p v .accepted b s.randIn s.hashIn s.freeReads hbusy (by rw [hs, ha])
        cases p <;> exact this
    · cases h; exact quiet
    · rename_i i j hb
      obtain ⟨hj, ha⟩ := i5 i j hb
      cases hbusy : s.status.busy with
      | true =>
        simp only [plainWrite, operandWrite, hbusy, if_true] at h; cases h
        exact .ignored addr v .accepted b s.randIn s.hashIn s.freeReads hbusy (.inr (.inr ⟨i, j, hj, ha⟩)) hs
      | false =>
        simp only [plainWrite, operandWrite, hbusy, Bool.false_eq_true, if_false] at h; cases h
        have := StepCase.limb (s := s) i j v .accepted b s.randIn s.hashIn s.freeReads hbusy hj (by rw [hs, ha])
        fin_cases i <;> exact this
    · cases h; exact quiet
  · cases h

theorem engineMove_case {s t : State} (b : List Event) (hs : EngineEvent s.script.head?)
    (h : engineMove { s with script := b } = .next t) : StepCase s t := by
  unfold engineMove at h
  split at h
  · cases h; exact .quiet s.reply b s.randIn s.hashIn s.freeReads
  · rename_i f hf
    split at h
    · cases h; exact .quiet s.reply b s.randIn s.hashIn s.freeReads
    · rename_i ho
      rw [runEngine_inFlight hf] at h
      refine .ran f _ t ?_ h
      have := MovesFrom.resume (s := s) (f := f) f s.reply b s.randIn s.hashIn s.freeReads hf hs
        ⟨rfl, ho, List.prefix_rfl, le_rfl⟩
      have he : ({ s with inFlight := some f }.env s.reply b s.randIn s.hashIn s.freeReads) = { s with script := b } := by
        cases s; cases hf; rfl
      rwa [he] at this

/-- What one step can be. -/
theorem step_case {s t : State} (h : step s = .next t) : StepCase s t := by
  unfold step nextEvent at h
  split at h
  · rename_i hs
    exact engineMove_case [] (by rw [hs]; trivial) (by rw [← hs]; exact h)
  · rename_i e rest hs
    have hh : s.script.head? = some e := by rw [hs]; rfl
    cases e with
    | read addr width =>
      simp only [handleEvent, hostRead] at h
      split at h
      · cases h; exact .quiet _ rest s.randIn s.hashIn _
      · cases h
    | write addr width data => exact hostWrite_case rest hh h
    | reset => cases h; exact .reset .none rest s.randIn s.hashIn s.freeReads hh
    | engineLate => cases h; exact .quiet s.reply rest s.randIn s.hashIn s.freeReads
    | engine => exact engineMove_case rest (by rw [hh]; trivial) h
    | randAnswer v =>
      have hev : EngineEvent s.script.head? := by rw [hh]; trivial
      simp only [handleEvent, randomAnswer] at h
      split at h
      · cases h; exact .quiet s.reply rest s.randIn s.hashIn s.freeReads
      · rename_i f hf
        split at h
        · exact engineTurn_case (f := receiveRandom v f)
            (.resume f s.reply rest s.randIn s.hashIn s.freeReads hf hev
              ⟨rfl, rfl, List.prefix_append _ _, le_rfl⟩) rfl h
        · exact engineTurn_case (f := receiveRandom v f)
            (.resume f s.reply rest s.randIn s.hashIn s.freeReads hf hev
              ⟨rfl, rfl, List.prefix_append _ _, le_rfl⟩) rfl h
        · cases h; exact .quiet s.reply rest s.randIn s.hashIn s.freeReads
        · cases h; exact .quiet s.reply rest s.randIn s.hashIn s.freeReads
    | hashAnswer =>
      have hev : EngineEvent s.script.head? := by rw [hh]; trivial
      simp only [handleEvent, oracleAnswer] at h
      split at h
      · cases h; exact .quiet s.reply rest s.randIn s.hashIn s.freeReads
      · rename_i f hf
        split at h
        · exact engineTurn_case (f := receiveDigest f)
            (.resume f s.reply rest s.randIn s.hashIn s.freeReads hf hev
              ⟨rfl, rfl, List.prefix_rfl, Nat.le_succ _⟩) rfl h
        · cases h; exact .quiet s.reply rest s.randIn s.hashIn s.freeReads
        · cases h; exact .quiet s.reply rest s.randIn s.hashIn s.freeReads
        · cases h; exact .quiet s.reply rest s.randIn s.hashIn s.freeReads

end Sys2Proof.Machine
end

