-- ==== Sys2Proof/Laws/Searches.lean ====
section
/-! SUPPORT. Each search of the spec, as Safety.lean states it, is what the engine's loop does: one lemma per search. -/

namespace Sys2Proof.Machine

variable {o : Oracle}

/-! ### Requests -/

@[simp] theorem witnessRequests_nil (n : Nat) : witnessRequests n [] = [] := rfl

@[simp] theorem witnessRequests_cons (n a : Nat) (as : List Nat) :
    witnessRequests n (a :: as) = .randRange 2 (n - 2) :: witnessRequests n as := by
  simp [witnessRequests, List.replicate_succ]

theorem witnessRequests_append (n : Nat) (as bs : List Nat) :
    witnessRequests n (as ++ bs) = witnessRequests n as ++ witnessRequests n bs := by
  simp [witnessRequests]

@[simp] theorem hashCount_nil : hashCount [] = 0 := rfl

@[simp] theorem hashCount_append (a b : List Request) : hashCount (a ++ b) = hashCount a + hashCount b := by
  simp [hashCount]

@[simp] theorem hashCount_randBits (k : Nat) (l : List Request) : hashCount (.randBits k :: l) = hashCount l := by
  simp [hashCount]

@[simp] theorem hashCount_randRange (lo hi : Nat) (l : List Request) :
    hashCount (.randRange lo hi :: l) = hashCount l := by
  simp [hashCount]

@[simp] theorem hashCount_hash (m : List Byte) (l : List Request) : hashCount (.hash m :: l) = hashCount l + 1 := by
  simp [hashCount]

@[simp] theorem hashCount_witness (n : Nat) (as : List Nat) : hashCount (witnessRequests n as) = 0 := by
  induction as <;> simp [*]

@[simp] theorem hashCount_stream (seed S offset L : Nat) :
    hashCount (streamRequests seed S offset L) = lastDigest L + 1 := by
  simp [hashCount, streamRequests, List.countP_map, Function.comp_def]

/-! ### The primality test -/

theorem runs_mrRounds_append {n k : Nat} {as bs : List Nat} {sent : List Request} {b : Bool} (hn : 2 ≤ n)
    (hodd : n % 2 = 1) (has : ∀ a ∈ as, 2 ≤ a ∧ a ≤ n - 2 ∧ StrongPass n a)
    (hb : Runs o (mrRounds n (decompose n).1 (decompose n).2 k) bs 0 sent b) :
    Runs o (mrRounds n (decompose n).1 (decompose n).2 (as.length + k)) (as ++ bs) 0 (witnessRequests n as ++ sent) b := by
  induction as with
  | nil => simpa using hb
  | cons a as ih =>
    obtain ⟨h1, h2, h3⟩ := has a List.mem_cons_self
    rw [List.length_cons, show as.length + 1 + k = (as.length + k) + 1 by omega, witnessRequests_cons]
    refine (runs_randRange h1 h2).bind (h2 := 0) ?_
    rw [if_pos ((mrRound_decompose hn hodd).mpr h3)]
    exact ih fun x hx => has x (List.mem_cons_of_mem _ hx)

theorem runs_isPrime {n rounds : Nat} {as : List Nat} {b : Bool} (h : IsPrimeRun n rounds as b) :
    Runs o (isPrime n rounds) as 0 (witnessRequests n as) b := by
  cases h with
  | table ht =>
    unfold isPrime
    rw [(sieve_spec n).1 ht]
    by_cases hm : n ∈ smallPrimeTable
    · simp only [hm, if_true, decide_true]; exact runs_pure _
    · simp only [hm, if_false, decide_false]; exact runs_pure _
  | pass _ ht hl has =>
    obtain ⟨h1, h2⟩ := undecided_facts ht
    unfold isPrime
    rw [(sieve_spec n).2 ht, ← hl]
    simpa using runs_mrRounds_append (k := 0) (by omega) h2 has (runs_pure true)
  | fail as a ht hl has h3 h4 h5 =>
    obtain ⟨h1, h2⟩ := undecided_facts ht
    unfold isPrime
    rw [(sieve_spec n).2 ht, witnessRequests_append]
    obtain ⟨k, rfl⟩ : ∃ k, rounds = as.length + (k + 1) := ⟨rounds - as.length - 1, by omega⟩
    refine runs_mrRounds_append (by omega) h2 has ?_
    refine (runs_randRange h3 h4).bind (d2 := []) (h2 := 0) (s2 := []) ?_
    rw [if_neg (by rw [mrRound_decompose (by omega) h2]; exact h5)]
    exact runs_pure false

/-! ### NEXTPRIME -/

theorem SearchRun.le {rounds c p : Nat} {as : List Nat} {sent : List Request}
    (h : SearchRun rounds (fun n => n + 2) c as sent p) : c ≤ p := by
  induction h with
  | found => exact le_rfl
  | step c as bs sent p _ _ ih => omega

theorem SearchRun.odd {rounds c p : Nat} {as : List Nat} {sent : List Request}
    (h : SearchRun rounds (fun n => n + 2) c as sent p) : p % 2 = c % 2 := by
  induction h with
  | found => rfl
  | step c as bs sent p _ _ ih => omega

theorem runs_nextPrimeWalk {nbits rounds c p fuel : Nat} {as : List Nat} {sent : List Request}
    (h : SearchRun rounds (fun n => n + 2) c as sent p) (hp : p < 2 ^ nbits) (hf : p < c + 2 * fuel) :
    Runs o (nextPrimeWalk nbits rounds fuel c) as 0 sent p := by
  induction h generalizing fuel with
  | found c as hc =>
    obtain ⟨fuel, rfl⟩ : ∃ f, fuel = f + 1 := ⟨fuel - 1, by omega⟩
    exact ((runs_isPrime hc).bind (by rw [if_pos rfl]; exact runs_pure c)).eq (by simp) rfl (by simp)
  | step c as bs sent p hc hr ih =>
    have := hr.le
    obtain ⟨fuel, rfl⟩ : ∃ f, fuel = f + 1 := ⟨fuel - 1, by omega⟩
    refine (runs_isPrime hc).bind (h2 := 0) ?_
    rw [if_neg (by simp), if_neg (by omega)]
    exact ih hp (by omega)

theorem raises_nextPrimeWalk {nbits rounds c fuel : Nat} {as : List Nat} {sent : List Request}
    (h : WidthExhausted nbits rounds c as sent) (hf0 : 0 < fuel) (hf : 2 ^ nbits ≤ c + 2 * fuel) :
    Raises o (nextPrimeWalk nbits rounds fuel c) as 0 sent .overflow 0#32 := by
  induction h generalizing fuel with
  | last c as h1 h2 =>
    obtain ⟨fuel, rfl⟩ : ∃ f, fuel = f + 1 := ⟨fuel - 1, by omega⟩
    exact ((runs_isPrime h1).bind_raises (by rw [if_neg (by simp), if_pos (by omega)]; exact raises_raise _ _)).eq
      (by simp) rfl (by simp)
  | step c as bs sent h1 h2 hr ih =>
    obtain ⟨fuel, rfl⟩ : ∃ f, fuel = f + 1 := ⟨fuel - 1, by omega⟩
    refine (runs_isPrime h1).bind_raises (h2 := 0) ?_
    rw [if_neg (by simp), if_neg (by omega)]
    exact ih (by omega) (by omega)

/-! ### `random_prime` -/

theorem nextOfBits_eq (bits d : Nat) : nextOfBits bits d = fun c => stepBits bits c (d == 1) := by
  funext c
  unfold nextOfBits stepBits
  by_cases h : d = 1 <;> simp [h]

theorem runs_randomPrimeSearch {bits c p : Nat} {d : Bool} {as : List Nat} {sent : List Request}
    (h : SearchRun Config.GEN_ROUNDS (fun c => stepBits bits c d) c as sent p) (hb : 2 ≤ bits) {t j k fuel : Nat}
    (ht : (oddOf bits t).Prime) (hc : c = oddOf bits k) (hk : k < 2 ^ (bits - 2))
    (hj : walkIndex (2 ^ (bits - 2)) d j k = t) (hf : j < fuel) :
    Runs o (randomPrimeSearch bits d fuel c) as 0 sent p := by
  induction h generalizing fuel j k with
  | found c as hr =>
    obtain ⟨fuel, rfl⟩ : ∃ f, fuel = f + 1 := ⟨fuel - 1, by omega⟩
    exact ((runs_isPrime hr).bind (by rw [if_pos rfl]; exact runs_pure c)).eq (by simp) rfl (by simp)
  | step c as bs sent p hr hs ih =>
    obtain ⟨fuel, rfl⟩ : ∃ f, fuel = f + 1 := ⟨fuel - 1, by omega⟩
    cases j with
    | zero =>
      have hkt : k = t := hj
      exact absurd hr (isPrimeRun_prime (by rw [hc, hkt]; exact ht))
    | succ j =>
      refine (runs_isPrime hr).bind (h2 := 0) ?_
      rw [if_neg (by simp)]
      obtain ⟨h1, h2⟩ := stepBits_oddOf d hb hk
      exact ih (by rw [hc]; exact h1) h2 hj (by omega)

theorem runs_randomPrime {bits p : Nat} {as : List Nat} {sent : List Request} (h : RandomPrimeRun bits as sent p) :
    Runs o (randomPrime bits) as 0 sent p := by
  cases h with
  | one h => simp only [randomPrime, h, if_true]; exact runs_pure 1
  | search v d as sent p hb hv hd hs =>
    rw [randomPrime, if_neg (by omega)]
    obtain ⟨t, ht, hprime⟩ := exists_prime_oddOf hb
    obtain ⟨k, hk, hc⟩ := mkcand_oddOf hb hv
    obtain ⟨j, hj, hjt⟩ := walkIndex_reaches (d == 1) hk ht
    have hlt : j < 2 ^ bits := hj.trans_le (Nat.pow_le_pow_right (by omega) (by omega))
    exact (runs_randBits hv).bind (h2 := 0) ((runs_randDirection hd).bind (h2 := 0)
      (runs_randomPrimeSearch (nextOfBits_eq bits d ▸ hs) hb hprime hc hk hjt hlt))

/-- What the result of the search is: an odd number of exactly `bits` bits that passed the test (R173). -/
theorem SearchRun.bits_spec {bits c p : Nat} {d : Bool} {as : List Nat} {sent : List Request}
    (h : SearchRun Config.GEN_ROUNDS (fun c => stepBits bits c d) c as sent p) (hb : 2 ≤ bits) {k : Nat}
    (hc : c = oddOf bits k) (hk : k < 2 ^ (bits - 2)) :
    (∃ l, l < 2 ^ (bits - 2) ∧ p = oddOf bits l) ∧ ∃ bs, bs <:+ as ∧ IsPrimeRun p Config.GEN_ROUNDS bs true := by
  induction h generalizing k with
  | found c as hr => exact ⟨⟨k, hk, hc⟩, as, List.suffix_refl _, hr⟩
  | step c as bs sent p hr hs ih =>
    obtain ⟨h1, h2⟩ := stepBits_oddOf d hb hk
    obtain ⟨h3, cs, h4, h5⟩ := ih (by rw [hc]; exact h1) h2
    exact ⟨h3, cs, h4.trans (List.suffix_append _ _), h5⟩

theorem oddOf_facts {bits k : Nat} (hb : 2 ≤ bits) (hk : k < 2 ^ (bits - 2)) :
    oddOf bits k % 2 = 1 ∧ 2 ^ (bits - 1) < oddOf bits k ∧ oddOf bits k < 2 ^ bits := by
  obtain ⟨h1, h2⟩ := two_pow_split hb
  unfold oddOf
  omega

theorem RandomPrimeRun.spec {bits p : Nat} {as : List Nat} {sent : List Request} (h : RandomPrimeRun bits as sent p)
    (hb : 2 ≤ bits) : p % 2 = 1 ∧ 2 ^ (bits - 1) < p ∧ p < 2 ^ bits := by
  cases h with
  | one h => omega
  | search v d as sent p _ hv hd hs =>
    obtain ⟨k, hk, hc⟩ := mkcand_oddOf hb hv
    rw [nextOfBits_eq] at hs
    obtain ⟨⟨l, hl, rfl⟩, -⟩ := hs.bits_spec hb hc hk
    exact oddOf_facts hb hl

theorem RandomPrimeRun.hashCount {bits p : Nat} {as : List Nat} {sent : List Request}
    (h : RandomPrimeRun bits as sent p) : hashCount sent = 0 := by
  cases h with
  | one => rfl
  | search v d as sent p _ _ _ hs =>
    simp only [hashCount_randBits]
    generalize v ||| 2 ^ (bits - 1) ||| 1 = c at hs
    induction hs with
    | found => simp
    | step c as bs sent p _ _ ih => simp [ih]

/-! ### `random_prime_range` -/

theorem norm_facts {min max : Nat} (h : rangeShortCircuit min max = false) :
    normMin min ≤ normMax max ∧ normMax max % 2 = 1 ∧ 1 ≤ normMin min ∧ (normMin min % 2 = 1 ∨ normMin min = 2) := by
  simp only [rangeShortCircuit, Bool.or_eq_false_iff, decide_eq_false_iff_not, Bool.and_eq_false_imp,
    decide_eq_true_eq] at h
  obtain ⟨⟨h1, h2⟩, h3⟩ := h
  unfold normMin normMax
  have h4 : max = min → ¬max % 2 = 0 := h3
  split <;> split <;> (try split) <;> omega

/-- "The redraw never happens" (R181). -/
theorem candidate_le {mn mx u : Nat} (h : mn ≤ mx) (hx : mx % 2 = 1) (hu : u ≤ (mx - mn) / 2) : ((mn + 2 * u) ||| 1) ≤ mx := by
  have hor : ∀ a : Nat, (a ||| 1) = if a % 2 = 1 then a else a + 1 := by
    intro a
    have h1 : (a ||| 1) % 2 = 1 := by rw [Nat.or_mod_two_eq_one]; exact .inr rfl
    have h2 : (a ||| 1) / 2 = a / 2 := by simpa using Nat.or_div_two (a := a) (b := 1)
    split <;> omega
  rw [hor]
  split <;> omega

theorem runs_rangeCandidate {mn mx u : Nat} (h : mn ≤ mx) (hx : mx % 2 = 1) (hu : u ≤ (mx - mn) / 2) :
    Runs o (whileAnswered (rangeCandidate mn mx ((mx - mn) / 2))) [u] 0 [.randRange 0 ((mx - mn) / 2)]
      ((mn + 2 * u) ||| 1) := by
  refine Runs.whileAnswered fun fuel hf => ?_
  obtain ⟨fuel, rfl⟩ : ∃ f, fuel = f + 1 := ⟨fuel - 1, by simp at hf; omega⟩
  refine (runs_randRange (Nat.zero_le u) hu).bind (d2 := []) (h2 := 0) (s2 := []) ?_
  dsimp only
  rw [if_pos (candidate_le h hx hu)]
  exact runs_pure _

theorem rangeSearch_run {next : Nat → Nat} {up : Bool} {mn mx c cand : Nat} {as : List Nat} {sent : List Request}
    {r : Option Nat} (h : RangeRun next c cand as sent r) (hn : ∀ a, next a = stepRange a up mn mx) :
    match r with
    | some p => Runs o (rangeSearch up mn mx c cand) as 0 sent p
    | none => Raises o (rangeSearch up mn mx c cand) as 0 sent .resourceExhausted 0#32 := by
  induction h with
  | found c cand as hr =>
    have : Runs o (rangeSearch up mn mx c cand) (as ++ []) (0 + 0) (witnessRequests cand as ++ []) cand := by
      cases c <;> exact (runs_isPrime hr).bind (by simpa using runs_pure cand)
    simpa using this
  | exhausted c cand as hr hc =>
    have : Raises o (rangeSearch up mn mx c cand) (as ++ []) (0 + 0) (witnessRequests cand as ++ [])
        .resourceExhausted 0#32 := by
      cases c with
      | zero => exact (runs_isPrime hr).bind_raises (by simpa using raises_raise _ _)
      | succ c =>
        refine (runs_isPrime hr).bind_raises ?_
        rw [if_neg (by simp), if_pos (by omega)]
        exact raises_raise _ _
    simpa using this
  | step c cand as bs sent r hr hc hs ih =>
    obtain ⟨c, rfl⟩ : ∃ k, c = k + 1 := ⟨c - 1, by omega⟩
    cases r with
    | some p =>
      refine (runs_isPrime hr).bind (h2 := 0) ?_
      rw [if_neg (by simp), if_neg (by omega), ← hn]
      exact ih
    | none =>
      refine (runs_isPrime hr).bind_raises (h2 := 0) ?_
      rw [if_neg (by simp), if_neg (by omega), ← hn]
      exact ih

/-! ### The hash derivations -/

theorem runs_deriveQ (o : Oracle) (seed S N : Nat) :
    Runs o (deriveQ seed S N) [] 1 [.hash (hashMessage seed S)] (qOfSeed o seed S N) :=
  (runs_hashInt o seed S).map

theorem streamN_eq {L : Nat} (hL : 1 ≤ L) : streamN L = lastDigest L := by
  unfold streamN lastDigest Config.OUTLEN
  omega

theorem runs_assembleW (o : Oracle) (seed S offset n b : Nat) : ∀ left j W, j + left ≤ n + 1 →
    Runs o (assembleW seed S offset n b left j W) [] left
      ((List.range' j left).map fun j => .hash (hashMessage (seed + offset + j) S))
      (W + ((List.range' j left).map fun j => streamTerm n b j (hashOf o (seed + offset + j) S)).sum) := by
  intro left
  induction left with
  | zero => intro j W _; simpa [assembleW] using runs_pure (o := o) W
  | succ left ih =>
    intro j W hj
    have h2 := ih (j + 1) (W + streamTerm n b j (hashOf o (seed + offset + j) S)) (by omega)
    rw [List.range'_succ, List.map_cons, List.map_cons, List.sum_cons, ← Nat.add_assoc]
    exact ((runs_hashInt o (seed + offset + j) S).bind
      (f := fun V => assembleW seed S offset n b left (j + 1) (W + streamTerm n b j V)) h2).eq rfl (by omega) rfl

theorem streamSum_eq (o : Oracle) (seed S offset L : Nat) :
    ((List.range' 0 (lastDigest L + 1)).map fun j =>
      streamTerm (lastDigest L) (L - 1 - lastDigest L * Config.OUTLEN) j (hashOf o (seed + offset + j) S)).sum
      = streamValue o seed S offset L := by
  rw [← List.range_eq_range', List.range_succ, List.map_append, List.sum_append, streamValue]
  congr 1
  · congr 1
    refine List.map_congr_left fun j hj => ?_
    have : j ≠ lastDigest L := by have := List.mem_range.mp hj; omega
    simp [streamTerm, this, Nat.shiftLeft_eq]
  · simp [streamTerm, Nat.shiftLeft_eq]

theorem runs_deriveP {seed S offset L q : Nat} (hL : 1 ≤ L) :
    Runs o (deriveP seed S offset L q) [] (lastDigest L + 1) (streamRequests seed S offset L)
      (pOfSeed o seed S offset L q, decide (2 ^ (L - 1) ≤ pOfSeed o seed S offset L q)) := by
  have h := runs_assembleW o seed S offset (lastDigest L) (L - 1 - lastDigest L * Config.OUTLEN) (lastDigest L + 1) 0 0
    (by omega)
  rw [streamSum_eq, zero_add, ← List.range_eq_range'] at h
  unfold deriveP
  rw [streamB, streamN_eq hL]
  exact h.map (f := fun W => (pOfStream L q W, decide (pOfStream L q W ≥ 2 ^ (L - 1))))

theorem runs_testCandidate {p rounds : Nat} {as : List Nat} {b : Bool} (hr : rounds = Config.GEN_ROUNDS)
    (h : IsPrimeRun p rounds as b) :
    Runs o (testCandidate (p, true)) as 0 (witnessRequests p as) b := by
  subst hr
  exact runs_isPrime h

/-! ### GENPQ -/

theorem runs_genpqInner {seed S L q left offset : Nat} {as : List Nat} {sent : List Request} {r : Option Nat}
    (hL : 1 ≤ L) (h : InnerRun o seed S L q left offset as sent r) :
    Runs o (genpqInner seed S L q left offset) as (hashCount sent) sent r := by
  induction h with
  | spent offset => exact runs_pure none
  | found left offset as hp hr =>
    have := (runs_deriveP (seed := seed) (S := S) (offset := offset) (q := q) hL).bind
      (f := fun pok => testCandidate pok >>= fun b =>
        if b then pure (some pok.1) else genpqInner seed S L q left (offset + (streamN L + 1)))
      ((show Runs o (testCandidate _) as 0 _ true by
        rw [decide_eq_true hp]; exact runs_testCandidate rfl hr).bind (d2 := []) (h2 := 0) (s2 := [])
          (by simpa using runs_pure _))
    simpa [genpqInner] using this
  | composite left offset as bs sent r hp hr hs ih =>
    have := (runs_deriveP (seed := seed) (S := S) (offset := offset) (q := q) hL).bind
      (f := fun pok => testCandidate pok >>= fun b =>
        if b then pure (some pok.1) else genpqInner seed S L q left (offset + (streamN L + 1)))
      ((show Runs o (testCandidate _) as 0 _ false by
        rw [decide_eq_true hp]; exact runs_testCandidate rfl hr).bind
          (by rw [if_neg (by simp), streamN_eq hL, ← Nat.add_assoc]; exact ih))
    simpa [genpqInner] using this
  | skip left offset bs sent r hp hs ih =>
    have := (runs_deriveP (seed := seed) (S := S) (offset := offset) (q := q) hL).bind
      (f := fun pok => testCandidate pok >>= fun b =>
        if b then pure (some pok.1) else genpqInner seed S L q left (offset + (streamN L + 1)))
      ((show Runs o (testCandidate _) [] 0 [] false by
        rw [decide_eq_false (by omega)]; exact runs_pure false).bind
          (by rw [if_neg (by simp), streamN_eq hL, ← Nat.add_assoc]; exact ih))
    simpa [genpqInner] using this

theorem OuterRun.pos {L N S p q : Nat} {as : List Nat} {sent : List Request} (h : OuterRun o L N S as sent p q) :
    0 < as.length := by
  cases h <;> simp

/-- One round of "step 5": a seed, its q, the test of q (R213). -/
theorem runs_genpqRound {L N S fuel seed : Nat} {as bs : List Nat} {h : Nat} {sent : List Request} {b : Bool}
    {pq : Nat × Nat} (hs : seed < 2 ^ S) (hq : IsPrimeRun (qOfSeed o seed S N) Config.GEN_ROUNDS as b)
    (hrest : Runs o (if b then genpqInner seed S L (qOfSeed o seed S N) (Config.PQ_INNER L) Config.OFFSET0 >>=
        fun found => match found with
          | some p => pure (p, qOfSeed o seed S N)
          | none => genpqOuter L N S fuel
      else genpqOuter L N S fuel) bs h sent pq) :
    Runs o (genpqOuter L N S (fuel + 1)) (seed :: (as ++ bs)) (1 + h)
      (.randBits S :: .hash (hashMessage seed S) :: (witnessRequests (qOfSeed o seed S N) as ++ sent)) pq := by
  refine ((runs_randBits hs).bind (f := fun seed => deriveQ seed S N >>= fun q => isPrime q Config.GEN_ROUNDS >>=
    fun qok => if qok then genpqInner seed S L q (Config.PQ_INNER L) Config.OFFSET0 >>= fun found => match found with
      | some p => pure (p, q)
      | none => genpqOuter L N S fuel
    else genpqOuter L N S fuel) ((runs_deriveQ o seed S N).bind ((runs_isPrime hq).bind hrest))).eq
    (by simp) (by omega) (by simp)

theorem runs_genpqOuter {L N S p q : Nat} {as : List Nat} {sent : List Request} (hL : 1 ≤ L)
    (h : OuterRun o L N S as sent p q) : ∀ fuel, as.length < fuel →
    Runs o (genpqOuter L N S fuel) as (hashCount sent) sent (p, q) := by
  induction h with
  | found seed as bs sent p hs hq hi =>
    intro fuel hf
    obtain ⟨fuel, rfl⟩ : ∃ f, fuel = f + 1 := ⟨fuel - 1, by omega⟩
    have hr := runs_genpqRound (L := L) (fuel := fuel) hs hq (by
      rw [if_pos rfl]
      exact ((runs_genpqInner hL hi).bind (runs_pure (p, qOfSeed o seed S N))).eq rfl rfl rfl)
    exact hr.eq (by simp) (by simp [Nat.add_comm]) (by simp)
  | composite seed as bs sent p q hs hq hr ih =>
    intro fuel hf
    obtain ⟨fuel, rfl⟩ : ∃ f, fuel = f + 1 := ⟨fuel - 1, by omega⟩
    have hr := runs_genpqRound (L := L) (fuel := fuel) hs hq (by
      rw [if_neg (by simp)]
      exact ih fuel (by simp at hf; omega))
    exact hr.eq rfl (by simp [Nat.add_comm]) rfl
  | spent seed as bs cs sent sent' p q hs hq hi hr ih =>
    intro fuel hf
    obtain ⟨fuel, rfl⟩ : ∃ f, fuel = f + 1 := ⟨fuel - 1, by omega⟩
    have hr := runs_genpqRound (L := L) (fuel := fuel) hs hq (by
      rw [if_pos rfl]
      exact (runs_genpqInner hL hi).bind (ih fuel (by simp at hf; omega)))
    exact hr.eq (by simp) (by simp; omega) (by simp)

end Sys2Proof.Machine
end

