-- ==== Sys2Proof/Laws/Generators.lean ====
section
/-! SUPPORT. The two generator searches: GENG's cyclic walk (R220, R221), GENPG's construction (R241), its walk (R243)
and its final check (R244). -/

namespace Sys2Proof.Machine

variable {o : Oracle}

/-! ### GENG -/

theorem stepGenerator_eq_nextH (p d h : Nat) : stepGenerator p h (d == 1) = nextH p d h := by
  simp [stepGenerator, nextH]

/-- One step of the walk stays in [2, p − 2] and is the cyclic step of its index (R220). -/
theorem nextH_index {p d k : Nat} (hp : 4 ≤ p) (hk : k < p - 3) :
    nextH p d (2 + k) = 2 + nextIndex (p - 3) k (d == 1) ∧ nextIndex (p - 3) k (d == 1) < p - 3 := by
  unfold nextH nextIndex
  by_cases hd : d = 1
  · simp only [hd, if_true, beq_self_eq_true]; split <;> split <;> omega
  · simp only [hd, if_false, beq_iff_eq]; split <;> split <;> omega

theorem iterate_nextH {p d : Nat} (hp : 4 ≤ p) (j : Nat) : ∀ k, k < p - 3 →
    (nextH p d)^[j] (2 + k) = 2 + walkIndex (p - 3) (d == 1) j k ∧ walkIndex (p - 3) (d == 1) j k < p - 3 := by
  induction j with
  | zero => intro k hk; exact ⟨rfl, hk⟩
  | succ j ih =>
    intro k hk
    obtain ⟨h1, h2⟩ := nextH_index (d := d) hp hk
    obtain ⟨h3, h4⟩ := ih _ h2
    exact ⟨by rw [Function.iterate_succ_apply, h1, h3]; rfl, h4⟩

theorem generatorWalk_found {p e d : Nat} (k : Nat) : ∀ fuel h, k < fuel →
    (∀ j, j < k → powMod ((nextH p d)^[j] h) e p = 1) → powMod ((nextH p d)^[k] h) e p ≠ 1 →
    generatorWalk p e (d == 1) fuel h = pure (powMod ((nextH p d)^[k] h) e p) := by
  induction k with
  | zero =>
    intro fuel h hf _ hg
    obtain ⟨fuel, rfl⟩ : ∃ f, fuel = f + 1 := ⟨fuel - 1, by omega⟩
    unfold generatorWalk
    exact if_pos hg
  | succ k ih =>
    intro fuel h hf h1 hg
    obtain ⟨fuel, rfl⟩ : ∃ f, fuel = f + 1 := ⟨fuel - 1, by omega⟩
    unfold generatorWalk
    rw [if_neg (by simpa using h1 0 (by omega)), stepGenerator_eq_nextH]
    exact ih fuel _ (by omega) (fun j hj => h1 (j + 1) (by omega)) hg

/-- The walk finds the first h that passes, wherever it is: the bound p − 3 is never felt (R221). -/
theorem generatorWalk_first {p e d h k : Nat} (hp : 4 ≤ p) (h2 : 2 ≤ h) (hh : h ≤ p - 2)
    (h1 : ∀ j, j < k → powMod ((nextH p d)^[j] h) e p = 1) (hg : powMod ((nextH p d)^[k] h) e p ≠ 1) :
    generatorWalk p e (d == 1) (p - 3) h = pure (powMod ((nextH p d)^[k] h) e p) := by
  refine generatorWalk_found k _ _ ?_ h1 hg
  obtain ⟨i, rfl⟩ : ∃ i, h = 2 + i := ⟨h - 2, by omega⟩
  have hi : i < p - 3 := by omega
  obtain ⟨h3, h4⟩ := iterate_nextH (d := d) hp k i hi
  obtain ⟨j, hj, hjt⟩ := walkIndex_reaches (d == 1) hi h4
  by_contra hc
  refine hg ?_
  rw [h3, ← hjt, ← (iterate_nextH (d := d) hp j i hi).1]
  exact h1 j (by omega)

/-- When every h of [2, p − 2] fails the walk never ends (R221, R310). -/
theorem generatorWalk_never {p e d : Nat} (hp : 4 ≤ p) (hall : ∀ h, 2 ≤ h → h ≤ p - 2 → powMod h e p = 1) :
    ∀ fuel h, 2 ≤ h → h ≤ p - 2 → generatorWalk p e (d == 1) fuel h = never := by
  intro fuel
  induction fuel with
  | zero => intro h _ _; rfl
  | succ fuel ih =>
    intro h h2 hh
    unfold generatorWalk
    rw [if_neg (by simpa using hall h h2 hh), stepGenerator_eq_nextH]
    obtain ⟨i, rfl⟩ : ∃ i, h = 2 + i := ⟨h - 2, by omega⟩
    obtain ⟨h3, h4⟩ := nextH_index (d := d) hp (k := i) (by omega)
    exact ih _ (by omega) (by omega)

theorem runs_generateG {p q h d k : Nat} (hp : 4 ≤ p) (h2 : 2 ≤ h) (hh : h ≤ p - 2) (hd : d < 2)
    (h1 : ∀ j, j < k → ((nextH p d)^[j] h) ^ ((p - 1) / q) % p = 1)
    (hg : ((nextH p d)^[k] h) ^ ((p - 1) / q) % p ≠ 1) :
    Runs o (generateG p q) [h, d] 0 [.randRange 2 (p - 2), .randBits 1]
      (((nextH p d)^[k] h) ^ ((p - 1) / q) % p) := by
  have hpos : 0 < p := by omega
  have hw := generatorWalk_first (d := d) hp h2 hh (fun j hj => (powMod_eq hpos).trans (h1 j hj))
    (by rw [powMod_eq hpos]; exact hg)
  refine (runs_randRange h2 hh).bind (h2 := 0) ((runs_randDirection hd).bind (d2 := []) (h2 := 0) (s2 := []) ?_)
  rw [hw, powMod_eq hpos]
  exact runs_pure _

/-! ### GENPG: the construction -/

theorem shiftUpTo_eq {L : Nat} (k : Nat) : ∀ fuel P sh, k ≤ fuel → (∀ j, j < k → bitlen (P * 2 ^ j) < L) →
    ¬bitlen (P * 2 ^ k) < L → shiftUpTo L fuel P sh = (P * 2 ^ k, sh + k) := by
  induction k with
  | zero =>
    intro fuel P sh _ _ h
    rw [pow_zero, mul_one] at h ⊢
    cases fuel with
    | zero => rfl
    | succ fuel => unfold shiftUpTo; rw [if_neg h]; rfl
  | succ k ih =>
    intro fuel P sh hf h1 h2
    obtain ⟨fuel, rfl⟩ : ∃ f, fuel = f + 1 := ⟨fuel - 1, by omega⟩
    have e : ∀ j, P <<< 1 * 2 ^ j = P * 2 ^ (j + 1) := fun j => by rw [Nat.shiftLeft_eq, pow_succ]; ring
    unfold shiftUpTo
    rw [if_pos (by simpa using h1 0 (by omega)),
      ih fuel (P <<< 1) (sh + 1) (by omega) (fun j hj => by rw [e]; exact h1 (j + 1) (by omega)) (by rw [e]; exact h2), e]
    congr 1
    omega

theorem pgOfPrimes_eq {L prime1 prime2 shift p : Nat} (hL : 1 ≤ L) (h : Shifted L prime1 prime2 shift p) :
    pgOfPrimes L prime1 prime2 = ⟨prime1, prime2, shift, p⟩ := by
  have hle : shift ≤ L := by
    obtain ⟨h1, h2⟩ := (bitlen_eq_iff hL).mp h.length
    have hpos : 0 < prime1 * prime2 * 2 ^ shift := (by positivity : 0 < 2 ^ (L - 1)).trans_le h1
    have h3 : 2 ^ shift ≤ prime1 * prime2 * 2 ^ shift := Nat.le_mul_of_pos_left _ (Nat.pos_of_mul_pos_right hpos)
    exact ((Nat.pow_lt_pow_iff_right (by omega)).mp (h3.trans_lt h2)).le
  unfold pgOfPrimes
  rw [shiftUpTo_eq shift L _ 0 hle h.noMore (by rw [h.length]; omega), h.value, Nat.zero_add]

theorem runs_pgTries {L prime1 left : Nat} {as : List Nat} {sent : List Request} {r : Option (Nat × Nat × Nat)}
    (hL : 1 ≤ L) (h : TriesRun L prime1 left as sent r) :
    Runs o (pgTries L prime1 left) as 0 sent (r.map fun t => PgPrime.mk prime1 t.1 t.2.1 t.2.2) := by
  induction h with
  | spent => exact runs_pure none
  | found left as bs sent prime2 shift p hr hs hp =>
    refine ((runs_randomPrime hr).bind (h2 := 0) (b := some (PgPrime.mk prime1 prime2 shift p)) ?_)
    dsimp only
    rw [pgOfPrimes_eq hL hs]
    exact ((runs_isPrime hp).bind (by rw [if_pos rfl]; exact runs_pure _)).eq (by simp) rfl (by simp)
  | composite left as bs cs sent sent' prime2 shift p r hr hs hp ht ih =>
    refine ((runs_randomPrime hr).bind (h2 := 0) (d2 := bs ++ cs) (s2 := witnessRequests p bs ++ sent') ?_).eq
      (by simp) rfl (by simp)
    dsimp only
    rw [pgOfPrimes_eq hL hs]
    exact (runs_isPrime hp).bind (h2 := 0) (by rw [if_neg (by simp)]; exact ih)

theorem RandomPrimeRun.draws_pos {bits p : Nat} {as : List Nat} {sent : List Request}
    (h : RandomPrimeRun bits as sent p) (hb : bits ≠ 1) : 0 < as.length := by
  cases h with
  | one h => exact absurd h hb
  | search => simp

theorem runs_pgSearch {L prime1 prime2 shift p : Nat} {as : List Nat} {sent : List Request} (hL : 4 ≤ L)
    (h : ConstructionRun L as sent prime1 prime2 shift p) : ∀ fuel, as.length < fuel →
    Runs o (pgSearch L fuel) as 0 sent ⟨prime1, prime2, shift, p⟩ := by
  induction h with
  | found as bs sent sent' prime1 prime2 shift p hr ht =>
    intro fuel hf
    obtain ⟨fuel, rfl⟩ : ∃ f, fuel = f + 1 := ⟨fuel - 1, by omega⟩
    refine (runs_randomPrime hr).bind (d2 := bs) (h2 := 0) (s2 := sent') ?_
    exact ((runs_pgTries (by omega) ht).bind (f := fun found => match found with
      | some c => pure c
      | none => pgSearch L fuel) (runs_pure _)).eq (d' := bs) (s' := sent') (by simp) rfl (by simp)
  | again as bs cs sent sent' sent'' prime1 r1 r2 sh p hr ht hc ih =>
    intro fuel hf
    obtain ⟨fuel, rfl⟩ : ∃ f, fuel = f + 1 := ⟨fuel - 1, by omega⟩
    have hpos := hr.draws_pos (by omega)
    refine ((runs_randomPrime hr).bind (h2 := 0) (d2 := bs ++ cs) (s2 := sent' ++ sent'') ?_).eq (by simp) rfl (by simp)
    exact (runs_pgTries (by omega) ht).bind (h2 := 0) (ih fuel (by simp at hf; omega))

/-! ### GENPG: the walk and the final check -/

theorem accepts_iff {prime1 prime2 shift p g : Nat} (hp : 0 < p) :
    (PgPrime.mk prime1 prime2 shift p).accepts g = true ↔ ThreeTests prime1 prime2 shift p g := by
  have h3 : (PgPrime.mk prime1 prime2 shift p).exprm3 = prime1 * prime2 * 2 ^ (shift - 1) := by
    unfold PgPrime.exprm3
    split
    · exact Nat.shiftLeft_eq _ _
    · rename_i h
      simp only [ge_iff_le, not_le, Nat.lt_one_iff] at h
      simp [h]
  simp [PgPrime.accepts, ThreeTests, PgPrime.exprm1, PgPrime.exprm2, h3, powMod_eq hp, Nat.shiftLeft_eq, and_assoc]

theorem pgWalk_found {c : PgPrime} (k : Nat) : ∀ fuel g, k < fuel → (∀ j, j < k → c.accepts (g + j) = false) →
    c.accepts (g + k) = true → pgWalk c fuel g = pure (g + k) := by
  induction k with
  | zero =>
    intro fuel g hf _ h
    obtain ⟨fuel, rfl⟩ : ∃ f, fuel = f + 1 := ⟨fuel - 1, by omega⟩
    unfold pgWalk
    exact if_pos h
  | succ k ih =>
    intro fuel g hf h1 h
    obtain ⟨fuel, rfl⟩ : ∃ f, fuel = f + 1 := ⟨fuel - 1, by omega⟩
    unfold pgWalk
    rw [if_neg (by simpa using h1 0 (by omega)),
      ih fuel (g + 1) (by omega) (fun j hj => by rw [Nat.add_assoc, Nat.add_comm 1]; exact h1 (j + 1) (by omega))
        (by rw [Nat.add_assoc, Nat.add_comm 1]; exact h)]
    congr 1
    omega

/-- "g = p is accepted here" (R243): every power of p is 0 modulo p. -/
theorem threeTests_self {prime1 prime2 shift p : Nat} (h1 : 0 < prime1) (h2 : 0 < prime2) :
    ThreeTests prime1 prime2 shift p p := by
  have h : ∀ e, 0 < e → p ^ e % p ≠ 1 := fun e he => by
    rw [Nat.mod_eq_zero_of_dvd (dvd_pow_self p (by omega))]
    exact Nat.zero_ne_one
  exact ⟨h _ (by positivity), h _ (by positivity), h _ (by positivity)⟩

theorem pgWalk_first {prime1 prime2 shift p base g : Nat} (hp : 2 ≤ p) (h1 : 0 < prime1) (h2 : 0 < prime2)
    (hb : base ≤ g) (hbp : base ≤ p) (hfail : ∀ j, base ≤ j → j < g → ¬ThreeTests prime1 prime2 shift p j)
    (hg : ThreeTests prime1 prime2 shift p g) :
    pgWalk ⟨prime1, prime2, shift, p⟩ (p + 1) base = pure g := by
  have hpos : 0 < p := by omega
  have hgp : g ≤ p := by
    by_contra hc
    exact hfail p hbp (by omega) (threeTests_self h1 h2)
  have := pgWalk_found (c := ⟨prime1, prime2, shift, p⟩) (g - base) (p + 1) base (by omega)
    (fun j hj => by
      rw [← Bool.not_eq_true, accepts_iff hpos]
      exact hfail _ (by omega) (by omega))
    (by rw [accepts_iff hpos, show base + (g - base) = g by omega]; exact hg)
  rw [this, show base + (g - base) = g by omega]

/-! ### What the construction gives -/

theorem TriesRun.spec {L prime1 left : Nat} {as : List Nat} {sent : List Request} {r : Option (Nat × Nat × Nat)}
    (hL : 128 ≤ L) (h : TriesRun L prime1 left as sent r) :
    ∀ t, r = some t → Shifted L prime1 t.1 t.2.1 t.2.2 ∧ t.1 % 2 = 1 ∧ 2 ^ (L / 2 - 2) < t.1 ∧ t.1 < 2 ^ (L / 2 - 1) ∧
      ∃ bs, IsPrimeRun t.2.2 Config.GEN_ROUNDS bs true := by
  induction h with
  | spent => intro t h; cases h
  | found left as bs sent prime2 shift p hr hs hp =>
    intro t h
    cases h
    obtain ⟨a, b, c⟩ := hr.spec (by omega)
    exact ⟨hs, a, b, c, bs, hp⟩
  | composite left as bs cs sent sent' prime2 shift p r hr hs hp ht ih => exact ih

theorem ConstructionRun.spec {L prime1 prime2 shift p : Nat} {as : List Nat} {sent : List Request} (hL : 128 ≤ L)
    (h : ConstructionRun L as sent prime1 prime2 shift p) :
    Shifted L prime1 prime2 shift p ∧ 0 < prime1 ∧ 0 < prime2 ∧ ∃ bs, IsPrimeRun p Config.GEN_ROUNDS bs true := by
  induction h with
  | found as bs sent sent' prime1 prime2 shift p hr ht =>
    obtain ⟨-, a, -⟩ := hr.spec (by omega)
    obtain ⟨b, -, c, -, d⟩ := ht.spec hL _ rfl
    exact ⟨b, Nat.zero_lt_of_lt a, Nat.zero_lt_of_lt c, d⟩
  | again as bs cs sent sent' sent'' prime1 r1 r2 sh p hr ht hc ih => exact ih

/-- p has exactly L bits and is odd (R241). -/
theorem Shifted.bounds {L prime1 prime2 shift p : Nat} (hL : 1 ≤ L) (h : Shifted L prime1 prime2 shift p) :
    2 ^ (L - 1) < p ∧ p ≤ 2 ^ L := by
  obtain ⟨h1, h2⟩ := (bitlen_eq_iff hL).mp h.length
  rw [h.value]
  omega

end Sys2Proof.Machine
end

