-- ==== Sys2Proof/Laws/Bounds.lean ====
section
/-! SUPPORT. What every part of an algorithm keeps: the requests it sends are legal (R76, R77, R83), it waits for the
request it sent last (R75), and its result is in the range its rule gives (R129). -/

namespace Sys2Proof.Machine

variable {α β : Type} {w : Config.Width}

/-- The part sends legal requests only, waits only for the last one, and its result satisfies `Q`. -/
structure Bounded (w : Config.Width) (Q : α → Prop) (m : Engine α) : Prop where
  sends : ∀ p, ∃ new, (portsAfter (m.run p)).sent = new ++ p.sent ∧ ∀ r ∈ new, r.Legal w.nbits
  waits : ∀ p r q, m.run p = .error (.wait r) q → q.sent.head? = some r
  gives : ∀ p a q, m.run p = .ok a q → Q a

theorem bounded_pure {Q : α → Prop} {a : α} (h : Q a) : Bounded w Q (pure a : Engine α) :=
  ⟨fun p => ⟨[], rfl, by simp⟩, fun p r q h => by simp at h, fun p b q hb => by rw [pure_ok_inv hb]; exact h⟩

theorem bounded_raise {Q : α → Prop} (e : ErrorKind) (info : Word) : Bounded w Q (raise e info : Engine α) :=
  ⟨fun p => ⟨[], rfl, by simp⟩, fun p r q h => by simp at h, fun p b q hb => by simp at hb⟩

theorem bounded_never {Q : α → Prop} : Bounded w Q (never : Engine α) :=
  ⟨fun p => ⟨[], rfl, by simp⟩, fun p r q h => by simp at h, fun p b q hb => by simp at hb⟩

theorem bounded_bind {Q : α → Prop} {R : β → Prop} {m : Engine α} {f : α → Engine β} (hm : Bounded w Q m)
    (hf : ∀ a, Q a → Bounded w R (f a)) : Bounded w R (m >>= f) := by
  refine ⟨fun p => ?_, fun p r q h => ?_, fun p b q h => ?_⟩
  · obtain ⟨new, hn, hl⟩ := hm.sends p
    cases hp : m.run p with
    | ok a q =>
      obtain ⟨new', hn', hl'⟩ := (hf a (hm.gives p a q hp)).sends q
      rw [bind_ok hp]
      rw [hp, portsAfter_ok] at hn
      refine ⟨new' ++ new, by rw [hn', hn, List.append_assoc], fun r hr => ?_⟩
      rcases List.mem_append.mp hr with hr | hr
      · exact hl' r hr
      · exact hl r hr
    | error e q =>
      rw [bind_error hp]
      rw [hp] at hn
      exact ⟨new, hn, hl⟩
  · cases hp : m.run p with
    | ok a q' => rw [bind_ok hp] at h; exact (hf a (hm.gives p a q' hp)).waits _ _ _ h
    | error e q' => rw [bind_error hp] at h; cases h; exact hm.waits _ _ _ hp
  · obtain ⟨a, q', h1, h2⟩ := bind_ok_inv h
    exact (hf a (hm.gives p a q' h1)).gives _ _ _ h2

theorem bounded_ite {Q : α → Prop} {c : Prop} [Decidable c] {m n : Engine α} (hm : c → Bounded w Q m)
    (hn : ¬c → Bounded w Q n) : Bounded w Q (if c then m else n) := by
  split
  · exact hm ‹_›
  · exact hn ‹_›

theorem Bounded.mono {Q R : α → Prop} {m : Engine α} (h : Bounded w Q m) (hQR : ∀ a, Q a → R a) : Bounded w R m :=
  ⟨h.sends, h.waits, fun p a q hm => hQR a (h.gives p a q hm)⟩

theorem bounded_draw {r : Request} {range : Nat → Bool} (hr : r.Legal w.nbits) :
    Bounded w (fun v => range v = true) (draw r range) := by
  refine ⟨fun p => ?_, fun p r' q h => ?_, fun p v q h => (draw_consumes h).2⟩
  · refine ⟨[r], ?_, by simpa using hr⟩
    cases hp : p.rand with
    | nil => rw [draw_nil hp]; rfl
    | cons v rest =>
      cases hv : range v with
      | true => rw [draw_good hp hv]; rfl
      | false => rw [draw_bad hp hv]; rfl
  · cases hp : p.rand with
    | nil => rw [draw_nil hp] at h; cases h; rfl
    | cons v rest =>
      cases hv : range v with
      | true => rw [draw_good hp hv] at h; cases h
      | false => rw [draw_bad hp hv] at h; cases h

theorem bounded_randBits {k : Nat} (h1 : 1 ≤ k) (h2 : k ≤ w.nbits) :
    Bounded w (fun v => v < 2 ^ k) (randBits k) :=
  (bounded_draw (r := .randBits k) ⟨h1, h2⟩).mono fun v hv => by simpa using hv

theorem bounded_randRange {lo hi : Nat} (h1 : lo ≤ hi) (h2 : hi < 2 ^ w.nbits) :
    Bounded w (fun v => lo ≤ v ∧ v ≤ hi) (randRange lo hi) :=
  (bounded_draw (r := .randRange lo hi) ⟨h1, h2⟩).mono fun v hv => by simpa using hv

theorem bounded_randDirection : Bounded w (fun _ => True) randDirection :=
  bounded_bind (bounded_randBits le_rfl (by have := width_facts w; omega)) fun _ _ => bounded_pure trivial

theorem bounded_hashRequest {msg : List Byte} (h : (Request.hash msg).Legal w.nbits) :
    Bounded w (fun _ => True) (hashRequest msg) := by
  refine ⟨fun p => ?_, fun p r' q h => ?_, fun _ _ _ _ => trivial⟩
  · refine ⟨[.hash msg], ?_, by simpa using h⟩
    cases hp : p.hash with
    | zero => rw [hashRequest_zero hp]; rfl
    | succ n => rw [hashRequest_succ hp]; rfl
  · cases hp : p.hash with
    | zero => rw [hashRequest_zero hp] at h; cases h; rfl
    | succ n => rw [hashRequest_succ hp] at h; cases h

theorem bounded_hashInt {v S : Nat} (h1 : 1 ≤ S) (h2 : S ≤ w.nbits) :
    Bounded w (fun V => V < 2 ^ Config.OUTLEN) (hashInt v S) := by
  refine bounded_bind (bounded_hashRequest ?_) fun d _ => bounded_pure (digest_lt d)
  show 1 ≤ (i2be _ _).length ∧ (i2be _ _).length ≤ _
  rw [i2be_length]
  unfold seedBytes
  have := width_facts w
  omega

theorem bounded_whileAnswered {Q : α → Prop} {loop : Nat → Engine α} (h : ∀ fuel, Bounded w Q (loop fuel)) :
    Bounded w Q (whileAnswered loop) :=
  ⟨fun p => (h _).sends p, fun p => (h _).waits p, fun p => (h _).gives p⟩

/-- 2^NBITS is even. -/
theorem two_pow_nbits_even (w : Config.Width) : 2 ^ w.nbits % 2 = 0 :=
  Nat.mod_eq_zero_of_dvd (dvd_pow_self 2 (by have := width_facts w; omega))

/-! ### Primality -/

theorem bounded_mrRounds {n d r : Nat} (h1 : 4 ≤ n) (h2 : n < 2 ^ w.nbits) (k : Nat) :
    Bounded w (fun _ => True) (mrRounds n d r k) := by
  induction k with
  | zero => exact bounded_pure trivial
  | succ k ih =>
    exact bounded_bind (bounded_randRange (by omega) (by omega)) fun _ _ => bounded_ite (fun _ => ih)
      fun _ => bounded_pure trivial

theorem bounded_isPrime {n : Nat} (rounds : Nat) (h : n < 2 ^ w.nbits) :
    Bounded w (fun _ => True) (isPrime n rounds) := by
  unfold isPrime
  by_cases ht : TableDecides n
  · rw [(sieve_spec n).1 ht]
    split
    · exact bounded_pure trivial
    · exact bounded_pure trivial
    · rename_i h
      split at h <;> cases h
  · obtain ⟨h1, -⟩ := undecided_facts ht
    rw [(sieve_spec n).2 ht]
    exact bounded_mrRounds (by omega) h _

theorem bounded_nextPrimeWalk (rounds fuel n : Nat) (h : n < 2 ^ w.nbits) :
    Bounded w (fun p => p < 2 ^ w.nbits) (nextPrimeWalk w.nbits rounds fuel n) := by
  induction fuel generalizing n with
  | zero => exact bounded_never
  | succ fuel ih =>
    exact bounded_bind (bounded_isPrime _ h) fun _ _ => bounded_ite (fun _ => bounded_pure h) fun _ =>
      bounded_ite (fun _ => bounded_raise _ _) fun h' => ih _ (by omega)

/-! ### Prime generator -/

/-- An odd number of exactly `bits` bits. -/
def OddBits (bits p : Nat) : Prop := p % 2 = 1 ∧ 2 ^ (bits - 1) < p ∧ p < 2 ^ bits

theorem bounded_randomPrimeSearch {bits : Nat} {up : Bool} (hb : 2 ≤ bits) (hN : bits ≤ w.nbits) (fuel : Nat) :
    ∀ k, k < 2 ^ (bits - 2) → Bounded w (OddBits bits) (randomPrimeSearch bits up fuel (oddOf bits k)) := by
  induction fuel with
  | zero => intro k _; exact bounded_never
  | succ fuel ih =>
    intro k hk
    have hf := oddOf_facts hb hk
    have hN' : 2 ^ bits ≤ 2 ^ w.nbits := Nat.pow_le_pow_right (by omega) hN
    obtain ⟨h1, h2⟩ := stepBits_oddOf up hb hk
    refine bounded_bind (bounded_isPrime _ (by omega)) fun _ _ => bounded_ite (fun _ => bounded_pure hf) fun _ => ?_
    rw [h1]
    exact ih _ h2

theorem bounded_randomPrime {bits : Nat} (hb : 2 ≤ bits) (hN : bits ≤ w.nbits) :
    Bounded w (OddBits bits) (randomPrime bits) := by
  rw [randomPrime, if_neg (by omega)]
  refine bounded_bind (bounded_randBits (by omega) hN) fun v hv => bounded_bind bounded_randDirection fun up _ => ?_
  obtain ⟨k, hk, hc⟩ := mkcand_oddOf hb hv
  rw [hc]
  exact bounded_randomPrimeSearch hb hN _ k hk

theorem stepRange_le {cand mn mx : Nat} {up : Bool} (h1 : mn ≤ mx) (h2 : cand ≤ mx) : stepRange cand up mn mx ≤ mx := by
  unfold stepRange
  split
  · split <;> omega
  · split
    · omega
    · split <;> omega

theorem bounded_rangeSearch {up : Bool} {mn mx : Nat} (h1 : mn ≤ mx) (hN : mx < 2 ^ w.nbits) (c : Nat) :
    ∀ cand, cand ≤ mx → Bounded w (fun p => p ≤ mx) (rangeSearch up mn mx c cand) := by
  induction c with
  | zero =>
    intro cand h
    exact bounded_bind (bounded_isPrime _ (by omega)) fun _ _ => bounded_ite (fun _ => bounded_pure h)
      fun _ => bounded_raise _ _
  | succ c ih =>
    intro cand h
    exact bounded_bind (bounded_isPrime _ (by omega)) fun _ _ => bounded_ite (fun _ => bounded_pure h) fun _ =>
      bounded_ite (fun _ => bounded_raise _ _) fun _ => ih _ (stepRange_le h1 h)

theorem bounded_rangeCandidate {mn mx : Nat} (hN : mx < 2 ^ w.nbits) (fuel : Nat) :
    Bounded w (fun p => p ≤ mx) (rangeCandidate mn mx ((mx - mn) / 2) fuel) := by
  induction fuel with
  | zero => exact bounded_never
  | succ fuel ih =>
    exact bounded_bind (bounded_randRange (Nat.zero_le _) (by omega)) fun _ _ =>
      bounded_ite (fun h => bounded_pure h) fun _ => ih

theorem normMax_lt {max : Nat} (h : max < 2 ^ w.nbits) : normMax max < 2 ^ w.nbits := by
  have := two_pow_nbits_even w
  unfold normMax
  split <;> omega

theorem bounded_randomPrimeRange {min max : Nat} (h : max < 2 ^ w.nbits) :
    Bounded w (fun p => p < 2 ^ w.nbits) (randomPrimeRange min max) := by
  have hN := normMax_lt h
  refine bounded_ite (fun _ => bounded_pure ?_) fun hs => ?_
  · exact Nat.lt_of_lt_of_le (by omega : 2 < 2 ^ 2) (Nat.pow_le_pow_right (by omega) (by have := width_facts w; omega))
  · obtain ⟨h1, -⟩ := norm_facts (by simpa using hs)
    exact bounded_bind (bounded_whileAnswered (bounded_rangeCandidate hN)) fun cand hc =>
      bounded_bind bounded_randDirection fun _ _ =>
        (bounded_rangeSearch h1 hN _ cand hc).mono fun p hp => by omega

/-! ### Domain parameters -/

theorem qOfHash_bounds {N U : Nat} (hN : 2 ≤ N) :
    qOfHash N U % 2 = 1 ∧ 2 ^ (N - 1) < qOfHash N U ∧ qOfHash N U < 2 ^ N := by
  obtain ⟨h1, h2⟩ := two_pow_split hN
  have h3 : U % 2 ^ (N - 1) % 2 = U % 2 := Nat.mod_mod_of_dvd U (dvd_pow_self 2 (by omega))
  have h4 : U % 2 ^ (N - 1) < 2 ^ (N - 1) := Nat.mod_lt _ (by positivity)
  unfold qOfHash
  omega

theorem bounded_deriveQ {seed S N : Nat} (h1 : 1 ≤ S) (h2 : S ≤ w.nbits) (hN : 2 ≤ N) :
    Bounded w (OddBits N) (deriveQ seed S N) :=
  bounded_bind (bounded_hashInt h1 h2) fun _ _ => bounded_pure (qOfHash_bounds hN)

theorem streamTerm_lt {n b j V : Nat} (hV : V < 2 ^ Config.OUTLEN) :
    (j < n → streamTerm n b j V + 2 ^ (j * Config.OUTLEN) ≤ 2 ^ ((j + 1) * Config.OUTLEN)) ∧
      (j = n → streamTerm n b j V + 2 ^ (j * Config.OUTLEN) ≤ 2 ^ (n * Config.OUTLEN + b)) := by
  have key : ∀ c a k : Nat, a < 2 ^ k → a * 2 ^ c + 2 ^ c ≤ 2 ^ (c + k) := by
    intro c a k h
    rw [pow_add, mul_comm (2 ^ c), ← Nat.succ_mul]
    exact Nat.mul_le_mul_right _ h
  unfold streamTerm
  constructor
  · intro h
    rw [if_neg (by omega), Nat.shiftLeft_eq, show (j + 1) * Config.OUTLEN = j * Config.OUTLEN + Config.OUTLEN by ring]
    exact key _ _ _ hV
  · intro h
    subst h
    rw [if_pos rfl, Nat.shiftLeft_eq]
    exact key _ _ _ (Nat.mod_lt _ (by positivity))

theorem bounded_assembleW {seed S offset n b : Nat} (h1 : 1 ≤ S) (h2 : S ≤ w.nbits) (left : Nat) :
    ∀ j W, j + left = n + 1 → (left ≠ 0 → W < 2 ^ (j * Config.OUTLEN)) →
      (left = 0 → W < 2 ^ (n * Config.OUTLEN + b)) →
      Bounded w (fun W => W < 2 ^ (n * Config.OUTLEN + b)) (assembleW seed S offset n b left j W) := by
  induction left with
  | zero => intro j W _ _ h; exact bounded_pure (h rfl)
  | succ left ih =>
    intro j W hj hW _
    have hW := hW (by omega)
    refine bounded_bind (bounded_hashInt h1 h2) fun V hV => ih (j + 1) _ (by omega) ?_ ?_
    · intro h0
      have := (streamTerm_lt (n := n) (b := b) (j := j) hV).1 (by omega)
      omega
    · intro h0
      have := (streamTerm_lt (n := n) (b := b) (j := j) hV).2 (by omega)
      omega

/-- p is below 2^L, odd, and 1 modulo 2q (R206). -/
theorem pOfStream_facts {L q W : Nat} (hL : 2 ≤ L) (hW : W < 2 ^ (L - 1)) :
    pOfStream L q W < 2 ^ L ∧ pOfStream L q W % (2 * q) = 1 % (2 * q) ∧ pOfStream L q W % 2 = 1 ∧ q ∣ pOfStream L q W - 1 := by
  obtain ⟨h1, h2⟩ := two_pow_split hL
  have hle := Nat.mod_le (W + 2 ^ (L - 1)) (2 * q)
  have hX : W + 2 ^ (L - 1) = 2 * q * ((W + 2 ^ (L - 1)) / (2 * q)) + (W + 2 ^ (L - 1)) % (2 * q) :=
    (Nat.div_add_mod _ _).symm
  have hp : pOfStream L q W = 1 + 2 * q * ((W + 2 ^ (L - 1)) / (2 * q)) := by
    unfold pOfStream
    dsimp only
    omega
  refine ⟨?_, ?_, ?_, ?_⟩
  · rw [hp]
    rw [mul_assoc] at hX ⊢
    generalize q * ((W + 2 ^ (L - 1)) / (2 * q)) = z at *
    omega
  · rw [hp, Nat.add_mul_mod_self_left]
  · rw [hp, mul_assoc]; omega
  · rw [hp, Nat.add_sub_cancel_left, mul_comm 2 q, mul_assoc]
    exact dvd_mul_right _ _

theorem streamN_add_streamB {L : Nat} (hL : 1 ≤ L) : streamN L * Config.OUTLEN + streamB L = L - 1 := by
  unfold streamB
  rw [streamN_eq hL]
  unfold lastDigest Config.OUTLEN
  omega

theorem bounded_deriveP {seed S offset L q : Nat} (h1 : 1 ≤ S) (h2 : S ≤ w.nbits) (hL : 2 ≤ L) :
    Bounded w (fun pok : Nat × Bool => pok.1 < 2 ^ L) (deriveP seed S offset L q) := by
  have hW := bounded_assembleW (seed := seed) (offset := offset) (n := streamN L) (b := streamB L) h1 h2 (streamN L + 1)
    0 0 (by omega) (by intro; simp) (by omega)
  rw [streamN_add_streamB (by omega)] at hW
  exact bounded_bind hW fun W h => bounded_pure (pOfStream_facts hL h).1

theorem bounded_genpqInner {seed S L q : Nat} (h1 : 1 ≤ S) (h2 : S ≤ w.nbits) (hL : 2 ≤ L)
    (hN : L ≤ w.nbits) (left : Nat) :
    ∀ offset, Bounded w (fun r : Option Nat => ∀ p, r = some p → p < 2 ^ L) (genpqInner seed S L q left offset) := by
  have hN' : 2 ^ L ≤ 2 ^ w.nbits := Nat.pow_le_pow_right (by omega) hN
  induction left with
  | zero => intro offset; exact bounded_pure (by simp)
  | succ left ih =>
    intro offset
    refine bounded_bind (bounded_deriveP h1 h2 hL) fun pok hp => bounded_bind (Q := fun _ => True) ?_ fun b _ =>
      bounded_ite (fun _ => bounded_pure (by simpa using hp)) fun _ => ih _
    exact bounded_ite (fun _ => bounded_isPrime _ (by omega)) fun _ => bounded_pure trivial

theorem bounded_genpqOuter {L N S : Nat} (h1 : 1 ≤ S) (h2 : S ≤ w.nbits) (hL : 2 ≤ L) (hN : L ≤ w.nbits)
    (hN2 : 2 ≤ N) (hNN : N ≤ w.nbits) (fuel : Nat) :
    Bounded w (fun pq : Nat × Nat => pq.1 < 2 ^ L ∧ pq.2 < 2 ^ N) (genpqOuter L N S fuel) := by
  have hN' : 2 ^ N ≤ 2 ^ w.nbits := Nat.pow_le_pow_right (by omega) hNN
  induction fuel with
  | zero => exact bounded_never
  | succ fuel ih =>
    refine bounded_bind (bounded_randBits h1 h2) fun seed _ => bounded_bind (bounded_deriveQ h1 h2 hN2) fun q hq =>
      bounded_bind (bounded_isPrime _ (hq.2.2.trans_le hN')) fun _ _ => bounded_ite (fun _ => ?_) fun _ => ih
    refine bounded_bind (bounded_genpqInner h1 h2 hL hN _ _) fun found hf => ?_
    cases found with
    | some p => exact bounded_pure ⟨hf p rfl, hq.2.2⟩
    | none => exact ih

theorem bounded_generateG {p q : Nat} (h4 : 4 ≤ p) (hN : p < 2 ^ w.nbits) :
    Bounded w (fun g => g < p) (generateG p q) := by
  refine bounded_bind (bounded_randRange (by omega) (by omega)) fun h hr => bounded_bind bounded_randDirection fun up _ => ?_
  clear hr
  generalize p - 3 = fuel
  induction fuel generalizing h with
  | zero => exact bounded_never
  | succ fuel ih => exact bounded_ite (fun _ => bounded_pure (powMod_lt (by omega))) fun _ => ih _

/-! ### Alternative generator -/

theorem bitlen_shift {P : Nat} (hP : 0 < P) : bitlen (P <<< 1) = bitlen P + 1 := by
  have h1 : 1 ≤ bitlen P := by have := (lt_bitlen_iff (v := P) (k := 0)).mpr (by rw [pow_zero]; exact hP); omega
  obtain ⟨h2, h3⟩ := (bitlen_eq_iff h1).mp rfl
  rw [bitlen_eq_iff (by omega), Nat.shiftLeft_eq, Nat.add_sub_cancel, pow_one, pow_succ]
  refine ⟨?_, by omega⟩
  have : 2 ^ bitlen P = 2 ^ (bitlen P - 1) * 2 := by rw [← pow_succ]; congr 1; omega
  omega

theorem shiftUpTo_spec {L : Nat} (fuel : Nat) : ∀ P sh, 0 < P → bitlen P ≤ L → L ≤ bitlen P + fuel →
    (shiftUpTo L fuel P sh).1 = P * 2 ^ ((shiftUpTo L fuel P sh).2 - sh) ∧ sh ≤ (shiftUpTo L fuel P sh).2 ∧
      (shiftUpTo L fuel P sh).2 - sh = L - bitlen P ∧ bitlen (shiftUpTo L fuel P sh).1 = L := by
  induction fuel with
  | zero => intro P sh hP h1 h2; simp [shiftUpTo]; omega
  | succ fuel ih =>
    intro P sh hP h1 h2
    unfold shiftUpTo
    split
    · have hb := bitlen_shift hP
      obtain ⟨h3, h4, h5, h6⟩ := ih (P <<< 1) (sh + 1) (by rw [Nat.shiftLeft_eq]; omega) (by omega) (by omega)
      have h7 : (shiftUpTo L fuel (P <<< 1) (sh + 1)).2 - sh
          = ((shiftUpTo L fuel (P <<< 1) (sh + 1)).2 - (sh + 1)) + 1 := by omega
      refine ⟨?_, by omega, by omega, h6⟩
      rw [h7, h3, Nat.shiftLeft_eq, pow_one, mul_assoc, ← pow_succ']
    · simp; omega

/-- What R241 says of p: L bits, odd, at least one shift. -/
theorem pgOfPrimes_facts {L prime1 prime2 : Nat} (hL : 128 ≤ L) (h1 : OddBits (L / 2) prime1)
    (h2 : OddBits (L / 2 - 1) prime2) :
    2 ^ (L - 1) < (pgOfPrimes L prime1 prime2).p ∧ (pgOfPrimes L prime1 prime2).p < 2 ^ L ∧
      (pgOfPrimes L prime1 prime2).p % 2 = 1 ∧ 1 ≤ (pgOfPrimes L prime1 prime2).shift := by
  have hpos : 0 < prime1 * prime2 := Nat.mul_pos (Nat.zero_lt_of_lt h1.2.1) (Nat.zero_lt_of_lt h2.2.1)
  have hlt : bitlen (prime1 * prime2) < L := by
    refine Nat.lt_of_le_of_lt (bitlen_le_iff.mpr (Nat.mul_lt_mul'' h1.2.2 h2.2.2 |>.trans_eq (pow_add 2 _ _).symm)) ?_
    omega
  obtain ⟨h3, h4, h5, h6⟩ := shiftUpTo_spec (L := L) L (prime1 * prime2) 0 hpos (by omega) (by omega)
  obtain ⟨h7, h8⟩ := (bitlen_eq_iff (by omega)).mp h6
  have hpow : 2 ^ L = 2 * 2 ^ (L - 1) := by rw [← pow_succ']; congr 1; omega
  have heven : (shiftUpTo L L (prime1 * prime2) 0).1 % 2 = 0 := by
    rw [h3]
    exact Nat.mod_eq_zero_of_dvd (Dvd.dvd.mul_left (dvd_pow_self 2 (by omega)) _)
  simp only [pgOfPrimes]
  omega

/-- The working values the construction ends with. -/
def PgGood (L : Nat) (c : PgPrime) : Prop := 2 ^ (L - 1) < c.p ∧ c.p < 2 ^ L ∧ 0 < c.prime1 ∧ 0 < c.prime2

theorem bounded_pgTries {L prime1 : Nat} (hL : 128 ≤ L) (hN : L ≤ w.nbits) (h1 : OddBits (L / 2) prime1) (left : Nat) :
    Bounded w (fun r : Option PgPrime => ∀ c, r = some c → PgGood L c) (pgTries L prime1 left) := by
  have hN' : 2 ^ L ≤ 2 ^ w.nbits := Nat.pow_le_pow_right (by omega) hN
  induction left with
  | zero => exact bounded_pure (by simp)
  | succ left ih =>
    refine bounded_bind (bounded_randomPrime (by omega) (by omega)) fun prime2 h2 => ?_
    obtain ⟨h3, h4, -, -⟩ := pgOfPrimes_facts hL h1 h2
    refine bounded_bind (bounded_isPrime _ (h4.trans_le hN')) fun b _ => bounded_ite (fun _ => bounded_pure ?_) fun _ => ih
    rintro c hc
    cases hc
    exact ⟨h3, h4, Nat.zero_lt_of_lt h1.2.1, Nat.zero_lt_of_lt h2.2.1⟩

theorem bounded_pgSearch {L : Nat} (hL : 128 ≤ L) (hN : L ≤ w.nbits) (fuel : Nat) :
    Bounded w (PgGood L) (pgSearch L fuel) := by
  induction fuel with
  | zero => exact bounded_never
  | succ fuel ih =>
    refine bounded_bind (bounded_randomPrime (by omega) (by omega)) fun prime1 h1 =>
      bounded_bind (bounded_pgTries hL hN h1 _) fun found hf => ?_
    cases found with
    | some c => exact bounded_pure (hf c rfl)
    | none => exact ih

theorem bounded_pgWalk {c : PgPrime} (hp : 0 < c.p) (h1 : 0 < c.prime1) (h2 : 0 < c.prime2) (fuel : Nat) :
    ∀ g, g ≤ c.p → Bounded w (fun g => g ≤ c.p) (pgWalk c fuel g) := by
  obtain ⟨prime1, prime2, shift, p⟩ := c
  induction fuel with
  | zero => intro g _; exact bounded_never
  | succ fuel ih =>
    intro g hg
    refine bounded_ite (fun _ => bounded_pure hg) fun ha => ih _ ?_
    rcases Nat.lt_or_eq_of_le hg with h | h
    · exact h
    · exact absurd ((accepts_iff hp).mpr (threeTests_self h1 h2)) (by rw [h] at ha; exact ha)

/-! ### The commands -/

/-- Every value a result names fits a register (R129). -/
structure Result.Fits (nbits : Nat) (r : Result) : Prop where
  x0 : ∀ v, r.x0 = some v → v < 2 ^ nbits
  x1 : ∀ v, r.x1 = some v → v < 2 ^ nbits
  x2 : ∀ v, r.x2 = some v → v < 2 ^ nbits
  x3 : ∀ v, r.x3 = some v → v < 2 ^ nbits

theorem two_pow_le_nbits {L : Nat} (h : L ≤ w.nbits) : 2 ^ L ≤ 2 ^ w.nbits :=
  Nat.pow_le_pow_right (by omega) h

theorem pq_facts {L N : Nat} (h : (L, N) ∈ Config.PQ_PAIRS) :
    2 ≤ L ∧ L ≤ w.nbits ∧ 2 ≤ N ∧ N ≤ w.nbits := by
  simp only [Config.PQ_PAIRS, List.mem_cons, List.not_mem_nil, or_false, Prod.mk.injEq] at h
  have := width_facts w
  omega

/-- Every command whose operands fit: legal requests, results that fit. -/
theorem bodyOf_bounded (i : Instr) (s : State) (hx : ∀ k ∈ operandRegisters i, s.x k < 2 ^ s.nbits) :
    Bounded s.width (Result.Fits s.nbits) (bodyOf i s) := by
  have hw : s.nbits = s.width.nbits := rfl
  rw [hw] at hx ⊢
  cases i with
  | isprime => exact bounded_bind (bounded_isPrime _ (hx 0 (by decide))) fun _ _ => bounded_pure (by constructor <;> simp)
  | nextprime =>
    have heven := two_pow_nbits_even s.width
    refine bounded_bind (bounded_nextPrimeWalk _ _ _ ?_) fun p hp => bounded_pure (by constructor <;> simp [hp])
    have := hx 0 (by decide)
    split <;> omega
  | rndprime =>
    refine bounded_ite (fun _ => bounded_raise _ _) fun h0 => bounded_ite (fun _ => bounded_raise _ _) fun h1 => ?_
    by_cases hb : s.paramNat .bits = 1
    · rw [randomPrime, if_pos hb]
      refine bounded_bind (bounded_pure (Q := fun v => v = 1) rfl) fun p hp => bounded_pure ?_
      subst hp
      have : 1 < 2 ^ s.width.nbits := Nat.one_lt_two_pow (by have := width_facts s.width; omega)
      constructor <;> simp [this]
    · refine bounded_bind (bounded_randomPrime (by omega) (by omega)) fun p hp => bounded_pure ?_
      have := hp.2.2.trans_le (two_pow_le_nbits (w := s.width) (by omega))
      constructor <;> simp [this]
  | rndprimer =>
    exact bounded_bind (bounded_randomPrimeRange (hx 2 (by decide))) fun p hp => bounded_pure (by constructor <;> simp [hp])
  | genpq =>
    refine bounded_ite (fun _ => bounded_raise _ _) fun h0 => bounded_ite (fun _ => bounded_raise _ _) fun h1 =>
      bounded_ite (fun _ => bounded_raise _ _) fun h2 => ?_
    obtain ⟨a, b, c, d⟩ := pq_facts (not_not.mp h0)
    refine bounded_bind (bounded_whileAnswered (bounded_genpqOuter (by omega) (by omega) a b c d)) fun pq hpq =>
      bounded_pure ?_
    have e := hpq.1.trans_le (two_pow_le_nbits (w := s.width) b)
    have f := hpq.2.trans_le (two_pow_le_nbits (w := s.width) d)
    constructor <;> simp [e, f]
  | geng =>
    refine bounded_ite (fun _ => bounded_raise _ _) fun h0 => bounded_ite (fun _ => bounded_raise _ _) fun h1 => ?_
    refine bounded_bind (bounded_generateG (by omega) (hx 0 (by decide))) fun g hg => bounded_pure ?_
    have := hg.trans (hx 0 (by decide))
    constructor <;> simp [this]
  | verifyg => exact bounded_pure (by constructor <;> simp)
  | genpg =>
    show Bounded _ _ (bodyGenpg s)
    unfold bodyGenpg
    by_cases h0 : s.paramNat .bits < Config.PG_MIN_BITS
    · simp only [h0, if_true]; exact bounded_raise _ _
    simp only [h0, if_false]
    refine bounded_ite (fun _ => bounded_raise _ _) fun h1 => ?_
    have hL : 128 ≤ s.paramNat .bits := by simp only [Config.PG_MIN_BITS] at h0; omega
    refine bounded_bind (bounded_whileAnswered (bounded_pgSearch hL (by omega))) fun c hc => ?_
    have hpN := hc.2.1.trans_le (two_pow_le_nbits (w := s.width) (by omega))
    have hp4 : 2 ^ 2 ≤ 2 ^ (s.paramNat .bits - 1) := Nat.pow_le_pow_right (by omega) (by omega)
    have hp := hc.1
    refine bounded_bind (bounded_randRange (by omega) (by omega)) fun base hb => ?_
    refine bounded_bind (bounded_pgWalk (by omega) hc.2.2.1 hc.2.2.2 _ _ (by omega)) fun g hg => ?_
    refine bounded_ite (fun _ => bounded_raise _ _) fun _ => bounded_pure ?_
    have := Nat.lt_of_le_of_lt hg hpN
    constructor <;> simp [this, hpN]
  | powmod =>
    refine bounded_ite (fun _ => bounded_raise _ _) fun h0 => bounded_pure ?_
    have := (powMod_lt (a := s.x 2) (e := s.x 1) (Nat.pos_of_ne_zero h0)).trans (hx 0 (by decide))
    constructor <;> simp [this]
  | sieve => exact bounded_pure (by constructor <;> simp)
  | mrwit =>
    exact bounded_ite (fun _ => bounded_raise _ _) fun _ => bounded_ite (fun _ => bounded_raise _ _) fun _ =>
      bounded_pure (by constructor <;> simp)
  | seedq =>
    refine bounded_ite (fun _ => bounded_raise _ _) fun h0 => bounded_ite (fun _ => bounded_raise _ _) fun h1 =>
      bounded_ite (fun _ => bounded_raise _ _) fun h2 => ?_
    refine bounded_bind (bounded_deriveQ (by omega) (by omega) (by omega)) fun q hq => bounded_pure ?_
    have := hq.2.2.trans_le (two_pow_le_nbits (w := s.width) (by omega))
    constructor <;> simp [this]
  | seedp =>
    refine bounded_ite (fun _ => bounded_raise _ _) fun h0 => bounded_ite (fun _ => bounded_raise _ _) fun h1 =>
      bounded_ite (fun _ => bounded_raise _ _) fun h2 => bounded_ite (fun _ => bounded_raise _ _) fun h3 => ?_
    refine bounded_bind (bounded_deriveP (by omega) (by omega) (by omega)) fun pok hp => bounded_pure ?_
    have := hp.trans_le (two_pow_le_nbits (w := s.width) (by omega))
    constructor <;> simp [this]

end Sys2Proof.Machine
end

