-- ==== Sys2Proof/Laws/Ends.lean ====
section
/-! SUPPORT. Every loop but the walk of GENG ends: with the answers that are ready a run gives a result, raises, or waits
(R304, R310). -/

namespace Sys2Proof.Machine

variable {α β : Type}

/-- The run did not meet a loop that never ends. -/
def NotNever (r : EStateM.Result Stop Ports α) : Prop := ∀ q, r ≠ .error .never q

/-- The part never meets such a loop. -/
def Ends (m : Engine α) : Prop := ∀ p, NotNever (m.run p)

theorem notNever_bind {m : Engine α} {f : α → Engine β} {p : Ports} (hm : NotNever (m.run p))
    (hf : ∀ a q, m.run p = .ok a q → NotNever ((f a).run q)) : NotNever ((m >>= f).run p) := by
  intro q h
  cases hp : m.run p with
  | ok a q' => rw [bind_ok hp] at h; exact hf a q' hp q h
  | error e q' => rw [bind_error hp] at h; cases h; exact hm q hp

theorem ends_bind {m : Engine α} {f : α → Engine β} (hm : Ends m) (hf : ∀ a, Ends (f a)) : Ends (m >>= f) :=
  fun p => notNever_bind (hm p) fun a q _ => hf a q

theorem ends_pure (a : α) : Ends (pure a : Engine α) := fun p q h => by simp at h

theorem ends_raise (e : ErrorKind) (info : Word) : Ends (raise e info : Engine α) := fun p q h => by simp at h

theorem ends_ite {c : Prop} [Decidable c] {m n : Engine α} (hm : c → Ends m) (hn : ¬c → Ends n) :
    Ends (if c then m else n) := by
  split
  · exact hm ‹_›
  · exact hn ‹_›

theorem ends_draw (r : Request) (range : Nat → Bool) : Ends (draw r range) := by
  intro p q h
  cases hp : p.rand with
  | nil => rw [draw_nil hp] at h; cases h
  | cons v rest =>
    cases hv : range v with
    | true => rw [draw_good hp hv] at h; cases h
    | false => rw [draw_bad hp hv] at h; cases h

theorem ends_randDirection : Ends randDirection := ends_bind (ends_draw _ _) fun _ => ends_pure _

theorem ends_hashInt (v S : Nat) : Ends (hashInt v S) := by
  refine ends_bind (fun p q h => ?_) fun _ => ends_pure _
  cases hp : p.hash with
  | zero => rw [hashRequest_zero hp] at h; cases h
  | succ n => rw [hashRequest_succ hp] at h; cases h

/-- A loop whose rounds all take an answer does not run out of rounds. -/
theorem ends_whileAnswered {loop : Nat → Engine α}
    (h : ∀ fuel p, p.rand.length < fuel → NotNever ((loop fuel).run p)) : Ends (whileAnswered loop) :=
  fun p => h _ p (Nat.lt_succ_self _)

/-! ### Primality -/

theorem ends_mrRounds (n d r k : Nat) : Ends (mrRounds n d r k) := by
  induction k with
  | zero => exact ends_pure _
  | succ k ih => exact ends_bind (ends_draw _ _) fun _ => ends_ite (fun _ => ih) fun _ => ends_pure _

theorem ends_isPrime (n rounds : Nat) : Ends (isPrime n rounds) := by
  unfold isPrime
  split
  · exact ends_pure _
  · exact ends_pure _
  · exact ends_mrRounds _ _ _ _

/-- The rounds of `is_prime` read backwards: which witnesses were drawn (R148). -/
theorem mrRounds_inv {n : Nat} (hn : 2 ≤ n) (hodd : n % 2 = 1) (k : Nat) : ∀ {p q : Ports} {b : Bool},
    (mrRounds n (decompose n).1 (decompose n).2 k).run p = .ok b q →
    ∃ as, p.rand = as ++ q.rand ∧ (b = true → as.length = k ∧ ∀ a ∈ as, 2 ≤ a ∧ a ≤ n - 2 ∧ StrongPass n a) ∧
      (b = false → ∃ bs a, as = bs ++ [a] ∧ bs.length < k ∧ (∀ c ∈ bs, 2 ≤ c ∧ c ≤ n - 2 ∧ StrongPass n c) ∧
        2 ≤ a ∧ a ≤ n - 2 ∧ ¬StrongPass n a) := by
  induction k with
  | zero =>
    intro p q b h
    have hq : q = p := by
      have h' : (pure true : Engine Bool).run p = .ok b q := h
      rw [run_pure] at h'
      cases h'
      rfl
    exact ⟨[], by simp [hq], by simp, by rw [pure_ok_inv h]; simp⟩
  | succ k ih =>
    intro p q b h
    obtain ⟨a, p', h1, h2⟩ := bind_ok_inv h
    obtain ⟨rest, hp, hpr⟩ : ∃ rest, p.rand = a :: rest ∧ p'.rand = rest := by
      cases hp : p.rand with
      | nil => rw [randRange, draw_nil hp] at h1; cases h1
      | cons v rest =>
        cases hv : (decide (2 ≤ v) && decide (v ≤ n - 2)) with
        | true => rw [randRange, draw_good hp hv] at h1; cases h1; exact ⟨rest, rfl, rfl⟩
        | false => rw [randRange, draw_bad hp hv] at h1; cases h1
    have hr := (draw_consumes h1).2
    simp only [Bool.and_eq_true, decide_eq_true_eq] at hr
    split at h2
    · rename_i hpass
      have hs := (mrRound_decompose hn hodd).mp hpass
      obtain ⟨as, ha, ht, hf⟩ := ih h2
      refine ⟨a :: as, by rw [hp, ← hpr, ha]; rfl, fun hb => ?_, fun hb => ?_⟩
      · obtain ⟨h3, h4⟩ := ht hb
        refine ⟨by simp [h3], fun c hc => ?_⟩
        rcases List.mem_cons.mp hc with rfl | hc
        · exact ⟨hr.1, hr.2, hs⟩
        · exact h4 c hc
      · obtain ⟨bs, c, rfl, h4, h5, h6⟩ := hf hb
        refine ⟨a :: bs, c, rfl, by simpa using h4, fun x hx => ?_, h6⟩
        rcases List.mem_cons.mp hx with rfl | hx
        · exact ⟨hr.1, hr.2, hs⟩
        · exact h5 x hx
    · rename_i hfail
      have hb : b = false ∧ q = p' := by
        rw [run_pure] at h2
        cases h2
        exact ⟨rfl, rfl⟩
      refine ⟨[a], by rw [hp, hb.2, hpr]; rfl, by rw [hb.1]; simp, fun _ => ⟨[], a, rfl, by simp, by simp, hr.1, hr.2, ?_⟩⟩
      intro hs
      exact hfail ((mrRound_decompose hn hodd).mpr hs)

/-- `is_prime` read backwards: an answer comes from a run of it (R148). -/
theorem isPrime_inv {n rounds : Nat} {p q : Ports} {b : Bool} (h : (isPrime n rounds).run p = .ok b q) :
    ∃ as, p.rand = as ++ q.rand ∧ IsPrimeRun n rounds as b := by
  by_cases ht : TableDecides n
  · have hr := runs_isPrime (o := p.oracle) (IsPrimeRun.table (rounds := rounds) ht) ⟨p.oracle, p.rand, p.hash, p.drawn, p.digests, p.sent⟩ rfl
    have hp : (Ports.feed ⟨p.oracle, p.rand, p.hash, p.drawn, p.digests, p.sent⟩ [] 0) = p := by simp
    rw [hp, h] at hr
    injection hr with hb hq
    refine ⟨[], ?_, hb ▸ .table ht⟩
    rw [hq]
    simp
  · obtain ⟨h1, h2⟩ := undecided_facts ht
    unfold isPrime at h
    rw [(sieve_spec n).2 ht] at h
    obtain ⟨as, ha, htrue, hfalse⟩ := mrRounds_inv (by omega) h2 rounds h
    refine ⟨as, ha, ?_⟩
    cases b with
    | true => exact .pass as ht (htrue rfl).1 (htrue rfl).2
    | false =>
      obtain ⟨bs, a, rfl, h3, h4, h5, h6, h7⟩ := hfalse rfl
      exact .fail bs a ht h3 h4 h5 h6 h7

/-- No answer `false` on a prime (R151 (d)). -/
theorem isPrime_not_false {n rounds : Nat} (hn : n.Prime) {p q : Ports} :
    (isPrime n rounds).run p ≠ .ok false q := by
  intro h
  obtain ⟨as, -, hr⟩ := isPrime_inv h
  exact isPrimeRun_prime hn hr

theorem ends_nextPrimeWalk (nbits rounds fuel : Nat) : ∀ n, 0 < fuel → 2 ^ nbits ≤ n + 2 * fuel →
    Ends (nextPrimeWalk nbits rounds fuel n) := by
  induction fuel with
  | zero => intro n h1; omega
  | succ fuel ih =>
    intro n _ h2
    exact ends_bind (ends_isPrime _ _) fun _ => ends_ite (fun _ => ends_pure _) fun _ =>
      ends_ite (fun _ => ends_raise _ _) fun h => ih _ (by omega) (by omega)

/-! ### Prime generator -/

theorem ends_randomPrimeSearch {bits t : Nat} {up : Bool} (hb : 2 ≤ bits) (ht : (oddOf bits t).Prime) (fuel : Nat) :
    ∀ j k, k < 2 ^ (bits - 2) → walkIndex (2 ^ (bits - 2)) up j k = t → j < fuel →
      Ends (randomPrimeSearch bits up fuel (oddOf bits k)) := by
  induction fuel with
  | zero => intro j k _ _ h; omega
  | succ fuel ih =>
    intro j k hk hj hf p
    refine notNever_bind (ends_isPrime _ _ p) fun b q hq => ?_
    cases b with
    | true => rw [if_pos rfl]; exact ends_pure _ q
    | false =>
      rw [if_neg (by simp)]
      obtain ⟨h1, h2⟩ := stepBits_oddOf up hb hk
      rw [h1]
      cases j with
      | zero =>
        have hkt : k = t := hj
        exact absurd hq (isPrime_not_false (hkt ▸ ht))
      | succ j => exact ih j _ h2 hj (by omega) q

theorem ends_randomPrime {bits : Nat} (hb : 1 ≤ bits) : Ends (randomPrime bits) := by
  refine ends_ite (fun _ => ends_pure _) fun h1 p => ?_
  refine notNever_bind (ends_draw _ _ p) fun v q hv => ?_
  have hv' := (draw_consumes hv).2
  simp only [decide_eq_true_eq] at hv'
  refine notNever_bind (ends_randDirection q) fun up q' _ => ?_
  obtain ⟨t, ht, hprime⟩ := exists_prime_oddOf (bits := bits) (by omega)
  obtain ⟨k, hk, hc⟩ := mkcand_oddOf (by omega) hv'
  obtain ⟨j, hj, hjt⟩ := walkIndex_reaches up hk ht
  have hlt : j < 2 ^ bits := hj.trans_le (Nat.pow_le_pow_right (by omega) (by omega))
  rw [hc]
  exact ends_randomPrimeSearch (by omega) hprime _ j k hk hjt hlt q'

theorem ends_rangeCandidate (mn mx c : Nat) : Ends (whileAnswered (rangeCandidate mn mx c)) := by
  refine ends_whileAnswered fun fuel => ?_
  induction fuel with
  | zero => intro p h; omega
  | succ fuel ih =>
    intro p h
    refine notNever_bind (ends_draw _ _ p) fun u q hq => ?_
    have := (draw_consumes hq).1
    dsimp only
    split
    · exact ends_pure _ q
    · exact ih q (by omega)

theorem ends_rangeSearch (up : Bool) (mn mx c : Nat) : ∀ cand, Ends (rangeSearch up mn mx c cand) := by
  induction c with
  | zero => exact fun cand => ends_bind (ends_isPrime _ _) fun _ => ends_ite (fun _ => ends_pure _) fun _ => ends_raise _ _
  | succ c ih =>
    exact fun cand => ends_bind (ends_isPrime _ _) fun _ => ends_ite (fun _ => ends_pure _) fun _ =>
      ends_ite (fun _ => ends_raise _ _) fun _ => ih _

/-! ### Domain parameters and the alternative generator -/

theorem ends_assembleW (seed S offset n b left : Nat) : ∀ j W, Ends (assembleW seed S offset n b left j W) := by
  induction left with
  | zero => exact fun _ _ => ends_pure _
  | succ left ih => exact fun _ _ => ends_bind (ends_hashInt _ _) fun _ => ih _ _

theorem ends_deriveQ (seed S N : Nat) : Ends (deriveQ seed S N) := ends_bind (ends_hashInt _ _) fun _ => ends_pure _

theorem ends_deriveP (seed S offset L q : Nat) : Ends (deriveP seed S offset L q) :=
  ends_bind (ends_assembleW _ _ _ _ _ _ _ _) fun _ => ends_pure _

theorem ends_genpqInner (seed S L q left : Nat) : ∀ offset, Ends (genpqInner seed S L q left offset) := by
  induction left with
  | zero => exact fun _ => ends_pure _
  | succ left ih =>
    exact fun _ => ends_bind (ends_deriveP _ _ _ _ _) fun _ =>
      ends_bind (ends_ite (fun _ => ends_isPrime _ _) fun _ => ends_pure _) fun _ =>
        ends_ite (fun _ => ends_pure _) fun _ => ih _

theorem ends_genpqOuter (L N S : Nat) : Ends (whileAnswered (genpqOuter L N S)) := by
  refine ends_whileAnswered fun fuel => ?_
  induction fuel with
  | zero => intro p h; omega
  | succ fuel ih =>
    intro p h
    refine notNever_bind (ends_draw _ _ p) fun seed p1 h1 => notNever_bind (ends_deriveQ _ _ _ p1) fun q p2 h2 =>
      notNever_bind (ends_isPrime _ _ p2) fun ok p3 h3 => ?_
    have l1 := (draw_consumes h1).1
    have l2 := (deriveQ_tame (E := NoError) _ _ _).rand_le h2
    have l3 := (isPrime_tame (E := NoError) _ _).rand_le h3
    split
    · refine notNever_bind (ends_genpqInner _ _ _ _ _ _ p3) fun found p4 h4 => ?_
      have l4 := (genpqInner_tame (E := NoError) _ _ _ _ _ _).rand_le h4
      cases found with
      | some p => exact ends_pure _ p4
      | none => exact ih p4 (by omega)
    · exact ih p3 (by omega)

theorem ends_pgTries {L : Nat} (hL : 4 ≤ L) (prime1 left : Nat) : Ends (pgTries L prime1 left) := by
  induction left with
  | zero => exact ends_pure _
  | succ left ih =>
    exact ends_bind (ends_randomPrime (by omega)) fun _ => ends_bind (ends_isPrime _ _) fun _ =>
      ends_ite (fun _ => ends_pure _) fun _ => ih

theorem ends_pgSearch {L : Nat} (hL : 4 ≤ L) : Ends (whileAnswered (pgSearch L)) := by
  refine ends_whileAnswered fun fuel => ?_
  induction fuel with
  | zero => intro p h; omega
  | succ fuel ih =>
    intro p h
    refine notNever_bind (ends_randomPrime (by omega) p) fun prime1 p1 h1 =>
      notNever_bind (ends_pgTries hL _ _ p1) fun found p2 h2 => ?_
    have l1 := randomPrime_consumes (by omega) h1
    have l2 := (pgTries_tame (E := NoError) _ _ _).rand_le h2
    cases found with
    | some c => exact ends_pure _ p2
    | none => exact ih p2 (by omega)

/-- The walk of R243 ends at g = p at the latest. -/
theorem ends_pgWalk {c : PgPrime} (hp : 0 < c.p) (h1 : 0 < c.prime1) (h2 : 0 < c.prime2) (fuel : Nat) :
    ∀ g, g ≤ c.p → c.p < g + fuel → Ends (pgWalk c fuel g) := by
  obtain ⟨prime1, prime2, shift, p⟩ := c
  induction fuel with
  | zero => intro g h h'; dsimp only at h h'; omega
  | succ fuel ih =>
    intro g hg hf
    refine ends_ite (fun _ => ends_pure _) fun ha => ih _ ?_ (by dsimp only at hf ⊢; omega)
    rcases Nat.lt_or_eq_of_le hg with h | h
    · exact h
    · exact absurd ((accepts_iff hp).mpr (threeTests_self h1 h2)) (by rw [h] at ha; exact ha)

/-! ### The commands -/

/-- Every command but GENG ends or waits for an answer, whatever its operands and the answers (R304, R310). -/
theorem bodyOf_ends (i : Instr) (s : State) (hi : i ≠ .geng) : Ends (bodyOf i s) := by
  cases i with
  | geng => exact absurd rfl hi
  | isprime => exact ends_bind (ends_isPrime _ _) fun _ => ends_pure _
  | nextprime =>
    exact ends_bind (ends_nextPrimeWalk _ _ _ _ (Nat.two_pow_pos _) (by omega)) fun _ => ends_pure _
  | rndprime =>
    exact ends_ite (fun _ => ends_raise _ _) fun h0 => ends_ite (fun _ => ends_raise _ _) fun h1 =>
      ends_bind (ends_randomPrime (by omega)) fun _ => ends_pure _
  | rndprimer =>
    exact ends_bind (ends_ite (fun _ => ends_pure _) fun _ => ends_bind (ends_rangeCandidate _ _ _) fun _ =>
      ends_bind ends_randDirection fun _ => ends_rangeSearch _ _ _ _ _) fun _ => ends_pure _
  | genpq =>
    exact ends_ite (fun _ => ends_raise _ _) fun _ => ends_ite (fun _ => ends_raise _ _) fun _ =>
      ends_ite (fun _ => ends_raise _ _) fun _ => ends_bind (ends_genpqOuter _ _ _) fun _ => ends_pure _
  | verifyg => exact ends_pure _
  | genpg =>
    show Ends (bodyGenpg s)
    unfold bodyGenpg
    by_cases h0 : s.paramNat .bits < Config.PG_MIN_BITS
    · simp only [h0, if_true]; exact ends_raise _ _
    simp only [h0, if_false]
    refine ends_ite (fun _ => ends_raise _ _) fun h1 p => ?_
    have hL : 128 ≤ s.paramNat .bits := by simp only [Config.PG_MIN_BITS] at h0; omega
    refine notNever_bind (ends_pgSearch (by omega) p) fun c q hc => ?_
    have hg := (bounded_whileAnswered (bounded_pgSearch (w := s.width) hL (by unfold State.nbits at h1; omega))).gives _ _ _ hc
    refine notNever_bind (ends_draw _ _ q) fun base q' hb => ?_
    have hr := (draw_consumes hb).2
    simp only [Bool.and_eq_true, decide_eq_true_eq] at hr
    have hp := hg.1
    exact ends_bind (ends_pgWalk (by omega) hg.2.2.1 hg.2.2.2 _ _ (by omega) (by omega)) (fun _ =>
      ends_ite (fun _ => ends_raise _ _) fun _ => ends_pure _) q'
  | powmod => exact ends_ite (fun _ => ends_raise _ _) fun _ => ends_pure _
  | sieve => exact ends_pure _
  | mrwit =>
    exact ends_ite (fun _ => ends_raise _ _) fun _ => ends_ite (fun _ => ends_raise _ _) fun _ => ends_pure _
  | seedq =>
    exact ends_ite (fun _ => ends_raise _ _) fun _ => ends_ite (fun _ => ends_raise _ _) fun _ =>
      ends_ite (fun _ => ends_raise _ _) fun _ => ends_bind (ends_deriveQ _ _ _) fun _ => ends_pure _
  | seedp =>
    exact ends_ite (fun _ => ends_raise _ _) fun _ => ends_ite (fun _ => ends_raise _ _) fun _ =>
      ends_ite (fun _ => ends_raise _ _) fun _ => ends_ite (fun _ => ends_raise _ _) fun _ =>
        ends_bind (ends_deriveP _ _ _ _ _) fun _ => ends_pure _

end Sys2Proof.Machine
end

