-- ==== Sys2Proof/Laws/InRange.lean ====
section
/-! SUPPORT. Answers that are in range for every request a command may send: the command then never meets an answer out of
range (R79), whatever the oracle answers. For GENPQ. -/

namespace Sys2Proof.Machine

variable {α β : Type} {K : Nat → Prop} {w : Config.Width}

/-- On answers that satisfy `K` the part meets no answer out of range, and its result satisfies `Q`. -/
def InRange (K : Nat → Prop) (Q : α → Prop) (m : Engine α) : Prop :=
  ∀ p : Ports, (∀ a ∈ p.rand, K a) →
    (∀ r v q, m.run p ≠ .error (.badAnswer r v) q) ∧ ∀ a q, m.run p = .ok a q → Q a ∧ ∀ b ∈ q.rand, K b

theorem inRange_pure {Q : α → Prop} {a : α} (h : Q a) : InRange K Q (pure a : Engine α) := by
  refine fun p hp => ⟨fun r v q hq => by simp at hq, fun b q hb => ?_⟩
  rw [run_pure] at hb
  cases hb
  exact ⟨h, hp⟩

theorem inRange_never {Q : α → Prop} : InRange K Q (never : Engine α) :=
  fun p _ => ⟨fun r v q h => by simp at h, fun a q h => by simp at h⟩

theorem inRange_bind {Q : α → Prop} {R : β → Prop} {m : Engine α} {f : α → Engine β} (hm : InRange K Q m)
    (hf : ∀ a, Q a → InRange K R (f a)) : InRange K R (m >>= f) := by
  refine fun p hp => ⟨fun r v q h => ?_, fun b q h => ?_⟩
  · cases h1 : m.run p with
    | ok a q' =>
      rw [bind_ok h1] at h
      obtain ⟨ha, hq⟩ := (hm p hp).2 a q' h1
      exact (hf a ha q' hq).1 r v q h
    | error e q' => rw [bind_error h1] at h; cases h; exact (hm p hp).1 _ _ _ h1
  · obtain ⟨a, q', h1, h2⟩ := bind_ok_inv h
    obtain ⟨ha, hq⟩ := (hm p hp).2 a q' h1
    exact (hf a ha q' hq).2 b q h2

theorem inRange_ite {Q : α → Prop} {c : Prop} [Decidable c] {m n : Engine α} (hm : c → InRange K Q m)
    (hn : ¬c → InRange K Q n) : InRange K Q (if c then m else n) := by
  split
  · exact hm ‹_›
  · exact hn ‹_›

/-- What else is known of the results. -/
theorem InRange.gives {Q R : α → Prop} {m : Engine α} (h : InRange K Q m) (hR : ∀ p a q, m.run p = .ok a q → R a) :
    InRange K R m :=
  fun p hp => ⟨(h p hp).1, fun a q ha => ⟨hR p a q ha, ((h p hp).2 a q ha).2⟩⟩

theorem inRange_draw {r : Request} {range : Nat → Bool} (h : ∀ v, K v → range v = true) :
    InRange K (fun _ => True) (draw r range) := by
  refine fun p hp => ?_
  cases hr : p.rand with
  | nil => rw [draw_nil hr]; exact ⟨fun r v q h => by simp at h, fun a q h => by simp at h⟩
  | cons v rest =>
    rw [draw_good hr (h v (hp v (by simp [hr])))]
    refine ⟨fun r v q h => by simp at h, fun a q h => ?_⟩
    cases h
    exact ⟨trivial, fun b hb => hp b (by rw [hr]; exact List.mem_cons_of_mem _ hb)⟩

theorem inRange_hashInt (v S : Nat) : InRange K (fun _ => True) (hashInt v S) := by
  refine inRange_bind (Q := fun _ => True) (fun p hp => ?_) fun _ _ => inRange_pure trivial
  cases hh : p.hash with
  | zero => rw [hashRequest_zero hh]; exact ⟨fun r v q h => by simp at h, fun a q h => by simp at h⟩
  | succ n =>
    rw [hashRequest_succ hh]
    refine ⟨fun r v q h => by simp at h, fun a q h => ?_⟩
    cases h
    exact ⟨trivial, hp⟩

theorem inRange_whileAnswered {Q : α → Prop} {loop : Nat → Engine α} (h : ∀ fuel, InRange K Q (loop fuel)) :
    InRange K Q (whileAnswered loop) :=
  fun p hp => h _ p hp

/-- Some run of `is_prime` with 25 rounds accepts n (R148). -/
def Accepted (n : Nat) : Prop := ∃ as, IsPrimeRun n Config.GEN_ROUNDS as true

/-- Witnesses that are legal for n (R77). -/
theorem inRange_isPrime {n : Nat} (h : ∀ a, K a → 2 ≤ a ∧ a ≤ n - 2) :
    InRange K (fun b => b = true → Accepted n) (isPrime n Config.GEN_ROUNDS) := by
  have key : InRange K (fun _ => True) (isPrime n Config.GEN_ROUNDS) := by
    unfold isPrime
    split
    · exact inRange_pure trivial
    · exact inRange_pure trivial
    · generalize Config.GEN_ROUNDS = k
      induction k with
      | zero => exact inRange_pure trivial
      | succ k ih =>
        refine inRange_bind (inRange_draw fun v hv => by simpa using h v hv) fun _ _ => ?_
        exact inRange_ite (fun _ => ih) fun _ => inRange_pure trivial
  refine key.gives fun p b q hq hb => ?_
  obtain ⟨as, -, hr⟩ := isPrime_inv hq
  exact ⟨as, hb ▸ hr⟩

theorem inRange_deriveQ {seed S N : Nat} (hN : 2 ≤ N) : InRange K (OddBits N) (deriveQ seed S N) :=
  inRange_bind (inRange_hashInt _ _) fun _ _ => inRange_pure (qOfHash_bounds hN)

/-- What R206 says of the candidate p of q. -/
def CandidateOf (L q p : Nat) : Prop := p % 2 = 1 ∧ p < 2 ^ L ∧ q ∣ p - 1

theorem inRange_deriveP {seed S offset L q : Nat} (h1 : 1 ≤ S) (h2 : S ≤ w.nbits) (hL : 2 ≤ L) :
    InRange K (fun pok : Nat × Bool => CandidateOf L q pok.1 ∧ pok.2 = decide (pok.1 ≥ 2 ^ (L - 1)))
      (deriveP seed S offset L q) := by
  have hW : InRange K (fun W => W < 2 ^ (L - 1)) (assembleW seed S offset (streamN L) (streamB L) (streamN L + 1) 0 0) := by
    have hb := bounded_assembleW (seed := seed) (offset := offset) (n := streamN L) (b := streamB L) h1 h2 (streamN L + 1)
      0 0 (by omega) (by intro; simp) (by omega)
    rw [streamN_add_streamB (by omega)] at hb
    refine InRange.gives (Q := fun _ => True) ?_ hb.gives
    clear hb
    have key : ∀ left j W, InRange K (fun _ => True) (assembleW seed S offset (streamN L) (streamB L) left j W) := by
      intro left
      induction left with
      | zero => exact fun _ _ => inRange_pure trivial
      | succ left ih => exact fun _ _ => inRange_bind (inRange_hashInt _ _) fun _ _ => ih _ _
    exact key _ _ _
  refine inRange_bind hW fun W hw => inRange_pure ⟨?_, rfl⟩
  obtain ⟨a, -, c, d⟩ := pOfStream_facts (q := q) hL hw
  exact ⟨c, a, d⟩

theorem inRange_genpqInner {seed S L q : Nat} (h1 : 1 ≤ S) (h2 : S ≤ w.nbits) (hL : 2 ≤ L)
    (hK : ∀ a, K a → 2 ≤ a ∧ a + 2 ≤ 2 ^ (L - 1)) (left : Nat) : ∀ offset,
    InRange K (fun r : Option Nat => ∀ p, r = some p → CandidateOf L q p ∧ 2 ^ (L - 1) ≤ p ∧ Accepted p)
      (genpqInner seed S L q left offset) := by
  induction left with
  | zero => exact fun _ => inRange_pure (by simp)
  | succ left ih =>
    intro offset
    refine inRange_bind (inRange_deriveP h1 h2 hL) fun pok hp => ?_
    refine inRange_bind (Q := fun b => b = true → 2 ^ (L - 1) ≤ pok.1 ∧ Accepted pok.1) ?_ fun b hb =>
      inRange_ite (fun h => inRange_pure ?_) fun _ => ih _
    · refine inRange_ite (fun hok => ?_) fun _ => inRange_pure (by simp)
      have hge : 2 ^ (L - 1) ≤ pok.1 := by rw [hp.2] at hok; simpa using hok
      refine InRange.gives (inRange_isPrime fun a ha => ?_) fun p b q hq hb => ⟨hge, ?_⟩
      · have := hK a ha; omega
      · obtain ⟨as, -, hr⟩ := isPrime_inv hq
        exact ⟨as, hb ▸ hr⟩
    · rintro p ⟨⟩
      exact ⟨hp.1, hb h⟩

theorem inRange_genpqOuter {L N S : Nat} (hS : N ≤ S) (h2 : S ≤ w.nbits) (hN : 2 ≤ N) (hLN : N < L)
    (hK : ∀ a, K a → 2 ≤ a ∧ a < 2 ^ (N - 1)) (fuel : Nat) :
    InRange K (fun pq : Nat × Nat => OddBits N pq.2 ∧ CandidateOf L pq.2 pq.1 ∧ 2 ^ (L - 1) ≤ pq.1 ∧ Accepted pq.1 ∧
      Accepted pq.2) (genpqOuter L N S fuel) := by
  have hS' : 2 ^ (N - 1) ≤ 2 ^ S := Nat.pow_le_pow_right (by omega) (by omega)
  have hL' : 2 ^ N ≤ 2 ^ (L - 1) := Nat.pow_le_pow_right (by omega) (by omega)
  obtain ⟨hsplit, hpos⟩ := two_pow_split hN
  induction fuel with
  | zero => exact inRange_never
  | succ fuel ih =>
    refine inRange_bind (inRange_draw fun v hv => decide_eq_true ((hK v hv).2.trans_le hS')) fun seed _ =>
      inRange_bind (inRange_deriveQ hN) fun q hq =>
        inRange_bind (inRange_isPrime fun a ha => ?_) fun b hb => inRange_ite (fun h => ?_) fun _ => ih
    · have := hK a ha
      have := hq.2.1
      omega
    · refine inRange_bind (inRange_genpqInner (by omega) h2 (by omega) (fun a ha => ?_) _ _) fun found hf => ?_
      · have := hK a ha
        omega
      · cases found with
        | some p => obtain ⟨h3, h4, h5⟩ := hf p rfl; exact inRange_pure ⟨hq, h3, h4, h5, hb h⟩
        | none => exact ih

end Sys2Proof.Machine
end

