-- ==== Sys2Proof/Laws/Moves.lean ====
section
/-! SUPPORT. Where the engine stands when it moves, and what each outcome leaves of the operands. -/

namespace Sys2Proof.Machine

/-! ### Outcomes and operands -/

section outcomes
variable (f : InFlight) (o : Option Request) (p : Ports) (s : State) (r : Result) (e : ErrorKind) (info : Word)
@[simp] theorem leavePorts_x (k : Fin 4) : (leavePorts p s).x k = s.x k := by fin_cases k <;> rfl
@[simp] theorem leavePorts_param (q : Param) : (leavePorts p s).param q = s.param q := by cases q <;> rfl
@[simp] theorem holdCommand_x (k : Fin 4) : (holdCommand f o p s).x k = s.x k := by fin_cases k <;> rfl
@[simp] theorem holdCommand_param (q : Param) : (holdCommand f o p s).param q = s.param q := by cases q <;> rfl
@[simp] theorem raiseError_x (k : Fin 4) : (raiseError e info s).x k = s.x k := by fin_cases k <;> rfl
@[simp] theorem raiseError_param (q : Param) : (raiseError e info s).param q = s.param q := by cases q <;> rfl
@[simp] theorem succeed_param (q : Param) : (succeed r s).param q = s.param q := by cases q <;> rfl
@[simp] theorem startCommand_x (i : Instr) (k : Fin 4) : (startCommand i s).x k = s.x k := by fin_cases k <;> rfl
@[simp] theorem startCommand_param (i : Instr) (q : Param) : (startCommand i s).param q = s.param q := by cases q <;> rfl
end outcomes

/-- The success outcome writes the command's own result registers only (R263, R23). -/
theorem succeed_x_other {i : Instr} {r : Result} (h : ResultOf i r) (s : State) {k : Fin 4} (hk : k ∉ resultRegisters i) :
    (succeed r s).x k = s.x k := by
  fin_cases k
  · show resultReg s.x0 r.x0 = s.x0; rw [h.x0 hk]; rfl
  · show resultReg s.x1 r.x1 = s.x1; rw [h.x1 hk]; rfl
  · show resultReg s.x2 r.x2 = s.x2; rw [h.x2 hk]; rfl
  · show resultReg s.x3 r.x3 = s.x3; rw [h.x3 hk]; rfl

theorem phase_busy_iff (f : Status) : f.phase = .busy ↔ f.busy = true := by
  unfold Status.phase; cases f.busy <;> cases f.done <;> simp

theorem phase_done_iff (f : Status) : f.phase = .done ↔ f.busy = false ∧ f.done = true := by
  unfold Status.phase; cases f.busy <;> cases f.done <;> simp

theorem phase_idle_iff (f : Status) : f.phase = .idle ↔ f.busy = false ∧ f.done = false := by
  unfold Status.phase; cases f.busy <;> cases f.done <;> simp

/-! ### The engine moves -/

/-- In a consistent state the engine moves with BUSY = 1 and everything else cleared (R36, R71). -/
structure Flying (f : InFlight) (u : State) : Prop where
  inFlight : u.inFlight = some f
  busy : u.status.busy = true
  done : u.status.done = false
  err : u.status.err = false
  res : u.status.res = false
  undec : u.status.undec = false
  cause : u.cause = 0#32
  einfo : u.einfo = 0#32
  cmd : u.cmd = encode f.instr

theorem MovesFrom.flying {s u : State} {f : InFlight} (hs : s.Consistent) (h : MovesFrom s f u) : Flying f u := by
  cases h with
  | start i a b c d e hb hh hf => subst hf; constructor <;> rfl
  | resume f₀ a b c d e h0 hev hf =>
    have hb : s.status.busy = true := by rw [← hs.inFlight, h0]; rfl
    obtain ⟨h1, h2, h3, h4, h5⟩ := hs.clear hb
    have hd : s.status.done = false := by
      cases hd : s.status.done with
      | false => rfl
      | true => exact absurd ⟨hb, hd⟩ hs.phase
    exact ⟨rfl, hb, hd, h1, h2, h3, h4, h5, hf.instr ▸ hs.command f₀ h0⟩

/-- The engine moves on the width, the operands, IE and WIGN of the state the step started from. -/
structure SameOperands (s u : State) : Prop where
  width : u.width = s.width
  x : ∀ k, u.x k = s.x k
  param : ∀ p, u.param p = s.param p
  ie : u.ie = s.ie
  wign : u.status.wign = s.status.wign

theorem MovesFrom.sameOperands {s u : State} {f : InFlight} (h : MovesFrom s f u) : SameOperands s u := by
  cases h with
  | start i a b c d e hb hh hf => exact ⟨rfl, fun k => by simp, fun p => by simp, rfl, rfl⟩
  | resume f₀ a b c d e h0 hev hf => exact ⟨rfl, fun k => by fin_cases k <;> rfl, fun p => by cases p <;> rfl, rfl, rfl⟩

theorem MovesFrom.inFlight {s u : State} {f : InFlight} (h : MovesFrom s f u) : u.inFlight = some f := by
  cases h with
  | start i a b c d e hb hh hf => subst hf; rfl
  | resume f₀ a b c d e h0 hev hf => rfl

section body
variable (i : Instr) (f : InFlight) (o : Option Request) (p : Ports) (s : State)
/-- The algorithm of a command does not read what the outcomes and the environment change. -/
@[simp] theorem bodyOf_env (a : Reply) (b : List Event) (c : List Nat) (d e : Nat) : bodyOf i (s.env a b c d e) = bodyOf i s :=
  bodyOf_congr i rfl (by simp) (by simp)
@[simp] theorem bodyOf_inFlight (g : Option InFlight) : bodyOf i { s with inFlight := g } = bodyOf i s :=
  bodyOf_congr i rfl (fun k => by fin_cases k <;> rfl) fun p => by cases p <;> rfl
@[simp] theorem bodyOf_startCommand (j : Instr) : bodyOf i (startCommand j s) = bodyOf i s :=
  bodyOf_congr i rfl (by simp) (by simp)
@[simp] theorem bodyOf_holdCommand : bodyOf i (holdCommand f o p s) = bodyOf i s :=
  bodyOf_congr i rfl (by simp) (by simp)
end body

/-! ### The working state -/

/-- With more answers ready a command sends first the requests it sent without them (R12). -/
theorem bodyOf_sends_more (i : Instr) (s : State) (p : Ports) (more : List Nat) (k : Nat) :
    (portsAfter ((bodyOf i s).run p)).sent.reverse <+: (portsAfter ((bodyOf i s).run (p.extend more k))).sent.reverse := by
  have he := (bodyOf_tame i s).extends_ p more k
  cases h : (bodyOf i s).run p with
  | ok r q =>
    rw [h] at he
    rw [show _ = _ from he]
    exact List.prefix_rfl
  | error e q =>
    rw [h] at he
    cases e with
    | wait r =>
      simp only [Extends] at he
      split at he
      · by_cases hk : k = 0
        · rw [he.2.1 hk]; exact List.prefix_rfl
        · exact List.reverse_prefix.mpr (he.2.2 hk).1
      · by_cases hk : more = []
        · rw [he.2.1 hk]; exact List.prefix_rfl
        · exact List.reverse_prefix.mpr (he.2.2 hk).1
    | raise => rw [extends_error_of_not_wait (by simp) he]; exact List.prefix_rfl
    | never => rw [extends_error_of_not_wait (by simp) he]; exact List.prefix_rfl
    | badAnswer => rw [extends_error_of_not_wait (by simp) he]; exact List.prefix_rfl

/-- The same when the command has received them (log entry 6). -/
theorem Received.sends_more {f₀ f : InFlight} (h : Received f₀ f) (s : State) :
    (portsAfter ((bodyOf f₀.instr s).run (receivedPorts f₀))).sent.reverse <+:
      (portsAfter ((bodyOf f.instr s).run (receivedPorts f))).sent.reverse := by
  obtain ⟨more, hm⟩ := h.drawn
  obtain ⟨k, hk⟩ := Nat.exists_eq_add_of_le h.digests
  have : receivedPorts f = (receivedPorts f₀).extend more k := by simp [receivedPorts, Ports.extend, hm, hk]
  rw [this, h.instr]
  exact bodyOf_sends_more _ _ _ _ _

/-! ### Errors -/

/-- The codes of R261. -/
theorem ErrorKind.code_facts (e : ErrorKind) : e.code ≠ 0#32 ∧ e.code.toNat ≤ 5 ∧
    (e.code = 1#32 ↔ e = .invalidParameters) ∧ (e.code = 4#32 ↔ e = .illegalCommand) := by
  cases e <;> decide

/-- The details of R262 for the errors a command raises. -/
theorem MayRaise.detail {i : Instr} {e : ErrorKind} {info : Word} (h : MayRaise i e info) :
    e ≠ .illegalCommand ∧ (e = .invalidParameters → 1 ≤ info.toNat ∧ info.toNat ≤ 17) ∧
    (e ≠ .invalidParameters → info = 0#32) := by
  by_cases hg : i = .genpg
  · subst hg
    simp only [MayRaise, List.mem_cons, List.not_mem_nil, or_false] at h
    rcases h with ⟨rfl, rfl | rfl⟩ | ⟨rfl, rfl⟩ <;> decide
  cases i <;> simp only [MayRaise, List.mem_cons, List.not_mem_nil, or_false] at h <;>
    first
    | exact h.elim
    | exact absurd rfl hg
    | (obtain ⟨rfl, h⟩ := h; rcases h with rfl | rfl | rfl | rfl <;> decide)

/-! ### A command that is issued -/

/-- A command that is issued while BUSY = 0 has only started, when the host moves first (log entry 5), or has run as far
as the ports answer. -/
theorem exec_cases {i : Instr} {s t : State} (hb : s.status.busy = false) (h : exec i s = .next t) :
    (∃ rest, t = { startCommand i s with script := rest }) ∨
    conclude ⟨i, [], 0, none⟩ (startCommand i s)
      ((bodyOf i s).run (enginePorts ⟨i, [], 0, none⟩ (startCommand i s))) = .next t := by
  rw [exec_eq_issue, issue_idle hb] at h
  unfold engineTurn at h
  split at h
  · cases h; exact .inl ⟨_, rfl⟩
  · rw [runEngine_inFlight (startCommand_inFlight i s),
      bodyOf_congr i (s := startCommand i s) (t := s) rfl (by simp) (by simp)] at h
    exact .inr h

end Sys2Proof.Machine
end

