-- ==== Sys2Proof/Laws/PerInstr.lean ====
section
/-! SUPPORT. Statements about every command as syntax, one lemma per command. Family `Encoding`: the command's word is a
well-formed word of format C and decodes, as a word and as byte lanes with any bytes after them, to the command. -/

namespace Sys2Proof.Laws.Encoding

/-- The word of `i` has ZERO = 0 and an assigned opcode (R101, R104), and decodes to `i`. -/
def Statement (i : Instr) : Prop :=
  (formatC (encode i)).wellFormed = true ∧ (formatC (encode i)).zero = 0#24 ∧
  opcodeMap (formatC (encode i)).opcode.toNat = some i ∧ decode (encode i) = .ok i ∧
  decodeTableWord 32 (encode i).toNat = some i

theorem isprime : Statement .isprime := by unfold Statement; decide

theorem nextprime : Statement .nextprime := by unfold Statement; decide

theorem rndprime : Statement .rndprime := by unfold Statement; decide

theorem rndprimer : Statement .rndprimer := by unfold Statement; decide

theorem genpq : Statement .genpq := by unfold Statement; decide

theorem geng : Statement .geng := by unfold Statement; decide

theorem verifyg : Statement .verifyg := by unfold Statement; decide

theorem genpg : Statement .genpg := by unfold Statement; decide

theorem powmod : Statement .powmod := by unfold Statement; decide

theorem sieve : Statement .sieve := by unfold Statement; decide

theorem mrwit : Statement .mrwit := by unfold Statement; decide

theorem seedq : Statement .seedq := by unfold Statement; decide

theorem seedp : Statement .seedp := by unfold Statement; decide

end Sys2Proof.Laws.Encoding
end

