-- ==== Sys2Proof/Laws/Run.lean ====
section
/-! SUPPORT. Runs of several steps through the host's interface. -/

namespace Sys2Proof.Machine

theorem run_core_zero (s : State) : Host.Core.run Sys2Proof.core 0 s = .next s := rfl

/-- A step that gives a next state is the first of a longer run. -/
theorem run_core_succ {s t : State} (k : Nat) (h : step s = .next t) :
    Host.Core.run Sys2Proof.core (k + 1) s = Host.Core.run Sys2Proof.core k t := by
  have h' : Host.Core.step Sys2Proof.core s = .next t := h
  simp only [Host.Core.run, h']

end Sys2Proof.Machine
end

