-- ==== Sys2Proof/Laws/Shapes.lean ====
section
/-! SUPPORT. What the values have in common that the searches of the generators deliver (R204, R206, R213, R241). -/

namespace Sys2Proof.Machine

/-- W has at most L − 1 bits (R206). -/
theorem streamValue_lt (o : Oracle) {seed S offset L : Nat} (hL : 1 ≤ L) :
    streamValue o seed S offset L < 2 ^ (L - 1) := by
  have hV : ∀ v, hashOf o v S < 2 ^ Config.OUTLEN := fun v => by rw [hashOf_eq]; exact digest_lt _
  have hn : lastDigest L * Config.OUTLEN ≤ L - 1 := by unfold lastDigest Config.OUTLEN; omega
  have key : ∀ n, ((List.range n).map fun j => hashOf o (seed + offset + j) S * 2 ^ (j * Config.OUTLEN)).sum
      < 2 ^ (n * Config.OUTLEN) := by
    intro n
    induction n with
    | zero => simp
    | succ n ih =>
      rw [List.range_succ, List.map_append, List.sum_append]
      simp only [List.map_cons, List.map_nil, List.sum_cons, List.sum_nil, add_zero]
      have h1 := hV (seed + offset + n)
      have h2 : hashOf o (seed + offset + n) S * 2 ^ (n * Config.OUTLEN) + 2 ^ (n * Config.OUTLEN)
          ≤ 2 ^ ((n + 1) * Config.OUTLEN) := by
        rw [← Nat.succ_mul, Nat.succ_mul n, pow_add, mul_comm (2 ^ (n * Config.OUTLEN))]
        exact Nat.mul_le_mul_right _ h1
      omega
  have h1 := key (lastDigest L)
  unfold streamValue
  have h2 : hashOf o (seed + offset + lastDigest L) S % 2 ^ (L - 1 - lastDigest L * Config.OUTLEN)
      < 2 ^ (L - 1 - lastDigest L * Config.OUTLEN) := Nat.mod_lt _ (by positivity)
  have h3 : hashOf o (seed + offset + lastDigest L) S % 2 ^ (L - 1 - lastDigest L * Config.OUTLEN)
      * 2 ^ (lastDigest L * Config.OUTLEN) + 2 ^ (lastDigest L * Config.OUTLEN) ≤ 2 ^ (L - 1) := by
    rw [← Nat.succ_mul]
    calc _ ≤ 2 ^ (L - 1 - lastDigest L * Config.OUTLEN) * 2 ^ (lastDigest L * Config.OUTLEN) := Nat.mul_le_mul_right _ h2
      _ = 2 ^ (L - 1) := by rw [← pow_add]; congr 1; omega
  omega

/-- A candidate that "step 11" finds is a derived one of L bits (R213). -/
theorem InnerRun.candidate {o : Oracle} {seed S L q left offset : Nat} {as : List Nat} {sent : List Request}
    {r : Option Nat} (h : InnerRun o seed S L q left offset as sent r) :
    ∀ p, r = some p → ∃ off, p = pOfSeed o seed S off L q ∧ 2 ^ (L - 1) ≤ p := by
  induction h with
  | spent => intro p h; cases h
  | found left offset as h1 h2 => intro p h; cases h; exact ⟨_, rfl, h1⟩
  | composite _ _ _ _ _ _ _ _ _ ih => exact ih
  | skip _ _ _ _ _ _ _ ih => exact ih

/-- p and q of GENPQ come from one seed (R213). -/
theorem OuterRun.derived {o : Oracle} {L N S p q : Nat} {as : List Nat} {sent : List Request}
    (h : OuterRun o L N S as sent p q) :
    ∃ seed off, q = qOfSeed o seed S N ∧ p = pOfSeed o seed S off L q ∧ 2 ^ (L - 1) ≤ p := by
  induction h with
  | found seed as bs sent p h1 h2 h3 =>
    obtain ⟨off, h4, h5⟩ := h3.candidate p rfl
    exact ⟨seed, off, rfl, h4, h5⟩
  | composite _ _ _ _ _ _ _ _ _ ih => exact ih
  | spent _ _ _ _ _ _ _ _ _ _ _ _ ih => exact ih

theorem TriesRun.bits {L prime1 left : Nat} {as : List Nat} {sent : List Request} {r : Option (Nat × Nat × Nat)}
    (hL : 128 ≤ L) (h1 : OddBits (L / 2) prime1) (h : TriesRun L prime1 left as sent r) :
    ∀ t, r = some t → 2 ^ (L - 1) < t.2.2 ∧ t.2.2 < 2 ^ L ∧ t.2.2 % 2 = 1 := by
  induction h with
  | spent => intro t h; cases h
  | found left as bs sent prime2 shift p hr hs hp =>
    intro t ht
    cases ht
    have := pgOfPrimes_facts hL h1 (hr.spec (by omega))
    rw [pgOfPrimes_eq (by omega) hs] at this
    exact ⟨this.1, this.2.1, this.2.2.1⟩
  | composite _ _ _ _ _ _ _ _ _ _ _ _ _ _ ih => exact ih

/-- p of GENPG is odd and has exactly L bits (R241). -/
theorem ConstructionRun.bits {L prime1 prime2 shift p : Nat} {as : List Nat} {sent : List Request} (hL : 128 ≤ L)
    (h : ConstructionRun L as sent prime1 prime2 shift p) : 2 ^ (L - 1) < p ∧ p < 2 ^ L ∧ p % 2 = 1 := by
  induction h with
  | found as bs sent sent' prime1 prime2 shift p hr ht => exact ht.bits hL (hr.spec (by omega)) _ rfl
  | again _ _ _ _ _ _ _ _ _ _ _ _ _ _ ih => exact ih

/-- prime1 and prime2 of GENPG are odd (R241, R173). -/
theorem ConstructionRun.odd {L prime1 prime2 shift p : Nat} {as : List Nat} {sent : List Request} (hL : 128 ≤ L)
    (h : ConstructionRun L as sent prime1 prime2 shift p) : prime1 % 2 = 1 ∧ prime2 % 2 = 1 := by
  induction h with
  | found as bs sent sent' prime1 prime2 shift p hr ht => exact ⟨(hr.spec (by omega)).1, (ht.spec hL _ rfl).2.1⟩
  | again _ _ _ _ _ _ _ _ _ _ _ _ _ _ ih => exact ih

/-- The walk of RNDPRIMER stays between the bounds (R182, R183). -/
theorem RangeRun.between {next : Nat → Nat} {mn mx : Nat}
    (hn : ∀ a, mn ≤ a → a ≤ mx → mn ≤ next a ∧ next a ≤ mx) {c cand : Nat} {as : List Nat} {sent : List Request}
    {r : Option Nat} (h : RangeRun next c cand as sent r) (h1 : mn ≤ cand) (h2 : cand ≤ mx) :
    ∀ p, r = some p → mn ≤ p ∧ p ≤ mx := by
  induction h with
  | found => intro p h; cases h; exact ⟨h1, h2⟩
  | exhausted => intro p h; cases h
  | step c cand as bs sent r _ _ _ ih => exact ih (hn _ h1 h2).1 (hn _ h1 h2).2

/-- A result of RNDPRIMER passed its test (R183). -/
theorem RangeRun.passed {next : Nat → Nat} {c cand : Nat} {as : List Nat} {sent : List Request} {r : Option Nat}
    (h : RangeRun next c cand as sent r) :
    ∀ p, r = some p → ∃ bs, bs <:+ as ∧ IsPrimeRun p Config.GEN_ROUNDS bs true := by
  induction h with
  | found c cand as h => intro p hp; cases hp; exact ⟨as, List.suffix_refl _, h⟩
  | exhausted => intro p hp; cases hp
  | step c cand as bs sent r _ _ _ ih =>
    intro p hp
    obtain ⟨cs, h1, h2⟩ := ih p hp
    exact ⟨cs, h1.trans (List.suffix_append _ _), h2⟩

/-- The walk of GENG comes by every h of [2, p − 2] (R220). -/
theorem nextH_reaches {p d h g : Nat} (hp : 4 ≤ p) (h1 : 2 ≤ h) (h2 : h ≤ p - 2) (g1 : 2 ≤ g) (g2 : g ≤ p - 2) :
    ∃ j, (nextH p d)^[j] h = g := by
  obtain ⟨j, hj, hjt⟩ := walkIndex_reaches (m := p - 3) (d == 1) (k := h - 2) (t := g - 2) (by omega) (by omega)
  refine ⟨j, ?_⟩
  have := (iterate_nextH (d := d) hp j (h - 2) (by omega)).1
  rwa [show 2 + (h - 2) = h by omega, hjt, show 2 + (g - 2) = g by omega] at this

/-- A result names every result register of the command's row (R23, R263). -/
theorem bodyOf_names (i : Instr) (s : State) {p q : Ports} {r : Result} (h : (bodyOf i s).run p = .ok r q) :
    ((0 : Fin 4) ∈ resultRegisters i → r.x0.isSome) ∧ ((1 : Fin 4) ∈ resultRegisters i → r.x1.isSome) ∧
      ((2 : Fin 4) ∈ resultRegisters i → r.x2.isSome) ∧ ((3 : Fin 4) ∈ resultRegisters i → r.x3.isSome) := by
  cases i with
  | isprime => simp [resultRegisters]
  | nextprime =>
    obtain ⟨b, p1, -, h⟩ := bind_ok_inv h
    rw [pure_ok_inv h]; simp [resultRegisters]
  | rndprime =>
    obtain ⟨b, p1, -, h⟩ := bind_ok_inv (ite_raise_inv (ite_raise_inv h).2).2
    rw [pure_ok_inv h]; simp [resultRegisters]
  | rndprimer =>
    obtain ⟨b, p1, -, h⟩ := bind_ok_inv h
    rw [pure_ok_inv h]; simp [resultRegisters]
  | genpq =>
    obtain ⟨b, p1, -, h⟩ := bind_ok_inv (ite_raise_inv (ite_raise_inv (ite_raise_inv h).2).2).2
    rw [pure_ok_inv h]; simp [resultRegisters]
  | geng =>
    obtain ⟨b, p1, -, h⟩ := bind_ok_inv (ite_raise_inv (ite_raise_inv h).2).2
    rw [pure_ok_inv h]; simp [resultRegisters]
  | verifyg => simp [resultRegisters]
  | genpg =>
    obtain ⟨b, p1, -, h⟩ := bind_ok_inv (ite_raise_inv (ite_raise_inv h).2).2
    obtain ⟨b, p2, -, h⟩ := bind_ok_inv h
    obtain ⟨b, p3, -, h⟩ := bind_ok_inv h
    rw [pure_ok_inv (ite_raise_inv h).2]; simp [resultRegisters]
  | powmod => rw [pure_ok_inv (ite_raise_inv h).2]; simp [resultRegisters]
  | sieve => simp [resultRegisters]
  | mrwit => simp [resultRegisters]
  | seedq =>
    obtain ⟨b, p1, -, h⟩ := bind_ok_inv (ite_raise_inv (ite_raise_inv (ite_raise_inv h).2).2).2
    rw [pure_ok_inv h]; simp [resultRegisters]
  | seedp =>
    obtain ⟨b, p1, -, h⟩ := bind_ok_inv (ite_raise_inv (ite_raise_inv (ite_raise_inv (ite_raise_inv h).2).2).2).2
    rw [pure_ok_inv h]; simp [resultRegisters]

end Sys2Proof.Machine
end

