-- ==== Sys2Proof/Tests/Slice0.lean ====
section
/-! SUPPORT. The model's own tests: ill-formed words, every command's word written out from R104, one step of each command
on a vector of spec/95_test_vectors.md, and for every obligation with hypotheses a state that meets them. -/

namespace Sys2Proof.Tests

-- one test after the other: checked all at once, their threads fill the memory
set_option Elab.async false

open Sys2Proof Sys2Proof.Machine

/-! ### States and what is seen of an outcome -/

/-- The reset state with these values in the big registers. -/
def regs (x0 x1 x2 x3 : Nat) : State :=
  { State.reset with x0 := x0, x1 := x1, x2 := x2, x3 := x3 }

/-- `s` with these parameters. -/
def params (bits qbits seedbits rounds offset : Nat) (s : State) : State :=
  { s with
    bits := BitVec.ofNat _ bits, qbits := BitVec.ofNat _ qbits, seedbits := BitVec.ofNat _ seedbits
    rounds := BitVec.ofNat _ rounds, offset := BitVec.ofNat _ offset }

/-- `s` with these answers ready. -/
def answers (draws : List Nat) (digests : Nat) (s : State) : State := { s with randIn := draws, hashIn := digests }

/-- What the tests look at in an outcome. -/
structure Seen where
  status : Nat
  cause : Nat
  einfo : Nat
  x : List Nat
  /-- requests sent -/
  sent : Nat
  /-- random answers left -/
  left : Nat
  deriving DecidableEq, Repr

/-- STATUS, CAUSE, EINFO, the big registers, and the traffic on the ports, of a next state. -/
def seen (o : Host.Outcome State Fault Refusal) : Option Seen :=
  match o with
  | .next t => some ⟨t.status.toWord.toNat, t.cause.toNat, t.einfo.toNat, [t.x 0, t.x 1, t.x 2, t.x 3],
      t.requests.length, t.randIn.length⟩
  | .fault _ => none
  | .refused _ => none

/-- The next state, if there is one. -/
def nextState (o : Host.Outcome State Fault Refusal) : Option State :=
  match o with
  | .next t => some t
  | .fault _ => none
  | .refused _ => none

theorem of_nextState {o : Host.Outcome State Fault Refusal} {t : State} (h : nextState o = some t) : o = .next t := by
  match o, h with
  | .next _, h => cases h; rfl
  | .fault _, h => cases h
  | .refused _, h => cases h

/-- Why the model refuses, if it does. -/
def refusedFor (o : Host.Outcome State Fault Refusal) : Option Refusal :=
  match o with
  | .next _ => none
  | .fault _ => none
  | .refused r => some r

/-- The reply to a host access. -/
def replied (o : Host.Outcome State Fault Refusal) : Option Reply :=
  match o with
  | .next t => some t.reply
  | .fault _ => none
  | .refused _ => none

/-! ### WellFormed: an ill-formed word for each check -/

/-- R101: ZERO must be 0. -/
theorem test_wellFormed_zero : (FormatC.mk 0x01#8 0x000001#24).wellFormed = false := by decide

/-- R105: opcode 0x00 is not assigned. -/
theorem test_wellFormed_opcode_low : (FormatC.mk 0x00#8 0#24).wellFormed = false := by decide

/-- R105: opcodes from 0x0E on are not assigned. -/
theorem test_wellFormed_opcode_high : (FormatC.mk 0x0E#8 0#24).wellFormed = false := by decide

/-- R104: a legal word passes. -/
theorem test_wellFormed_legal : (FormatC.mk 0x0D#8 0#24).wellFormed = true := by decide

/-! ### Decode: every command's word, bit by bit from R101 and R104 (ZERO in 31:8, OPCODE in 7:0) -/

theorem test_decode_isprime : decode 0b00000000000000000000000000000001#32 = .ok .isprime ∧
    decodeTableWord 32 1 = some .isprime := by decide

theorem test_decode_nextprime : decode 0b00000000000000000000000000000010#32 = .ok .nextprime ∧
    decodeTableWord 32 2 = some .nextprime := by decide

theorem test_decode_rndprime : decode 0b00000000000000000000000000000011#32 = .ok .rndprime ∧
    decodeTableWord 32 3 = some .rndprime := by decide

theorem test_decode_rndprimer : decode 0b00000000000000000000000000000100#32 = .ok .rndprimer ∧
    decodeTableWord 32 4 = some .rndprimer := by decide

theorem test_decode_genpq : decode 0b00000000000000000000000000000101#32 = .ok .genpq ∧
    decodeTableWord 32 5 = some .genpq := by decide

theorem test_decode_geng : decode 0b00000000000000000000000000000110#32 = .ok .geng ∧
    decodeTableWord 32 6 = some .geng := by decide

theorem test_decode_verifyg : decode 0b00000000000000000000000000000111#32 = .ok .verifyg ∧
    decodeTableWord 32 7 = some .verifyg := by decide

theorem test_decode_genpg : decode 0b00000000000000000000000000001000#32 = .ok .genpg ∧
    decodeTableWord 32 8 = some .genpg := by decide

theorem test_decode_powmod : decode 0b00000000000000000000000000001001#32 = .ok .powmod ∧
    decodeTableWord 32 9 = some .powmod := by decide

theorem test_decode_sieve : decode 0b00000000000000000000000000001010#32 = .ok .sieve ∧
    decodeTableWord 32 10 = some .sieve := by decide

theorem test_decode_mrwit : decode 0b00000000000000000000000000001011#32 = .ok .mrwit ∧
    decodeTableWord 32 11 = some .mrwit := by decide

theorem test_decode_seedq : decode 0b00000000000000000000000000001100#32 = .ok .seedq ∧
    decodeTableWord 32 12 = some .seedq := by decide

theorem test_decode_seedp : decode 0b00000000000000000000000000001101#32 = .ok .seedp ∧
    decodeTableWord 32 13 = some .seedp := by decide

/-- V-142 to V-145: illegal words, and the lane order of R64. -/
theorem test_decode_illegal :
    decode 0x00000000#32 = .error (.opcodeUnassigned 0x00#8) ∧ decode 0x0000000E#32 = .error (.opcodeUnassigned 0x0E#8) ∧
    decode 0x00000101#32 = .error (.zeroFieldSet 0x000001#24) ∧ decode 0xFFFFFFFF#32 = .error (.zeroFieldSet 0xFFFFFF#24) ∧
    decodeBytes [0x0A#8, 0#8, 0#8, 0#8, 0x55#8] = .ok (.sieve, [0x55#8]) ∧ decodeBytes [1#8, 0#8, 0#8] = .error .shortWord := by
  decide

/-! ### One step of each command straight after reset (R302; V-48, V-96a, V-103b, V-118c, V-131, V-158, V-159) -/

theorem test_isprime_from_reset :
    seen (step (State.reset.withFetchWord 32 1)) = some ⟨2, 0, 0, [0, 0, 0, 0], 0, 0⟩ := by decide +kernel

theorem test_nextprime_from_reset :
    seen (step (State.reset.withFetchWord 32 2)) = some ⟨2, 0, 0, [3, 0, 0, 0], 0, 0⟩ := by decide +kernel

theorem test_rndprime_from_reset :
    seen (step (State.reset.withFetchWord 32 3)) = some ⟨6, 1, 6, [0, 0, 0, 0], 0, 0⟩ := by decide +kernel

theorem test_rndprimer_from_reset :
    seen (step (State.reset.withFetchWord 32 4)) = some ⟨2, 0, 0, [2, 0, 0, 0], 0, 0⟩ := by decide +kernel

theorem test_genpq_from_reset :
    seen (step (State.reset.withFetchWord 32 5)) = some ⟨6, 1, 1, [0, 0, 0, 0], 0, 0⟩ := by decide +kernel

theorem test_geng_from_reset :
    seen (step (State.reset.withFetchWord 32 6)) = some ⟨6, 1, 9, [0, 0, 0, 0], 0, 0⟩ := by decide +kernel

theorem test_verifyg_from_reset :
    seen (step (State.reset.withFetchWord 32 7)) = some ⟨2, 0, 0, [0, 0, 0, 0], 0, 0⟩ := by decide +kernel

theorem test_genpg_from_reset :
    seen (step (State.reset.withFetchWord 32 8)) = some ⟨6, 1, 4, [0, 0, 0, 0], 0, 0⟩ := by decide +kernel

theorem test_powmod_from_reset :
    seen (step (State.reset.withFetchWord 32 9)) = some ⟨6, 1, 8, [0, 0, 0, 0], 0, 0⟩ := by decide +kernel

theorem test_sieve_from_reset :
    seen (step (State.reset.withFetchWord 32 10)) = some ⟨2, 0, 0, [0, 0, 0, 0], 0, 0⟩ := by decide +kernel

theorem test_mrwit_from_reset :
    seen (step (State.reset.withFetchWord 32 11)) = some ⟨6, 1, 11, [0, 0, 0, 0], 0, 0⟩ := by decide +kernel

theorem test_seedq_from_reset :
    seen (step (State.reset.withFetchWord 32 12)) = some ⟨6, 1, 13, [0, 0, 0, 0], 0, 0⟩ := by decide +kernel

theorem test_seedp_from_reset :
    seen (step (State.reset.withFetchWord 32 13)) = some ⟨6, 1, 13, [0, 0, 0, 0], 0, 0⟩ := by decide +kernel

/-! ### One step of each command on a vector -/

/-- V-46: a liar passes, the next witness does not: two draws, RES = 0. -/
theorem test_isprime_vector : seen (exec .isprime (answers [107423, 2, 5] 0 (params 0 0 0 2 0 (regs 1022117 0 0 0)))) =
    some ⟨2, 0, 0, [1022117, 0, 0, 0], 2, 1⟩ := by decide +kernel

/-- V-56: 1018081 fails its round, the next undecided candidate is 1018091. -/
theorem test_nextprime_vector : seen (exec .nextprime (answers [2, 99] 0 (params 0 0 0 1 0 (regs 1018080 0 0 0)))) =
    some ⟨2, 0, 0, [1018091, 0, 0, 0], 2, 0⟩ := by decide +kernel

/-- V-63: the incrementing wrap 15 → 9, then 11. -/
theorem test_rndprime_vector : seen (exec .rndprime (answers [14, 1] 0 (params 4 0 0 0 0 (regs 0 0 0 0)))) =
    some ⟨2, 0, 0, [11, 0, 0, 0], 2, 0⟩ := by decide +kernel

/-- V-83b: the decrementing walk 121, 119, 117, 115, wrap to 127. -/
theorem test_rndprimer_vector : seen (exec .rndprimer (answers [3, 0] 0 (regs 0 114 126 0))) =
    some ⟨2, 0, 0, [127, 114, 126, 0], 2, 0⟩ := by decide +kernel

/-- V-102: SEEDBITS above NBITS. -/
theorem test_genpq_vector : seen (exec .genpq (params 1024 160 5000 0 0 (regs 0 0 0 0))) =
    some ⟨6, 1, 3, [0, 0, 0, 0], 0, 0⟩ := by decide +kernel

/-- V-113: the decrementing wrap 2 → p − 2. -/
theorem test_geng_vector : seen (exec .geng (answers [2, 0] 0 (regs 31 3 0 0))) =
    some ⟨2, 0, 0, [31, 3, 25, 0], 2, 0⟩ := by decide +kernel

/-- V-123: g = p − 1 with an even q. -/
theorem test_verifyg_vector : seen (exec .verifyg (regs 23 2 22 0)) = some ⟨10, 0, 0, [23, 2, 22, 0], 0, 0⟩ := by
  decide +kernel

/-- V-132: BITS above NBITS. -/
theorem test_genpg_vector : seen (exec .genpg (params 4097 0 0 0 0 (regs 0 0 0 0))) =
    some ⟨6, 1, 5, [0, 0, 0, 0], 0, 0⟩ := by decide +kernel

/-- V-10: two-limb operands. -/
theorem test_powmod_vector : seen (exec .powmod (regs 0x1FFFFFFFFFFFFFFF 65537 123456789 0)) =
    some ⟨2, 0, 0, [0x1FFFFFFFFFFFFFFF, 65537, 123456789, 0x1A4BA4B7E2F9CA6E], 0, 0⟩ := by decide +kernel

/-- V-25: a composite without a small factor. -/
theorem test_sieve_vector : seen (exec .sieve (regs 1018081 0 0 0)) = some ⟨0x12, 0, 0, [1018081, 0, 0, 0], 0, 0⟩ := by
  decide +kernel

/-- V-28g: the Carmichael number 561, witness 2, fails. -/
theorem test_mrwit_vector : seen (exec .mrwit (regs 561 0 2 0)) = some ⟨2, 0, 0, [561, 0, 2, 0], 0, 0⟩ := by
  decide +kernel

/-- The 32-byte digest of value `v`. -/
def digest (v : Nat) : Vector Byte Config.DIGESTBYTES := Vector.ofFn fun i => BitVec.ofNat 8 (v >>> (8 * (31 - i.val)))

/-- A run of a command's algorithm with this hash oracle and enough digests: result registers, RES, requests. -/
def derived (o : Oracle) (i : Instr) (s : State) : Option (Option Nat × Option Nat × Bool × List Request) :=
  match (bodyOf i s).run ⟨o, [], 100, [], 0, []⟩ with
  | .ok r p => some (r.x0, r.x1, r.res, p.sent.reverse)
  | .error _ _ => none

/-- V-91: U even. -/
theorem test_seedq_vector : derived (fun _ => digest 0xABCC) .seedq (params 0 16 16 0 0 (regs 0 0 0 0x1234)) =
    some (none, some 0xABCD, false, [.hash [0x12#8, 0x34#8]]) := by decide +kernel

/-- V-98: three digests, the weight of each and the reduction of the last. -/
theorem test_seedp_vector : derived
    (fun m => digest (if m = [0x00#8, 0x0A#8] then 0x000102030405060708090A0B0C0D0E0F101112131415161718191A1B1C1D1E1F
      else if m = [0x00#8, 0x0B#8] then 0x202122232425262728292A2B2C2D2E2F303132333435363738393A3B3C3D3E3F
      else 2 ^ 256 - 256 + 0xD5))
    .seedp (params 520 0 16 0 3 (regs 0 1000003 0 7)) =
    some (some (0xD5202122232425262728292A2B2C2D2E2F303132333435363738393A3B3C3D3E3F * 2 ^ 256
        + 0x000102030405060708090A0B0C0D0E0F101112131415161718191A1B1C081D1F), none, true,
      [.hash [0x00#8, 0x0A#8], .hash [0x00#8, 0x0B#8], .hash [0x00#8, 0x0C#8]]) := by decide +kernel

/-! ### The register bank -/

/-- V-140, V-141: reads after reset. -/
theorem test_bank_reads :
    [0x000, 0x004, 0x00C, 0x400, 0x578, 0x69C, 0x6A0, 0x1000].map (fun a => replied (step (State.reset.event (.read a 32)))) =
    [0x4D524531#32, 0xA8201000#32, 0#32, 2#32, 499#32, 997#32, 0#32, 0#32].map fun w => some (.data w) := by decide +kernel

/-- V-153: refused accesses. -/
theorem test_bank_refused :
    step (State.reset.event (.write 0x020 16 1#32)) = .fault (.busRefused 0x020 16) ∧
    step (State.reset.event (.read 0x022 32)) = .fault (.busRefused 0x022 32) ∧
    step (State.reset.event (.read 0x2000 32)) = .fault (.busRefused 0x2000 32) := ⟨rfl, rfl, rfl⟩

/-- V-154: ISPRIME on 1009 with ROUNDS = 1 and no answer: the state while BUSY = 1. -/
def waiting : State :=
  (params 0 0 0 1 0 (regs 1009 0 0 0)).flying 0x1#32 ⟨.isprime, [], 0, some (.randRange 2 1007)⟩ [.randRange 2 1007] [] 0

theorem test_waiting : step ((params 0 0 0 1 0 (regs 1009 0 0 0)).event (.write 0x008 32 0x1#32)) =
    .next { waiting with reply := .accepted } := of_nextState (by decide +kernel)

/-- V-154: a limb write while BUSY = 1 sets WIGN only. -/
theorem test_write_ignored : seen (step (waiting.event (.write 0x1000 32 4#32))) =
    some ⟨0x21, 0, 0, [1009, 0, 0, 0], 1, 0⟩ := by decide +kernel

/-- V-154: the answer 2 ends the command. -/
theorem test_answer : seen (step (waiting.event (.randAnswer 2))) = some ⟨0x0A, 0, 0, [1009, 0, 0, 0], 1, 0⟩ := by
  decide +kernel

/-- R79, U4: an answer out of range is no behaviour of the machine. -/
theorem test_bad_answer : refusedFor (step (waiting.event (.randAnswer 1008))) =
    some (.randomContract (.randRange 2 1007) 1008) := by decide +kernel

/-- R301: an answer that was delivered to the command goes with it; the next command starts without it. -/
theorem test_reset_discards_answer :
    Host.Core.run Sys2Proof.core 2 { waiting with script := [.randAnswer 2, .engineLate, .reset] } =
      .next State.reset := rfl

/-- R4, R34, R63: the narrowest and the widest chip: CAP, the last limb of x[0] that reads as stored, and the first that is
reserved. -/
theorem test_widths :
    [0x004, 0x117C, 0x1180].map (fun a => replied (step ({ State.resetOf 0 with x0 := 2 ^ 3072 - 1 }.event (.read a 32)))) =
      [0xA8200C00#32, 0xFFFFFFFF#32, 0#32].map (fun w => some (.data w)) ∧
    [0x004, 0x13FC, 0x1400].map (fun a => replied (step ({ State.resetOf 160 with x0 := 2 ^ 8192 - 1 }.event (.read a 32)))) =
      [0xA8202000#32, 0xFFFFFFFF#32, 0#32].map (fun w => some (.data w)) := by decide +kernel

/-! ### Witnesses: states that meet the hypotheses of the obligations -/

theorem ready_of (s : State) (h1 : s.status.busy = false) (h2 : s.script = []) : s.ready := ⟨h1, by simp [h2]⟩

/-- The tests' states are ready. -/
theorem ready_regs (x0 x1 x2 x3 b q sb r o : Nat) (draws : List Nat) (k : Nat) :
    (answers draws k (params b q sb r o (regs x0 x1 x2 x3))).ready := ready_of _ rfl rfl

theorem not_decided {n : Nat} (h : sieve n = .undecided) : ¬TableDecides n := by
  intro ht
  rw [(sieve_spec n).1 ht] at h
  split at h <;> cases h

/-- A run of `is_prime` that passes `rounds` rounds with one witness. -/
theorem run_pass {n a : Nat} (rounds : Nat) (h1 : sieve n = .undecided) (h2 : 2 ≤ a ∧ a ≤ n - 2)
    (h3 : mrRound n (decompose n).1 (decompose n).2 a = true) :
    IsPrimeRun n rounds (List.replicate rounds a) true := by
  have ht := not_decided h1
  obtain ⟨h4, h5⟩ := undecided_facts ht
  refine .pass _ ht (by simp) fun b hb => ?_
  rw [List.eq_of_mem_replicate hb]
  exact ⟨h2.1, h2.2, (mrRound_decompose (by omega) h5).mp h3⟩

/-- A run of `is_prime` that the table decides with `false`. -/
theorem run_table_false {n t : Nat} (rounds : Nat) (h1 : t ∈ smallPrimeTable) (h2 : n % t = 0) (h3 : n ∉ smallPrimeTable) :
    IsPrimeRun n rounds [] false := by
  have := IsPrimeRun.table (n := n) (rounds := rounds) (.inr ⟨t, h1, Nat.dvd_of_mod_eq_zero h2⟩)
  simpa [h3] using this

/-- A run of `is_prime` on a table prime. -/
theorem run_table_true {n : Nat} (rounds : Nat) (h : n ∈ smallPrimeTable) : IsPrimeRun n rounds [] true := by
  have := IsPrimeRun.table (n := n) (rounds := rounds) (.inr ⟨n, h, dvd_refl n⟩)
  simpa [h] using this


theorem witness_IllegalWordsNamed :
    (0x00000101#32).extractLsb' 8 24 ≠ 0#24 ∧
    ((0x00000000#32).extractLsb' 8 24 = 0#24 ∧ ((0x00000000#32).extractLsb' 0 8).toNat = 0) ∧
    ((0x0000000E#32).extractLsb' 8 24 = 0#24 ∧ 14 ≤ ((0x0000000E#32).extractLsb' 0 8).toNat) := by decide

theorem witness_DecodeEncodeAgree : Instr.seedp.wellFormed = true ∧ decode 0x0000000D#32 = .ok .seedp := by decide

theorem witness_StepRunsCommand : decode 0x00000001#32 = .ok .isprime := by decide

theorem witness_IllegalCommandWord : State.reset.status.busy = false ∧ ((0x00000000#32).extractLsb' 0 8).toNat = 0 ∧
    0x0E ≤ ((0x0000000E#32).extractLsb' 0 8).toNat ∧ (0x00000101#32).extractLsb' 8 24 ≠ 0#24 := by decide

/-- CommandWriteWhileBusy, WritesWhileBusy, ResetEvent (a random request is outstanding). -/
theorem witness_busy : waiting.status.busy = true ∧ waiting.inFlight = some ⟨.isprime, [], 0, some (.randRange 2 1007)⟩ :=
  ⟨rfl, rfl⟩

theorem witness_WritesWhileBusy : waiting.status.busy = true ∧ OperandAddress waiting.nlimbs 0x020 ∧ OperandAddress waiting.nlimbs 0x030 ∧
    OperandAddress waiting.nlimbs 0x1000 ∧ OperandAddress waiting.nlimbs 0x1DFC ∧ ¬OperandAddress waiting.nlimbs 0x1FFC ∧ ¬OperandAddress waiting.nlimbs 0x000 := by
  refine ⟨rfl, .inl ⟨.bits, rfl⟩, .inl ⟨.offset, rfl⟩, .inr ⟨0, 0, by decide, rfl⟩, .inr ⟨3, 127, by decide, rfl⟩, ?_, ?_⟩
  · rintro (⟨p, hp⟩ | ⟨i, j, hj, ha⟩)
    · cases p <;> exact absurd hp (by decide)
    · have hN : waiting.nlimbs = 128 := rfl
      have := i.isLt
      unfold limbOffset at ha
      omega
  · rintro (⟨p, hp⟩ | ⟨i, j, hj, ha⟩)
    · cases p <;> exact absurd hp (by decide)
    · unfold limbOffset at ha
      omega

/-- CommandStart, LimbAccess, ParameterWrite, Acknowledge. -/
theorem witness_idle : State.reset.status.busy = false ∧ 127 < State.reset.nlimbs := by decide

/-- RegisterIsSumOfLimbs, LoadRegister: the greatest value the register takes. -/
theorem witness_LoadRegister : (State.resetOf 160).Consistent ∧ (State.resetOf 160).status.busy = false ∧
    2 ^ 8192 - 1 < 2 ^ (State.resetOf 160).nbits := by
  refine ⟨?_, rfl, by decide +kernel⟩
  constructor
  case fits => exact by decide +kernel
  all_goals simp [State.resetOf, Status.zero]

theorem witness_EngineMoveTime : State.reset.ready ∧ ∃ t, exec .sieve (State.reset.event .engineLate) = .next t :=
  ⟨ready_of _ rfl rfl, _, rfl⟩

/-- AnswerTime: a random request and a hash request that wait. -/
theorem witness_AnswerTime :
    ((answers [] 0 (params 0 0 0 1 0 (regs 1009 0 0 0))).ready ∧
      ∃ t, exec .isprime (answers [] 0 (params 0 0 0 1 0 (regs 1009 0 0 0))) = .next t ∧
        t.inFlight = some ⟨.isprime, [], 0, some (.randRange 2 1007)⟩) ∧
    ((answers [] 0 (params 0 16 16 0 0 (regs 0 0 0 1))).ready ∧
      ∃ t, exec .seedq (answers [] 0 (params 0 16 16 0 0 (regs 0 0 0 1))) = .next t ∧
        t.inFlight = some ⟨.seedq, [], 0, some (.hash [0#8, 1#8])⟩) :=
  ⟨⟨ready_regs .., _, of_nextState (t := { waiting with reply := .none }) (by decide +kernel), rfl⟩,
   ⟨ready_regs .., _, of_nextState (t := (params 0 16 16 0 0 (regs 0 0 0 1)).flying 0xC#32
      ⟨.seedq, [], 0, some (.hash [0#8, 1#8])⟩ [.hash [0#8, 1#8]] [] 0) (by decide +kernel), rfl⟩⟩

theorem witness_ReadsHaveNoEffect : 0x1FFC % 4 = 0 ∧ 0x1FFC < 0x2000 ∧ State.reset.status.busy = false := by decide

/-- ReservedWords: each range at both ends. -/
theorem witness_ReservedWords : ∀ addr ∈ [0x034, 0x3FC, 0x6A0, 0xFFC, 0x1200, 0x13FC, 0x1E00, 0x1FFC], addr % 4 = 0 ∧
    (addr = 0x01C ∨ (0x034 ≤ addr ∧ addr < 0x400) ∨ (0x6A0 ≤ addr ∧ addr < 0x1000) ∨
      (0x1000 ≤ addr ∧ addr < 0x2000 ∧ 4 * State.reset.nlimbs ≤ (addr - 0x1000) % 0x400)) := by decide

theorem waiting_consistent : waiting.Consistent := by
  constructor
  case fits => exact by decide +kernel
  all_goals simp [waiting, State.flying, params, regs, encode]

theorem waiting_replays : waiting.Replays := by
  intro f hf
  cases hf
  decide +kernel

theorem waiting_portsLegal : waiting.PortsLegal := by
  have hN : 1007 < 2 ^ waiting.nbits := by decide +kernel
  refine ⟨fun r hr => ?_, fun f r hf hr => ?_⟩
  · have : r = .randRange 2 1007 := by simpa [waiting, State.flying] using hr
    subst this
    exact ⟨by omega, hN⟩
  · cases hf
    cases hr
    rfl

/-- ReadsWhileBusy, ConsistencyKept, ReplayKept, PortsStayLegal, OperandsLocked, PhaseChanges: a state in which a command
waits, and a step from it to a state in which it still does. -/
theorem witness_invariants : waiting.Consistent ∧ waiting.Replays ∧ waiting.PortsLegal ∧ waiting.status.busy = true ∧
    step (waiting.event .engine) = .next waiting := ⟨waiting_consistent, waiting_replays, waiting_portsLegal, rfl, rfl⟩

/-- PhaseChanges: a step for each way a phase is left. -/
theorem witness_PhaseChanges :
    (∃ t, step ((params 0 0 0 1 0 (regs 1009 0 0 0)).event (.write 0x008 32 0x1#32)) = .next t ∧ t.status.phase = .busy) ∧
    (∃ t, step (waiting.event (.randAnswer 2)) = .next t ∧ t.status.phase = .done) ∧
    (∃ t, step (waiting.event .reset) = .next t ∧ t.status.phase = .idle) ∧
    (State.failedWith State.reset 9#32 1#32 8#32 [] [] 0).status.phase = .done ∧
    (∃ t, step ((State.failedWith State.reset 9#32 1#32 8#32 [] [] 0).event (.write 0x00C 32 2#32)) = .next t ∧
      t.status.phase = .idle) := by
  refine ⟨⟨_, test_waiting, rfl⟩, ⟨_, of_nextState (t := { (params 0 0 0 1 0 (regs 1009 0 0 0)).ended 1#32 true false
    [.randRange 2 1007] [] 0 with script := [] }) (by decide +kernel), rfl⟩, ⟨_, rfl, rfl⟩, rfl, ⟨_, rfl, rfl⟩⟩

theorem witness_EngineIdle : State.reset.inFlight = none ∧ State.reset.script = [] := ⟨rfl, rfl⟩

theorem witness_ResultsFit : (∀ k, (regs 497 13 4 0).x k < 2 ^ (regs 497 13 4 0).nbits) ∧ (bodyOf .powmod (regs 497 13 4 0)).run ⟨Config.hash, [], 0, [], 0, []⟩ =
    .ok { x3 := some 445 } ⟨Config.hash, [], 0, [], 0, []⟩ := by
  have h : (bodyPowmod (regs 497 13 4 0)) = (pure { x3 := some 445 } : Engine Result) := by
    have h0 : (regs 497 13 4 0).x 0 = 497 := by decide +kernel
    have h1 : powMod ((regs 497 13 4 0).x 2) ((regs 497 13 4 0).x 1) 497 = 445 := by decide +kernel
    simp [bodyPowmod, h0, h1]
  refine ⟨by decide +kernel, ?_⟩
  show (bodyPowmod (regs 497 13 4 0)).run _ = _
  rw [h]
  rfl

/-- RegisterChanges, HostOnlyState: a limb write, a parameter write and a command change what they may change. -/
theorem witness_RegisterChanges :
    (∃ t, step (State.reset.event (.write 0x1FC 32 1#32)) = .next t) ∧
    (∃ t, step (State.reset.event (.write 0x1C00 32 1#32)) = .next t ∧ t.x 3 ≠ State.reset.x 3) ∧
    (∃ t, step (State.reset.event (.write 0x030 32 1#32)) = .next t ∧ t.param .offset ≠ State.reset.param .offset) ∧
    (∃ t, step ((regs 497 13 4 0).event (.write 0x008 32 9#32)) = .next t ∧ t.x 3 ≠ (regs 497 13 4 0).x 3) := by
  refine ⟨⟨_, rfl⟩, ⟨_, rfl, by decide +kernel⟩, ⟨_, rfl, by decide +kernel⟩,
    ⟨_, of_nextState (t := { (regs 497 13 4 0).ended 9#32 false false [] [] 0 with
      x3 := 445, reply := .accepted }) (by decide +kernel), by decide +kernel⟩⟩

/-- HostOnlyState: WIGN is set and cleared. -/
theorem witness_HostOnlyState :
    (∃ t, step (waiting.event (.write 0x1000 32 4#32)) = .next t ∧ waiting.status.wign = false ∧ t.status.wign = true ∧
      ∃ u, step (t.event (.write 0x00C 32 0x20#32)) = .next u ∧ u.status.wign = false) ∧
    (∃ t, step (waiting.event (.write 0x018 32 1#32)) = .next t ∧ t.ie ≠ waiting.ie) :=
  ⟨⟨_, rfl, rfl, rfl, _, rfl, rfl⟩, ⟨_, rfl, by decide⟩⟩

/-- CommandFrame, ErrorCauses, CompletionInterrupt: a command that ends with an error. -/
theorem witness_ErrorCauses : State.reset.ready ∧ State.reset.status.busy = false ∧
    ∃ t, exec .seedp State.reset = .next t ∧ t.status.err = true :=
  ⟨ready_of _ rfl rfl, rfl, _, of_nextState (t := State.reset.failedWith 0xD#32 1#32 13#32 [] [] 0) (by decide +kernel), rfl⟩

/-- ReadsNamedOperands: SIEVE in two states that agree on x[0] only. -/
theorem witness_ReadsNamedOperands : (regs 997 1 2 3).ready ∧ (params 9 9 9 9 9 (regs 997 0 0 0)).ready ∧
    (params 9 9 9 9 9 (regs 997 0 0 0)).width = (regs 997 1 2 3).width ∧
    (∀ k ∈ operandRegisters .sieve, (params 9 9 9 9 9 (regs 997 0 0 0)).x k = (regs 997 1 2 3).x k) ∧
    (∀ p ∈ operandParams .sieve, (params 9 9 9 9 9 (regs 997 0 0 0)).param p = (regs 997 1 2 3).param p) ∧
    ∃ t, exec .sieve (regs 997 1 2 3) = .next t ∧ t.status.busy = false ∧ t.status.err = false :=
  ⟨ready_of _ rfl rfl, ready_of _ rfl rfl, rfl, by decide +kernel, by decide, _,
    of_nextState (t := (regs 997 1 2 3).ended 0xA#32 true false [] [] 0) (by decide +kernel), rfl, rfl⟩

theorem witness_InFlightWaits : ∃ s t f, s.ready ∧ exec .isprime s = .next t ∧ t.inFlight = some f ∧ Instr.isprime ≠ .geng :=
  ⟨_, _, _, ready_regs 1009 0 0 0 0 0 0 1 0 [] 0,
    of_nextState (t := { waiting with reply := .none }) (by decide +kernel), rfl, by decide⟩

/-- Powmod: m = 0 and the least m above it. -/
theorem witness_Powmod : (regs 0 1 2 0).ready ∧ (regs 0 1 2 0).x 0 = 0 ∧ (regs 1 0 5 0).ready ∧ (regs 1 0 5 0).x 0 ≠ 0 :=
  ⟨ready_of _ rfl rfl, by decide +kernel, ready_of _ rfl rfl, by decide +kernel⟩

/-- Sieve, Verifyg: every ready state. -/
theorem witness_ready : State.reset.ready := ready_of _ rfl rfl

/-- Mrwit: an even n, n = 3, and for n = 5 and 9 the values of a around both ends of [2, n − 2]. -/
theorem witness_Mrwit : (regs 4 0 2 0).ready ∧ (regs 4 0 2 0).x 0 % 2 = 0 ∧ (regs 3 0 2 0).x 0 < 5 ∧
    ((regs 9 0 1 0).x 0 % 2 = 1 ∧ 5 ≤ (regs 9 0 1 0).x 0 ∧ (regs 9 0 1 0).x 2 < 2) ∧
    (regs 9 0 8 0).x 0 < (regs 9 0 8 0).x 2 + 2 ∧
    ((regs 5 0 2 0).x 0 % 2 = 1 ∧ 5 ≤ (regs 5 0 2 0).x 0 ∧ 2 ≤ (regs 5 0 2 0).x 2 ∧
      (regs 5 0 3 0).x 2 + 2 ≤ (regs 5 0 3 0).x 0) := ⟨ready_of _ rfl rfl, by decide +kernel⟩

theorem liar : StrongPass 1022117 107423 := (mrRound_decompose (by omega) (by omega)).mp (by decide +kernel)

theorem no_liar : ¬StrongPass 1022117 2 := by
  rw [← mrRound_decompose (by omega) (by omega)]
  decide +kernel

/-- Isprime: a table prime, a false positive (V-44) and an early exit (V-46). -/
theorem witness_Isprime :
    (IsPrimeRun ((regs 997 0 0 0).x 0) 1 [] true ∧ (regs 997 0 0 0).ready) ∧
    IsPrimeRun 1022117 1 [107423] true ∧ IsPrimeRun 1022117 2 ([107423] ++ [2]) false ∧
    (answers [107423, 2] 0 (params 0 0 0 2 0 (regs 1022117 0 0 0))).ready ∧
    (answers [107423, 2] 0 (params 0 0 0 2 0 (regs 1022117 0 0 0))).x 0 = 1022117 ∧
    (answers [107423, 2] 0 (params 0 0 0 2 0 (regs 1022117 0 0 0))).paramNat .rounds = 2 := by
  have ht : ¬TableDecides 1022117 := not_decided (by decide +kernel)
  refine ⟨⟨run_table_true 1 (by decide +kernel), ready_of _ rfl rfl⟩, .pass _ ht rfl ?_, .fail _ _ ht (by simp) ?_ (by omega)
    (by omega) no_liar, ready_regs .., by decide +kernel, by decide +kernel⟩
  · simpa using liar
  · simpa using liar

/-- Isprime, the clause on its end: ROUNDS = 0, and as many answers as ROUNDS, at both ends of [2, n − 2]. -/
theorem witness_Isprime_ends : (answers [2, 1007] 0 (params 0 0 0 2 0 (regs 1009 0 0 0))).ready ∧
    (answers [2, 1007] 0 (params 0 0 0 2 0 (regs 1009 0 0 0))).paramNat .rounds ≤ [2, 1007].length ∧
    (∀ a ∈ [2, 1007].take 2, 2 ≤ a ∧ a ≤ (regs 1009 0 0 0).x 0 - 2) ∧ State.reset.paramNat .rounds ≤ [].length (α := Nat) :=
  ⟨ready_regs .., by decide +kernel⟩

theorem witness_IsprimeWaits : (answers [107423] 0 (params 0 0 0 2 0 (regs 1022117 0 0 0))).ready ∧ ¬TableDecides 1022117 ∧
    (regs 1022117 0 0 0).x 0 = 1022117 ∧
    [107423].length < (answers [107423] 0 (params 0 0 0 2 0 (regs 1022117 0 0 0))).paramNat .rounds ∧
    ∀ a ∈ [107423], 2 ≤ a ∧ a ≤ 1022117 - 2 ∧ StrongPass 1022117 a :=
  ⟨ready_regs .., not_decided (by decide +kernel), by decide +kernel, by decide +kernel, by simpa using liar⟩

/-- IsprimeFacts: one state for each clause. -/
theorem witness_IsprimeFacts :
    ((regs 997 0 0 0).ready ∧ (regs 997 0 0 0).x 0 ∈ smallPrimeTable) ∧
    (2 ∈ smallPrimeTable ∧ 997 ∈ smallPrimeTable ∧ (regs 1994 0 0 0).x 0 = 2 * 997) ∧
    ((regs 4 0 0 0).x 0 % 2 = 0 ∧ 2 < (regs 4 0 0 0).x 0) ∧ (regs 1 0 0 0).x 0 < 2 ∧
    ((answers [2, 1007] 0 (params 0 0 0 2 0 (regs 1009 0 0 0))).x 0 = 1009 ∧ Nat.Prime 1009 ∧ ¬1009 ≤ 997 ∧
      [2, 1007].length = (answers [2, 1007] 0 (params 0 0 0 2 0 (regs 1009 0 0 0))).paramNat .rounds ∧
      ∀ a ∈ [2, 1007], 2 ≤ a ∧ a ≤ 1009 - 2) ∧
    (¬TableDecides 1022117 ∧ StrongPass 1022117 107423 ∧ ¬StrongPass 1022117 2) ∧
    State.reset.paramNat .rounds = 0 :=
  ⟨⟨ready_of _ rfl rfl, by decide +kernel⟩, by decide +kernel, by decide +kernel, by decide +kernel,
    ⟨by decide +kernel, by norm_num, by omega, by decide +kernel, by decide⟩,
    ⟨not_decided (by decide +kernel), liar, no_liar⟩, by decide +kernel⟩

/-- Nextprime, the walk that finds (V-48): 1 fails, 3 passes. -/
theorem witness_Nextprime_found : (regs 0 0 0 0).ready ∧ (regs 0 0 0 0).x 0 = 0 ∧
    SearchRun ((regs 0 0 0 0).paramNat .rounds) (fun n => n + 2) 1 ([] ++ []) (witnessRequests 1 [] ++ witnessRequests 3 []) 3 ∧
    3 < 2 ^ State.reset.nbits := by
  refine ⟨ready_of _ rfl rfl, by decide +kernel, .step _ _ _ _ _ ?_ (.found _ _ (run_table_true _ (by decide +kernel))),
    by decide +kernel⟩
  have := IsPrimeRun.table (n := 1) (rounds := (regs 0 0 0 0).paramNat .rounds) (.inl (by omega))
  simpa [show 1 ∉ smallPrimeTable by decide +kernel] using this

/-- Nextprime, the last number of the register width (V-57). -/
theorem witness_Nextprime_overflow : (regs (2 ^ 4096 - 1) 0 0 0).ready ∧ (regs (2 ^ 4096 - 1) 0 0 0).x 0 = 2 ^ 4096 - 1 ∧
    WidthExhausted 4096 0 (2 ^ 4096 - 1) [] (witnessRequests (2 ^ 4096 - 1) []) :=
  ⟨ready_of _ rfl rfl, by decide +kernel, .last _ _ (run_table_false 0 (t := 3) (by decide +kernel) (by decide +kernel)
    (by decide +kernel)) (by decide +kernel)⟩

/-- Rndprime: both checks at their boundary, BITS = 1, and V-63. -/
theorem witness_Rndprime : (params 0 0 0 0 0 (regs 0 0 0 0)).ready ∧ (params 0 0 0 0 0 (regs 0 0 0 0)).paramNat .bits = 0 ∧
    State.reset.nbits < (params 4097 0 0 0 0 (regs 0 0 0 0)).paramNat .bits ∧
    ((params 1 0 0 0 0 (regs 0 0 0 0)).paramNat .bits = 1 ∧ RandomPrimeRun 1 [] [] 1) ∧
    ((params 4 0 0 0 0 (regs 0 0 0 0)).paramNat .bits = 4 ∧ ∃ sent, RandomPrimeRun 4 [14, 1] sent 11) := by
  have h := RandomPrimeRun.search (bits := 4) 14 1 _ _ 11 (by omega) (by decide) (by decide)
    (.step _ [] [] _ _ (run_table_false _ (t := 3) (by decide +kernel) (by decide +kernel) (by decide +kernel))
    (.step _ [] [] _ _ (run_table_false _ (t := 3) (by decide +kernel) (by decide +kernel) (by decide +kernel))
      (.found _ [] (run_table_true _ (by decide +kernel)))))
  exact ⟨ready_of _ rfl rfl, by decide +kernel, by decide +kernel, ⟨by decide +kernel, .one rfl⟩, by decide +kernel, _, h⟩

/-- Rndprimer: the three short circuits, V-76 (found, u = c) and V-74 (the budget c = 0 spent). -/
theorem witness_Rndprimer :
    ((regs 0 5 3 0).ready ∧ (regs 0 5 3 0).x 2 < (regs 0 5 3 0).x 1) ∧ (regs 0 0 1 0).x 2 < 2 ∧
    ((regs 0 10 10 0).x 2 = (regs 0 10 10 0).x 1 ∧ (regs 0 10 10 0).x 2 % 2 = 0) ∧
    ((answers [1, 0] 0 (regs 0 8 10 0)).ready ∧ (regs 0 8 10 0).x 1 = 8 ∧ (regs 0 8 10 0).x 2 = 10 ∧
      RangeRun (fun cand => if 0 = 1 then (if cand + 2 > 11 then 9 else cand + 2)
        else if cand < 9 + 2 then 11 else if cand - 2 = 1 then 11 else cand - 2) 1 ((9 + 2 * 1) ||| 1) []
        (witnessRequests ((9 + 2 * 1) ||| 1) []) (some ((9 + 2 * 1) ||| 1))) ∧
    ((answers [0, 1] 0 (regs 0 9 9 0)).ready ∧ (regs 0 9 9 0).x 1 = 9 ∧ (regs 0 9 9 0).x 2 = 9 ∧
      RangeRun (fun cand => if 1 = 1 then (if cand + 2 > 9 then 9 else cand + 2)
        else if cand < 9 + 2 then 9 else if cand - 2 = 1 then 9 else cand - 2) 0 ((9 + 2 * 0) ||| 1) []
        (witnessRequests ((9 + 2 * 0) ||| 1) []) none) :=
  ⟨⟨ready_of _ rfl rfl, by decide +kernel⟩, by decide +kernel, by decide +kernel,
    ⟨ready_of _ rfl rfl, by decide +kernel, by decide +kernel, .found _ _ [] (run_table_true _ (by decide +kernel))⟩,
    ⟨ready_of _ rfl rfl, by decide +kernel, by decide +kernel, .exhausted _ _ [] (run_table_false _ (t := 3)
      (by decide +kernel) (by decide +kernel) (by decide +kernel)) (by omega)⟩⟩

/-- GenpqStart: an unsupported pair, SEEDBITS at QBITS − 1 and NBITS + 1, and an accepted start. -/
theorem witness_GenpqStart :
    ((params 1024 200 256 0 0 (regs 0 0 0 0)).ready ∧ (1024, 200) ∉ [(1024, 160), (2048, 224), (2048, 256), (3072, 256)]) ∧
    ((params 2048 256 255 0 0 (regs 0 0 0 0)).paramNat .seedbits < (params 2048 256 255 0 0 (regs 0 0 0 0)).paramNat .qbits) ∧
    State.reset.nbits < (params 1024 160 4097 0 0 (regs 0 0 0 0)).paramNat .seedbits ∧
    ((params 1024 160 160 0 0 (regs 0 0 0 0)).ready ∧
      (params 1024 160 160 0 0 (regs 0 0 0 0)).paramNat .qbits ≤ (params 1024 160 160 0 0 (regs 0 0 0 0)).paramNat .seedbits ∧
      (params 1024 160 160 0 0 (regs 0 0 0 0)).paramNat .seedbits ≤ State.reset.nbits ∧
      (params 1024 160 160 0 0 (regs 0 0 0 0)).randIn = []) :=
  ⟨⟨ready_of _ rfl rfl, by decide⟩, by decide +kernel, by decide +kernel, ready_of _ rfl rfl, by decide +kernel⟩

/-- A prime q of 160 bits, and a prime p of 1024 bits with p = 1 modulo 2q. -/
def pqQ : Nat := 2 ^ 159 + 0x12b

def pqP : Nat := 2 ^ 1023 + 0x317bffffffffffaec41efa48b2e000000000007397a9

/-- A hash oracle that derives them from the seed 0: the digest of 0 is q, those of 1 to 4 are the words of p − 1 − 2^1023. -/
def pqOracle : Oracle := fun m =>
  digest (if be2i m = 0 then pqQ else (pqP - 1 - 2 ^ 1023) >>> (256 * (be2i m - 1)))

theorem pq_q : qOfSeed pqOracle 0 160 160 = pqQ := by decide +kernel

theorem pq_p : pOfSeed pqOracle 0 160 1 1024 pqQ = pqP := by decide +kernel

theorem pq_run : ∃ sent, OuterRun pqOracle 1024 160 160
    (0 :: (List.replicate 25 2 ++ List.replicate 25 2)) sent pqP pqQ := by
  have hq : IsPrimeRun pqQ Config.GEN_ROUNDS (List.replicate 25 2) true :=
    run_pass 25 (by decide +kernel) (by decide +kernel) (by decide +kernel)
  have hp : IsPrimeRun pqP Config.GEN_ROUNDS (List.replicate 25 2) true :=
    run_pass 25 (by decide +kernel) (by decide +kernel) (by decide +kernel)
  have hi := InnerRun.found (o := pqOracle) (seed := 0) (S := 160) (L := 1024) (q := pqQ) 4095 1 (List.replicate 25 2)
    (by rw [pq_p]; decide +kernel) (by rw [pq_p]; exact hp)
  rw [pq_p] at hi
  have ho := OuterRun.found (o := pqOracle) (L := 1024) (N := 160) (S := 160) 0 (List.replicate 25 2) (List.replicate 25 2) _
    pqP (by decide +kernel) (by rw [pq_q]; exact hq) (by rw [pq_q]; exact hi)
  rw [pq_q] at ho
  exact ⟨_, ho⟩

/-- GenpqOutcome: an accepted start with 26 ready answers, the smallest and the greatest in range among them. -/
theorem witness_GenpqOutcome : ∃ s : State, s.ready ∧
    (s.paramNat .bits, s.paramNat .qbits) ∈ [(1024, 160), (2048, 224), (2048, 256), (3072, 256)] ∧
    s.paramNat .qbits ≤ s.paramNat .seedbits ∧ s.paramNat .seedbits ≤ s.nbits ∧
    ∀ a ∈ s.randIn, 2 ≤ a ∧ a < 2 ^ (s.paramNat .qbits - 1) :=
  ⟨answers ((2 ^ 159 - 1) :: List.replicate 25 2) 7 (params 1024 160 160 0 0 (regs 0 0 0 0)), ready_regs ..,
    by decide +kernel, by decide +kernel, by decide +kernel, by decide +kernel⟩

/-- GenpqSearch: a complete run. -/
theorem witness_GenpqSearch : ∃ (s : State) (o : Oracle) (as rest : List Nat) (sent : List Request) (p q left : Nat), s.ready ∧
    (s.paramNat .bits, s.paramNat .qbits) ∈ [(1024, 160), (2048, 224), (2048, 256), (3072, 256)] ∧
    s.paramNat .qbits ≤ s.paramNat .seedbits ∧ s.paramNat .seedbits ≤ s.nbits ∧
    OuterRun o (s.paramNat .bits) (s.paramNat .qbits) (s.paramNat .seedbits) as sent p q ∧
    s.randIn = as ++ rest ∧ s.hashIn = hashCount sent + left := by
  obtain ⟨sent, h⟩ := pq_run
  have hb : ((params 1024 160 160 0 0 (regs 0 0 0 0)).paramNat .bits, (params 1024 160 160 0 0 (regs 0 0 0 0)).paramNat .qbits) ∈
      [(1024, 160), (2048, 224), (2048, 256), (3072, 256)] := by decide +kernel
  have hq : (params 1024 160 160 0 0 (regs 0 0 0 0)).paramNat .qbits ≤
      (params 1024 160 160 0 0 (regs 0 0 0 0)).paramNat .seedbits := by decide +kernel
  have hs : (params 1024 160 160 0 0 (regs 0 0 0 0)).paramNat .seedbits ≤ State.reset.nbits := by decide +kernel
  exact ⟨answers (0 :: (List.replicate 25 2 ++ List.replicate 25 2)) (hashCount sent) (params 1024 160 160 0 0 (regs 0 0 0 0)),
    pqOracle, _, [], sent, pqP, pqQ, 0, ready_regs .., hb, hq, hs, h, by simp [answers], rfl⟩

/-- Geng: both checks, the smallest p (V-116), a walk of one step (V-111), and a walk without end (V-119). -/
theorem witness_Geng :
    ((regs 3 1 0 0).ready ∧ (regs 3 1 0 0).x 0 < 4) ∧ (4 ≤ (regs 4 0 0 0).x 0 ∧ (regs 4 0 0 0).x 1 = 0) ∧
    ((answers [2, 0] 0 (regs 4 1 0 0)).ready ∧ 4 ≤ (regs 4 1 0 0).x 0 ∧ (regs 4 1 0 0).x 1 ≠ 0 ∧
      ((nextH 4 0)^[0] 2) ^ ((4 - 1) / 1) % 4 ≠ 1) ∧
    ((answers [5, 1] 0 (regs 13 3 0 0)).ready ∧ (∀ j, j < 1 → ((nextH 13 1)^[j] 5) ^ ((13 - 1) / 3) % 13 = 1) ∧
      ((nextH 13 1)^[1] 5) ^ ((13 - 1) / 3) % 13 ≠ 1) ∧
    ((answers [2, 0] 0 (regs 7 1 0 0)).ready ∧ ∀ g, 2 ≤ g → g ≤ 7 - 2 → g ^ ((7 - 1) / 1) % 7 = 1) := by
  refine ⟨⟨ready_of _ rfl rfl, by decide +kernel⟩, by decide +kernel,
    ⟨ready_of _ rfl rfl, by decide +kernel, by decide +kernel, by decide⟩, ⟨ready_of _ rfl rfl, by decide, by decide⟩,
    ready_of _ rfl rfl, fun g h1 h2 => ?_⟩
  have : g = 2 ∨ g = 3 ∨ g = 4 ∨ g = 5 := by omega
  rcases this with rfl | rfl | rfl | rfl <;> rfl

/-! ### GENPG at BITS = 128 -/

/-- 2^2 · 3^39 + 1, a prime of 64 bits. -/
def pgPrime1 : Nat := 2 ^ 2 * 3 ^ 39 + 1

/-- 2^14 · 3^23 · 5^5 + 1, a prime of 63 bits. -/
def pgPrime2 : Nat := 2 ^ 14 * 3 ^ 23 * 5 ^ 5 + 1

/-- 4 · pgPrime1 · pgPrime2 + 1, a prime of 128 bits. -/
def pgP : Nat := pgPrime1 * pgPrime2 * 2 ^ 2 + 1

/-- The two draws and the 25 witnesses with which `random_prime` delivers a prime at once. -/
theorem prime_run {bits v : Nat} (hb : 2 ≤ bits) (h1 : v < 2 ^ bits) (h2 : v ||| 2 ^ (bits - 1) ||| 1 = v)
    (h3 : sieve v = .undecided) (h4 : mrRound v (decompose v).1 (decompose v).2 2 = true) :
    RandomPrimeRun bits (v :: 0 :: List.replicate 25 2)
      (.randBits bits :: .randBits 1 :: witnessRequests v (List.replicate 25 2)) v := by
  obtain ⟨h5, -⟩ := undecided_facts (not_decided h3)
  refine .search v 0 _ _ v hb h1 (by omega) ?_
  rw [h2]
  exact .found v _ (run_pass 25 h3 ⟨by omega, by omega⟩ h4)

theorem shifted_of {L prime1 prime2 shift p : Nat} (h1 : p = prime1 * prime2 * 2 ^ shift + 1)
    (h2 : bitlen (prime1 * prime2 * 2 ^ shift) = L) (h3 : (List.range shift).all fun k => decide (bitlen (prime1 * prime2 * 2 ^ k) < L)) :
    Shifted L prime1 prime2 shift p :=
  ⟨h1, h2, fun k hk => by simpa using List.all_eq_true.mp h3 k (List.mem_range.mpr hk)⟩

/-- The draws of a construction that succeeds at once, the last 25 being the witness `a`. -/
def pgDraws (prime1 prime2 a : Nat) : List Nat :=
  (prime1 :: 0 :: List.replicate 25 2) ++ ((prime2 :: 0 :: List.replicate 25 2) ++ List.replicate 25 a)

theorem pg_run : ∃ sent, ConstructionRun 128 (pgDraws pgPrime1 pgPrime2 2) sent pgPrime1 pgPrime2 2 pgP :=
  ⟨_, .found _ _ _ _ _ _ _ _ (prime_run (by omega) (by decide +kernel) (by decide +kernel) (by decide +kernel) (by decide +kernel))
    (.found 19 _ _ _ _ _ _ (prime_run (by omega) (by decide +kernel) (by decide +kernel) (by decide +kernel) (by decide +kernel))
      (shifted_of rfl (by decide +kernel) (by decide +kernel))
      (run_pass 25 (by decide +kernel) (by decide +kernel) (by decide +kernel)))⟩

/-- Two primes, and the composite p = 6113 · s that they make, with a strong liar for it. -/
def pgBad1 : Nat := 0xb11164d4c69cebd1
def pgBad2 : Nat := 0x5b50e81623d8820f
def pgBadP : Nat := pgBad1 * pgBad2 * 2 ^ 2 + 1
def pgLiar : Nat := 0x7e09c30bdb1121139ff3cbf5f47732dd

theorem pg_bad_run : ∃ sent, ConstructionRun 128 (pgDraws pgBad1 pgBad2 pgLiar) sent pgBad1 pgBad2 2 pgBadP :=
  ⟨_, .found _ _ _ _ _ _ _ _ (prime_run (by omega) (by decide +kernel) (by decide +kernel) (by decide +kernel) (by decide +kernel))
    (.found 19 _ _ _ _ _ _ (prime_run (by omega) (by decide +kernel) (by decide +kernel) (by decide +kernel) (by decide +kernel))
      (shifted_of rfl (by decide +kernel) (by decide +kernel))
      (run_pass 25 (by decide +kernel) (by decide +kernel) (by decide +kernel)))⟩

theorem threeTests_iff {prime1 prime2 shift p g : Nat} (hp : 0 < p) (b : Bool)
    (h : (PgPrime.mk prime1 prime2 shift p).accepts g = b) : ThreeTests prime1 prime2 shift p g ↔ b = true := by
  rw [← accepts_iff hp, h]

theorem pow_one_of {a e p : Nat} (b : Bool) (hp : 0 < p) (h : decide (powMod a e p = 1) = b) : a ^ e % p = 1 ↔ b = true := by
  rw [← powMod_eq hp, ← h, decide_eq_true_eq]

/-- Genpg: both checks at their boundary. -/
theorem witness_Genpg_checks : (params 127 0 0 0 0 (regs 0 0 0 0)).ready ∧ (params 127 0 0 0 0 (regs 0 0 0 0)).paramNat .bits < 128 ∧
    State.reset.nbits < (params 4097 0 0 0 0 (regs 0 0 0 0)).paramNat .bits := ⟨ready_of _ rfl rfl, by decide +kernel⟩

/-- Genpg: a base that fails and the next one that passes, with a final check that passes. -/
theorem witness_Genpg : ∃ sent, ConstructionRun 128 (pgDraws pgPrime1 pgPrime2 2) sent pgPrime1 pgPrime2 2 pgP ∧
    (answers (pgDraws pgPrime1 pgPrime2 2 ++ [4]) 0 (params 128 0 0 0 0 (regs 0 0 0 0))).ready ∧
    (params 128 0 0 0 0 (regs 0 0 0 0)).paramNat .bits = 128 ∧ 4 ≤ pgP - 2 ∧
    (∀ a, 4 ≤ a → a < 5 → ¬ThreeTests pgPrime1 pgPrime2 2 pgP a) ∧ ThreeTests pgPrime1 pgPrime2 2 pgP 5 ∧
    5 ^ (pgP - 1) % pgP = 1 := by
  have hpos : 0 < pgP := by decide +kernel
  obtain ⟨sent, h⟩ := pg_run
  refine ⟨sent, h, ready_of _ rfl rfl, by decide +kernel, by decide +kernel, fun a h1 h2 => ?_, ?_,
    (pow_one_of true hpos (by decide +kernel)).mpr rfl⟩
  · rw [show a = 4 by omega, threeTests_iff hpos false (by decide +kernel)]
    simp
  · rw [threeTests_iff hpos true (by decide +kernel)]

/-- Genpg: a final check that fails, for a composite p that passed its test. -/
theorem witness_Genpg_inconsistent : ∃ sent, ConstructionRun 128 (pgDraws pgBad1 pgBad2 pgLiar) sent pgBad1 pgBad2 2 pgBadP ∧
    (answers (pgDraws pgBad1 pgBad2 pgLiar ++ [2]) 0 (params 128 0 0 0 0 (regs 0 0 0 0))).ready ∧ 2 ≤ pgBadP - 2 ∧
    ThreeTests pgBad1 pgBad2 2 pgBadP 2 ∧ 2 ^ (pgBadP - 1) % pgBadP ≠ 1 := by
  have hpos : 0 < pgBadP := by decide +kernel
  obtain ⟨sent, h⟩ := pg_bad_run
  refine ⟨sent, h, ready_of _ rfl rfl, by decide +kernel, ?_, ?_⟩
  · rw [threeTests_iff hpos true (by decide +kernel)]
  · rw [Ne, pow_one_of false hpos (by decide +kernel)]
    simp

/-- Seedq: each check at its boundary, and a run. -/
theorem witness_Seedq : (params 0 16 0 0 0 (regs 0 0 0 0)).ready ∧
    (params 0 16 0 0 0 (regs 0 0 0 0)).paramNat .seedbits = 0 ∧ State.reset.nbits < (params 0 16 4097 0 0 (regs 0 0 0 0)).paramNat .seedbits ∧
    2 ^ (params 0 16 8 0 0 (regs 0 0 0 0x100)).paramNat .seedbits ≤ (params 0 16 8 0 0 (regs 0 0 0 0x100)).x 3 ∧
    ((params 0 1 8 0 0 (regs 0 0 0 0xFF)).x 3 < 2 ^ (params 0 1 8 0 0 (regs 0 0 0 0xFF)).paramNat .seedbits ∧
      (params 0 1 8 0 0 (regs 0 0 0 0xFF)).paramNat .qbits < 2) ∧ State.reset.nbits < (params 0 4097 8 0 0 (regs 0 0 0 0xFF)).paramNat .qbits ∧
    ((answers [] 1 (params 0 2 1 0 0 (regs 0 0 0 1))).ready ∧ 1 ≤ (params 0 2 1 0 0 (regs 0 0 0 1)).paramNat .seedbits ∧
      (params 0 2 1 0 0 (regs 0 0 0 1)).x 3 < 2 ^ (params 0 2 1 0 0 (regs 0 0 0 1)).paramNat .seedbits ∧
      2 ≤ (params 0 2 1 0 0 (regs 0 0 0 1)).paramNat .qbits ∧ (answers [] 1 (params 0 2 1 0 0 (regs 0 0 0 1))).hashIn = 1 + 0) :=
  ⟨ready_of _ rfl rfl, by decide +kernel, by decide +kernel, by decide +kernel, by decide +kernel, by decide +kernel,
    ready_of _ rfl rfl, by decide +kernel⟩

/-- Seedp: each check at its boundary, and a run with two digests. -/
theorem witness_Seedp : (params 16 0 0 0 0 (regs 0 0 0 0)).ready ∧
    (params 16 0 0 0 0 (regs 0 0 0 0)).paramNat .seedbits = 0 ∧ State.reset.nbits < (params 16 0 4097 0 0 (regs 0 0 0 0)).paramNat .seedbits ∧
    2 ^ (params 16 0 8 0 0 (regs 0 0 0 0x100)).paramNat .seedbits ≤ (params 16 0 8 0 0 (regs 0 0 0 0x100)).x 3 ∧
    ((params 1 0 8 0 0 (regs 0 0 0 0xFF)).x 3 < 2 ^ (params 1 0 8 0 0 (regs 0 0 0 0xFF)).paramNat .seedbits ∧
      (params 1 0 8 0 0 (regs 0 0 0 0xFF)).paramNat .bits < 2) ∧ State.reset.nbits < (params 4097 0 8 0 0 (regs 0 0 0 0xFF)).paramNat .bits ∧
    (params 2 0 8 0 0 (regs 0 0 0 0xFF)).x 1 = 0 ∧
    ((answers [] 2 (params 257 0 8 0 0 (regs 0 1 0 0xFF))).ready ∧ 2 ≤ (params 257 0 8 0 0 (regs 0 1 0 0xFF)).paramNat .bits ∧
      (params 257 0 8 0 0 (regs 0 1 0 0xFF)).x 1 ≠ 0 ∧
      (answers [] 2 (params 257 0 8 0 0 (regs 0 1 0 0xFF))).hashIn = lastDigest 257 + 1 + 0) :=
  ⟨ready_of _ rfl rfl, by decide +kernel, by decide +kernel, by decide +kernel, by decide +kernel, by decide +kernel,
    by decide +kernel, ready_of _ rfl rfl, by decide +kernel⟩

theorem witness_DerivedValues : 2 ≤ 2 ∧ 1 ≤ 1 ∧ 0 < 1 ∧ 255 < 2 ^ (8 * 1) := by decide

/-- GengThenVerifyg: p = 23, q = 11 (V-110). -/
theorem witness_GengThenVerifyg : (answers [5, 1] 0 (regs 23 11 0 0)).ready ∧ (answers [5, 1] 0 (regs 23 11 0 0)).x 0 = 23 ∧
    (answers [5, 1] 0 (regs 23 11 0 0)).x 1 = 11 ∧ Nat.Prime 23 ∧ 1 ≤ 11 ∧ 11 ∣ 23 - 1 ∧
    ∃ t, exec .geng (answers [5, 1] 0 (regs 23 11 0 0)) = .next t ∧ t.status.busy = false ∧ t.status.err = false :=
  ⟨ready_of _ rfl rfl, by decide +kernel, by decide +kernel, by norm_num, by omega, by decide,
    _, of_nextState (t := { (regs 23 11 0 0).ended 6#32 false false [.randRange 2 21, .randBits 1] [] 0 with
      x2 := 2 }) (by decide +kernel), rfl, rfl⟩

/-- A number is prime when some a has a^(p−1) = 1 and a^((p−1)/q) ≠ 1 modulo p for every prime q that divides p − 1. -/
theorem prime_of_powers {p : Nat} (a : Nat) (qs : List Nat) (hp : 2 ≤ p) (h1 : powMod a (p - 1) p = 1)
    (h2 : qs.all fun q => decide (powMod a ((p - 1) / q) p ≠ 1)) (h3 : ∀ q, q.Prime → q ∣ p - 1 → q ∈ qs) : p.Prime := by
  refine lucas_primality p (a : ZMod p) ?_ fun q hq hd => ?_
  · have h : ((a ^ (p - 1) : Nat) : ZMod p) = ((1 : Nat) : ZMod p) := by
      rw [ZMod.natCast_eq_natCast_iff', Nat.mod_eq_of_lt (by omega : 1 < p), ← powMod_eq (by omega)]
      exact h1
    simpa using h
  · intro hc
    have h4 := List.all_eq_true.mp h2 q (h3 q hq hd)
    simp only [decide_eq_true_eq] at h4
    refine h4 ?_
    rw [powMod_eq (by omega)]
    exact mod_eq_one_of_cast hp (by push_cast; exact hc)

theorem pgPrime1_prime : Nat.Prime pgPrime1 := by
  refine prime_of_powers 10 [2, 3] (by decide +kernel) (by decide +kernel) (by decide +kernel) fun q hq hd => ?_
  rw [show pgPrime1 - 1 = 2 ^ 2 * 3 ^ 39 from rfl] at hd
  rcases (Nat.Prime.dvd_mul hq).mp hd with h | h
  · simp [(Nat.prime_dvd_prime_iff_eq hq Nat.prime_two).mp (hq.dvd_of_dvd_pow h)]
  · simp [(Nat.prime_dvd_prime_iff_eq hq Nat.prime_three).mp (hq.dvd_of_dvd_pow h)]

theorem pgPrime2_prime : Nat.Prime pgPrime2 := by
  refine prime_of_powers 7 [2, 3, 5] (by decide +kernel) (by decide +kernel) (by decide +kernel) fun q hq hd => ?_
  rw [show pgPrime2 - 1 = 2 ^ 14 * 3 ^ 23 * 5 ^ 5 from rfl] at hd
  rcases (Nat.Prime.dvd_mul hq).mp hd with h | h
  · rcases (Nat.Prime.dvd_mul hq).mp h with h | h
    · simp [(Nat.prime_dvd_prime_iff_eq hq Nat.prime_two).mp (hq.dvd_of_dvd_pow h)]
    · simp [(Nat.prime_dvd_prime_iff_eq hq Nat.prime_three).mp (hq.dvd_of_dvd_pow h)]
  · simp [(Nat.prime_dvd_prime_iff_eq hq Nat.prime_five).mp (hq.dvd_of_dvd_pow h)]

theorem pgP_prime : Nat.Prime pgP := by
  refine prime_of_powers 2 [2, pgPrime1, pgPrime2] (by decide +kernel) (by decide +kernel) (by decide +kernel) fun q hq hd => ?_
  rw [show pgP - 1 = pgPrime1 * pgPrime2 * 2 ^ 2 from rfl] at hd
  rcases (Nat.Prime.dvd_mul hq).mp hd with h | h
  · rcases (Nat.Prime.dvd_mul hq).mp h with h | h
    · simp [(Nat.prime_dvd_prime_iff_eq hq pgPrime1_prime).mp h]
    · simp [(Nat.prime_dvd_prime_iff_eq hq pgPrime2_prime).mp h]
  · simp [(Nat.prime_dvd_prime_iff_eq hq Nat.prime_two).mp (hq.dvd_of_dvd_pow h)]

/-- GenpgPrimitiveRoot: the same run, with the primality of p and of both its primes. -/
theorem witness_GenpgPrimitiveRoot : Nat.Prime pgP ∧ Nat.Prime pgPrime1 ∧ Nat.Prime pgPrime2 ∧ 5 < pgP ∧
    ∃ sent, ConstructionRun 128 (pgDraws pgPrime1 pgPrime2 2) sent pgPrime1 pgPrime2 2 pgP ∧
      (∀ a, 4 ≤ a → a < 5 → ¬ThreeTests pgPrime1 pgPrime2 2 pgP a) ∧ ThreeTests pgPrime1 pgPrime2 2 pgP 5 := by
  obtain ⟨sent, h1, -, -, -, h2, h3, -⟩ := witness_Genpg
  exact ⟨pgP_prime, pgPrime1_prime, pgPrime2_prime, by decide +kernel, sent, h1, h2, h3⟩

end Sys2Proof.Tests
end

section
/-! The statements of 00_scope.md on time: it makes no difference when the engine makes its move (O8) and when an answer
arrives on a port (O9). -/

namespace Sys2Proof.Machine

/-! ### A command that is held back -/

/-- A command issued while the engine is held back has started and no more (R36, log entry 5). -/
theorem exec_held {i : Instr} {s : State} (hb : s.status.busy = false) :
    exec i (s.event .engineLate) = .next (startCommand i s) := by
  rw [exec_eq_issue, issue_idle (s := s.event .engineLate) hb]
  exact engineTurn_late (rest := s.script) rfl

/-- A command issued when the engine may move is the engine's move from its start (R36). -/
theorem exec_ready {i : Instr} {s : State} (h : s.ready) : exec i s = runEngine (bodyOf i) (startCommand i s) := by
  rw [exec_eq_issue, issue_idle h.1, engineTurn_prompt (s := startCommand i s) h.2]

/-- The engine's own move, when no request is outstanding (R78). -/
theorem engineMove_free {s : State} {f : InFlight} (hf : s.inFlight = some f) (ho : f.outstanding = none) :
    engineMove s = runEngine (bodyOf f.instr) s := by
  simp [engineMove, hf, ho]

/-- Settles O8: a command that is held back has only started, and exec is the engine's move from there. -/
theorem engineMoveTime : Obligations.EngineMoveTime := by
  intro s t i hs ht
  rw [exec_held hs.1] at ht
  cases ht
  calc step ((startCommand i s).event .engine)
      = engineMove (startCommand i s) := step_event _ _
    _ = runEngine (bodyOf i) (startCommand i s) := engineMove_free (startCommand_inFlight i s) rfl
    _ = exec i s := (exec_ready hs).symm

/-! ### The work of the engine -/

/-- `s` with the command in flight, the requests on record and the answers that are ready replaced: the fields a run of the
engine works on before it ends. -/
def State.withWork (s : State) (f : InFlight) (sent : List Request) (ready : List Nat) (left : Nat) : State :=
  { s with inFlight := some f, requests := sent, randIn := ready, hashIn := left }

section withWork
variable (s : State) (f : InFlight) (sent : List Request) (ready : List Nat) (left : Nat)

@[simp] theorem bodyOf_withWork (i : Instr) : bodyOf i (s.withWork f sent ready left) = bodyOf i s :=
  bodyOf_congr i rfl (fun k => by fin_cases k <;> rfl) fun p => by cases p <;> rfl

/-- A command that is held has its work in these fields and nowhere else. -/
theorem holdCommand_eq_withWork (r : Option Request) (p : Ports) :
    holdCommand f r p s = s.withWork ⟨f.instr, p.drawn.reverse, p.digests, r⟩ p.sent.reverse p.rand p.hash := rfl

/-- The conclusion of a run overwrites the work before it: of the command in flight only its name counts. -/
theorem conclude_withWork (ran : EStateM.Result Stop Ports Result) :
    conclude f (s.withWork f sent ready left) ran = conclude ⟨f.instr, [], 0, none⟩ s ran := by
  match ran with
  | .ok r p => rfl
  | .error (.raise e info) p => rfl
  | .error (.wait r) p => rfl
  | .error .never p => rfl
  | .error (.badAnswer r v) p => rfl

/-- An answer of the random source goes to the random request that is outstanding (R75). -/
theorem randomAnswer_withWork {r : Request} (v : Nat) (ho : f.outstanding = some r) (hr : r.isHash = false) :
    randomAnswer v (s.withWork f sent ready left) =
      engineTurn (bodyOf f.instr) (s.withWork (receiveRandom v f) sent ready left) := by
  cases r with
  | randBits k => simp [randomAnswer, State.withWork, ho]
  | randRange lo hi => simp [randomAnswer, State.withWork, ho]
  | hash m => cases hr

/-- A digest goes to the hash request that is outstanding (R80). -/
theorem oracleAnswer_withWork {m : List Byte} (ho : f.outstanding = some (.hash m)) :
    oracleAnswer (s.withWork f sent ready left) =
      engineTurn (bodyOf f.instr) (s.withWork (receiveDigest f) sent ready left) := by
  simp [oracleAnswer, State.withWork, ho]

end withWork

/-- A move of the engine depends on the answers received and ready in all, not on which of them the command has received
already (R12, log entry 6). -/
theorem runEngine_withWork {i : Instr} {s : State} {f g : InFlight} {sent sent' : List Request} {ready ready' : List Nat}
    {left left' : Nat} (hi : f.instr = g.instr) (hd : f.drawn ++ ready = g.drawn ++ ready')
    (hh : f.digests + left = g.digests + left') :
    runEngine (bodyOf i) (s.withWork f sent ready left) = runEngine (bodyOf i) (s.withWork g sent' ready' left') := by
  have same_ports : enginePorts f (s.withWork f sent ready left) = enginePorts g (s.withWork g sent' ready' left') := by
    simp [enginePorts, State.withWork, hd, hh]
  rw [runEngine_inFlight (f := f) rfl, runEngine_inFlight (f := g) rfl, same_ports, conclude_withWork, conclude_withWork,
    bodyOf_withWork, bodyOf_withWork, hi]

/-! ### A command that waits -/

/-- A command that exec leaves waiting has met the outstanding request in its run. -/
theorem exec_waits {i : Instr} {s t : State} {f : InFlight} {r : Request} (hs : s.ready) (h : exec i s = .next t)
    (hf : t.inFlight = some f) (ho : f.outstanding = some r) :
    ∃ q, (bodyOf i s).run (enginePorts ⟨i, [], 0, none⟩ (startCommand i s)) = .error (.wait r) q ∧
      t = (startCommand i s).withWork f q.sent.reverse q.rand q.hash ∧ f = ⟨i, q.drawn.reverse, q.digests, some r⟩ := by
  rw [issue_prompt hs] at h
  rcases conclude_next h with ⟨_, _, _, rfl⟩ | ⟨_, _, _, _, rfl⟩ | ⟨r', q, hq, rfl⟩ | ⟨q, _, rfl⟩
  · cases hf
  · cases hf
  · cases hf
    cases ho
    exact ⟨q, hq, holdCommand_eq_withWork .., rfl⟩
  · cases hf
    cases ho

/-- The answers that were ready are those a waiting command has received and those it has left; of the port it waits on
none is left (R75, R80). -/
theorem waiting_ports {i : Instr} {s : State} {r : Request} {q : Ports}
    (h : (bodyOf i s).run (enginePorts ⟨i, [], 0, none⟩ (startCommand i s)) = .error (.wait r) q) :
    s.randIn = q.drawn.reverse ++ q.rand ∧ s.hashIn = q.digests + q.hash ∧
      if r.isHash then q.hash = 0 else q.rand = [] := by
  have hg : Grows (enginePorts ⟨i, [], 0, none⟩ (startCommand i s)) q := by
    simpa [h] using (bodyOf_tame i s).grows (enginePorts ⟨i, [], 0, none⟩ (startCommand i s))
  obtain ⟨taken, hr : s.randIn = taken ++ q.rand, hd : q.drawn = taken.reverse ++ []⟩ := hg.rand
  obtain ⟨n, hh : 0 + s.hashIn = n + q.hash, hn : q.digests = 0 + n⟩ := hg.hash
  exact ⟨by simp [hr, hd], by omega, (bodyOf_tame i s).wait_empty h⟩

/-- A command that goes on ends as the command does that is issued when all its answers, those received in front, are
ready. -/
theorem resume_eq_exec {i : Instr} {s : State} {f : InFlight} {sent : List Request} {ready draws : List Nat}
    {left digests : Nat} (hs : s.ready) (hi : f.instr = i) (hd : f.drawn ++ ready = draws)
    (hh : f.digests + left = digests) :
    engineTurn (bodyOf i) ((startCommand i s).withWork f sent ready left) =
      exec i { s with randIn := draws, hashIn := digests } :=
  calc engineTurn (bodyOf i) ((startCommand i s).withWork f sent ready left)
      = runEngine (bodyOf i) ((startCommand i s).withWork f sent ready left) := engineTurn_prompt hs.2
    _ = runEngine (bodyOf i) ((startCommand i s).withWork ⟨i, [], 0, none⟩ [] draws digests) :=
        runEngine_withWork hi hd (by simp [hh])
    _ = exec i { s with randIn := draws, hashIn := digests } :=
        (exec_ready (s := { s with randIn := draws, hashIn := digests }) hs).symm

/-- Settles O9: a command that waits has used up the answers of that port, so the late one takes its place behind them. -/
theorem answerTime : Obligations.AnswerTime := by
  intro s t i f r hs ht hf ho
  obtain ⟨q, hq, rfl, rfl⟩ := exec_waits hs ht hf ho
  obtain ⟨hrand, hhash, hempty⟩ := waiting_ports hq
  have late_draw (hr : r.isHash = false) (v : Nat) :
      randomAnswer v ((startCommand i s).withWork ⟨i, q.drawn.reverse, q.digests, some r⟩ q.sent.reverse q.rand q.hash) =
        exec i { s with randIn := s.randIn ++ [v] } := by
    have hempty : q.rand = [] := by simpa [hr] using hempty
    rw [randomAnswer_withWork _ _ _ _ _ v ho hr]
    exact resume_eq_exec hs rfl (by simp [receiveRandom, hrand, hempty]) hhash.symm
  cases r with
  | randBits k => exact late_draw rfl
  | randRange lo hi => exact late_draw rfl
  | hash m =>
    have hempty : q.hash = 0 := hempty
    rw [step_event, handleEvent, oracleAnswer_withWork _ _ _ _ _ ho]
    exact resume_eq_exec hs rfl hrand.symm (by simp [receiveDigest, hhash, hempty])

end Sys2Proof.Machine
end

section
/-! The invariants of 10_state.md that every step keeps (O27, O29), at reset (O28), and what follows for a command in
flight (O32). -/

namespace Sys2Proof.Machine

/-! ### What the host's writes and reset leave of the operands -/

section host
variable (s : State) (v w : Word) (k : Fin 4) (p : Param)
@[simp] theorem acknowledge_x : (acknowledge v s).x k = s.x k := by fin_cases k <;> rfl
@[simp] theorem acknowledge_param : (acknowledge v s).param p = s.param p := by cases p <;> rfl
@[simp] theorem ignoreWrite_x : (ignoreWrite s).x k = s.x k := by fin_cases k <;> rfl
@[simp] theorem ignoreWrite_param : (ignoreWrite s).param p = s.param p := by cases p <;> rfl
@[simp] theorem illegalCommand_x : (illegalCommand w s).x k = s.x k := by fin_cases k <;> rfl
@[simp] theorem illegalCommand_param : (illegalCommand w s).param p = s.param p := by cases p <;> rfl
@[simp] theorem withIe_x (b : Bool) : { s with ie := b }.x k = s.x k := by fin_cases k <;> rfl
@[simp] theorem withIe_param (b : Bool) : { s with ie := b }.param p = s.param p := by cases p <;> rfl
@[simp] theorem withIe_nbits (b : Bool) : { s with ie := b }.nbits = s.nbits := rfl
@[simp] theorem resetOf_x (c : Config.Width) : (State.resetOf c).x k = 0 := by fin_cases k <;> rfl
@[simp] theorem resetOf_param (c : Config.Width) : (State.resetOf c).param p = 0#32 := by cases p <;> rfl
end host

@[simp] theorem State.env_reply (s : State) (a : Reply) (b : List Event) (c : List Nat) (d e : Nat) :
    (s.env a b c d e).reply = a := rfl
@[simp] theorem State.env_freeReads (s : State) (a : Reply) (b : List Event) (c : List Nat) (d e : Nat) :
    (s.env a b c d e).freeReads = e := rfl

/-- Reset is the reset state of the chip's width, in the environment as it is (log entry 11). -/
theorem hardReset_eq_env (s : State) :
    hardReset s = (State.resetOf s.width).env .none s.script s.randIn s.hashIn s.freeReads := rfl

theorem withScript_eq_env (s : State) (b : List Event) :
    { s with script := b } = s.env s.reply b s.randIn s.hashIn s.freeReads := rfl

/-! ### The registers stay consistent -/

/-- `t` tells the same as `s` of the last command, or of the one in flight; DONE may have been acknowledged. -/
structure SameOutcome (s t : State) : Prop where
  inFlight : t.inFlight = s.inFlight
  busy : t.status.busy = s.status.busy
  done : t.status.done = true → s.status.done = true
  err : t.status.err = s.status.err
  res : t.status.res = s.status.res
  undec : t.status.undec = s.status.undec
  cause : t.cause = s.cause
  einfo : t.einfo = s.einfo
  cmd : t.cmd = s.cmd

theorem State.Consistent.of_sameOutcome {s t : State} (hs : s.Consistent) (h : SameOutcome s t)
    (fits : ∀ k, t.x k < 2 ^ t.nbits) : t.Consistent := by
  obtain ⟨hf, hb, hd, he, hr, hu, hc, hi, hm⟩ := h
  exact
    { fits := fits
      phase := fun ⟨b, d⟩ => hs.phase ⟨hb ▸ b, hd d⟩
      inFlight := by rw [hf, hb]; exact hs.inFlight
      clear := by rw [hb, he, hr, hu, hc, hi]; exact hs.clear
      flags := by rw [hr, hu]; exact hs.flags
      errorFlags := by rw [he, hr, hu]; exact hs.errorFlags
      error := by rw [he, hc]; exact hs.error
      noCause := by rw [hc, hi]; exact hs.noCause
      code := by rw [hc]; exact hs.code
      check := by rw [hc, hi]; exact hs.check
      noDetail := by rw [hc, hi]; exact hs.noDetail
      illegal := by rw [hc, hi, hm]; exact hs.illegal
      command := by rw [hf, hm]; exact hs.command
      res := by rw [hr, hm]; exact hs.res
      undec := by rw [hu, hm]; exact hs.undec }

theorem SameOutcome.env (s : State) (a : Reply) (b : List Event) (c : List Nat) (d e : Nat) :
    SameOutcome s (s.env a b c d e) := by
  constructor <;> simp

/-- What the environment does is not seen in the registers. -/
theorem State.Consistent.env {s : State} (hs : s.Consistent) (a : Reply) (b : List Event) (c : List Nat) (d e : Nat) :
    (s.env a b c d e).Consistent :=
  hs.of_sameOutcome (.env s a b c d e) fun k => by simpa using hs.fits k

/-- The state while a command is in flight (R36). -/
theorem Flying.consistent {f : InFlight} {u : State} (h : Flying f u) (fits : ∀ k, u.x k < 2 ^ u.nbits) :
    u.Consistent where
  fits := fits
  phase := by simp [h.done]
  inFlight := by rw [h.inFlight, h.busy]; rfl
  clear := fun _ => ⟨h.err, h.res, h.undec, h.cause, h.einfo⟩
  flags := by simp [h.res]
  errorFlags := fun _ => ⟨h.res, h.undec⟩
  error := by simp [h.err, h.cause]
  noCause := fun _ => h.einfo
  code := by simp [h.cause]
  check := by simp [h.cause]
  noDetail := fun _ => h.einfo
  illegal := by simp [h.cause]
  command := fun g hg => by cases h.inFlight.symm.trans hg; exact h.cmd
  res := by simp [h.res]
  undec := by simp [h.undec]

/-- A command that waits is still in flight (R78). -/
theorem Flying.hold {f : InFlight} {u : State} (h : Flying f u) (o : Option Request) (p : Ports) :
    Flying ⟨f.instr, p.drawn.reverse, p.digests, o⟩ (holdCommand f o p u) :=
  { h with inFlight := rfl }

/-- The success outcome of a command (R263). -/
theorem Flying.succeed_consistent {f : InFlight} {u : State} (h : Flying f u) (fits : ∀ k, u.x k < 2 ^ u.nbits)
    {r : Result} (hr : ResultOf f.instr r) (hfit : r.Fits u.nbits) (p : Ports) :
    (succeed r (leavePorts p u)).Consistent where
  fits k := by
    have reg (old : Nat) (v : Option Nat) (ho : old < 2 ^ u.nbits) (hv : ∀ a, v = some a → a < 2 ^ u.nbits) :
        resultReg old v < 2 ^ u.nbits := by
      cases v with
      | none => rwa [resultReg_none]
      | some a => rw [resultReg_some]; exact hv a rfl
    fin_cases k
    · exact reg u.x0 r.x0 (fits 0) hfit.x0
    · exact reg u.x1 r.x1 (fits 1) hfit.x1
    · exact reg u.x2 r.x2 (fits 2) hfit.x2
    · exact reg u.x3 r.x3 (fits 3) hfit.x3
  phase := by simp
  inFlight := rfl
  clear := by simp
  flags := hr.flags
  errorFlags := by simp [h.err]
  error := by simp [h.err, h.cause]
  noCause := fun _ => h.einfo
  code := by simp [h.cause]
  check := by simp [h.cause]
  noDetail := fun _ => h.einfo
  illegal := by simp [h.cause]
  command := by simp
  res := fun hres => ⟨f.instr, h.cmd, hr.res hres⟩
  undec := fun hundec => h.cmd.trans (congrArg encode (hr.undec hundec))

/-- The error outcome, with the detail that R262 gives for its cause (R264). -/
theorem raiseError_consistent {s : State} {e : ErrorKind} {info : Word} (fits : ∀ k, s.x k < 2 ^ s.nbits)
    (check : e = .invalidParameters → 1 ≤ info.toNat ∧ info.toNat ≤ 17)
    (illegal : e = .illegalCommand → info = s.cmd)
    (noDetail : e ≠ .invalidParameters → e ≠ .illegalCommand → info = 0#32) : (raiseError e info s).Consistent := by
  obtain ⟨hne, hle, h1, h4⟩ := e.code_facts
  exact
    { fits := fun k => by simpa using fits k
      phase := by simp
      inFlight := rfl
      clear := by simp
      flags := by simp
      errorFlags := fun _ => ⟨rfl, rfl⟩
      error := iff_of_true rfl hne
      noCause := fun h => absurd h hne
      code := hle
      check := fun h => check (h1.mp h)
      noDetail := fun h => noDetail (by rintro rfl; simp [ErrorKind.code] at h)
        (by rintro rfl; simp [ErrorKind.code] at h)
      illegal := fun h => illegal (h4.mp h)
      command := by simp
      res := by simp
      undec := by simp }

/-- The outcome of an illegal word (R105). -/
theorem illegalCommand_consistent {s : State} (w : Word) (fits : ∀ k, s.x k < 2 ^ s.nbits) :
    (illegalCommand w s).Consistent :=
  raiseError_consistent (fun k => by fin_cases k; exacts [fits 0, fits 1, fits 2, fits 3]) (by simp) (fun _ => rfl)
    (by simp)

theorem MovesFrom.fits {s u : State} {f : InFlight} (hs : s.Consistent) (h : MovesFrom s f u) (k : Fin 4) :
    u.x k < 2 ^ u.nbits := by
  rw [h.sameOperands.x, State.nbits_eq h.sameOperands.width]
  exact hs.fits k

/-- However a move of the engine ends, the registers are consistent. -/
theorem Flying.conclude_consistent {f : InFlight} {u t : State} (h : Flying f u) (fits : ∀ k, u.x k < 2 ^ u.nbits)
    (ht : conclude f u ((bodyOf f.instr u).run (enginePorts f u)) = .next t) : t.Consistent := by
  rcases conclude_next ht with ⟨r, p, hrun, rfl⟩ | ⟨e, info, p, hrun, rfl⟩ | ⟨r, p, -, rfl⟩ | ⟨p, -, rfl⟩
  · exact h.succeed_consistent fits (bodyOf_result _ _ hrun) ((bodyOf_bounded _ _ fun k _ => fits k).gives _ _ _ hrun) p
  · obtain ⟨hlegal, hcheck, hnone⟩ := ((bodyOf_tame _ _).raises _ _ _ _ hrun).detail
    exact raiseError_consistent (fun k => by simpa using fits k) hcheck (fun he => absurd he hlegal) fun he _ => hnone he
  · exact (h.hold (some r) p).consistent fun k => by simpa using fits k
  · exact (h.hold none p).consistent fun k => by simpa using fits k

/-- The registers after reset (R50). -/
theorem resetOf_consistent (w : Config.Width) : (State.resetOf w).Consistent := by
  constructor
  case fits => intro k; rw [resetOf_x]; positivity
  all_goals simp [State.resetOf, Status.zero]

theorem hardReset_consistent (s : State) : (hardReset s).Consistent := by
  rw [hardReset_eq_env]
  exact (resetOf_consistent s.width).env ..

/-- Storing a limb leaves a value below 2^NBITS in every register (R21, R63). -/
theorem setX_fits {s : State} (fits : ∀ k, s.x k < 2 ^ s.nbits) {j : Nat} (hj : j < s.nlimbs) (i : Fin 4) (v : Word)
    (k : Fin 4) : (s.setX i (setLimb (s.x i) j v)).x k < 2 ^ s.nbits := by
  by_cases hk : k = i
  · subst hk; rw [x_setX_same]; exact setLimb_lt v (fits k) hj
  · rw [x_setX_other _ _ hk]; exact fits k

/-- Settles O27: each outcome of the engine's move sets the registers as R30 to R38 and R262 require; a host access changes
only the operands, IE, WIGN or DONE, or refuses an illegal word. -/
theorem consistencyKept : Obligations.ConsistencyKept := by
  intro s t hs h
  cases step_case h with
  | quiet a b c d e => exact hs.env a b c d e
  | ctrl v a b c d e => exact hs.of_sameOutcome (by constructor <;> simp) fun k => by simpa using hs.fits k
  | limb i j v a b c d e hb hj hh =>
    refine State.Consistent.env (hs.of_sameOutcome (by constructor <;> simp) fun k => ?_) a b c d e
    rw [State.nbits_eq (setX_width ..)]
    exact setX_fits hs.fits hj i v k
  | param p v a b c d e hb hh =>
    refine State.Consistent.env (hs.of_sameOutcome (by constructor <;> simp) fun k => ?_) a b c d e
    rw [x_setParam, State.nbits_eq (setParam_width ..)]
    exact hs.fits k
  | status v a b c d e hh =>
    exact hs.of_sameOutcome (by constructor <;> simp +contextual) fun k => by simpa using hs.fits k
  | ignored addr v a b c d e hb ha hh =>
    exact hs.of_sameOutcome (by constructor <;> simp) fun k => by simpa using hs.fits k
  | illegal w r a b c d e hb hd hh => exact (illegalCommand_consistent w hs.fits).env a b c d e
  | reset a b c d e hh => exact (hardReset_consistent s).env a b c d e
  | late f u b hu => exact ((hu.flying hs).consistent (hu.fits hs)).env u.reply b u.randIn u.hashIn u.freeReads
  | ran f u t hu ht => exact (hu.flying hs).conclude_consistent (hu.fits hs) ht

/-! ### The working state replays -/

theorem State.Replays.congr {s t : State} (hs : s.Replays) (hw : t.width = s.width) (hx : ∀ k, t.x k = s.x k)
    (hp : ∀ p, t.param p = s.param p) (hf : t.inFlight = s.inFlight) (hr : t.requests = s.requests) : t.Replays := by
  intro f hft
  rw [hr, bodyOf_congr f.instr hw hx hp]
  exact hs f (hf ▸ hft)

theorem State.Replays.env {s : State} (hs : s.Replays) (a : Reply) (b : List Event) (c : List Nat) (d e : Nat) :
    (s.env a b c d e).Replays :=
  hs.congr rfl (by simp) (by simp) rfl rfl

/-- Without a command in flight there is nothing to replay. -/
theorem replays_of_no_command {s : State} (h : s.inFlight = none) : s.Replays := fun f hf => by simp [h] at hf

/-- Where the engine moves from, the command has sent nothing yet, or what it had sent before its last answer. -/
theorem MovesFrom.replays {s u : State} {f : InFlight} (hs : s.Replays) (h : MovesFrom s f u) : u.Replays := by
  cases h with
  | start i a b c d e hb hh hf => exact fun g _ => List.nil_prefix
  | resume f₀ a b c d e h0 hev hf =>
    intro g hg
    cases hg
    simpa using (hs f₀ h0).trans (hf.sends_more s)

/-- A run takes the answers received before those that are ready. -/
theorem enginePorts_eq_extend (f : InFlight) (s : State) :
    enginePorts f s = (receivedPorts f).extend s.randIn s.hashIn := rfl

/-- A move of the engine sends again, first, all that the command had sent (R12). -/
theorem State.Replays.move_sends {u : State} {f : InFlight} (hu : u.Replays) (hf : u.inFlight = some f) :
    u.requests <+: (portsAfter ((bodyOf f.instr u).run (enginePorts f u))).sent.reverse := by
  rw [enginePorts_eq_extend]
  exact (hu f hf).trans (bodyOf_sends_more f.instr u _ _ _)

/-- A command that is held has taken exactly the answers that its requests replay on. -/
theorem hold_replays {f : InFlight} {u : State} {e : Stop} {p : Ports} (o : Option Request)
    (hrun : (bodyOf f.instr u).run (enginePorts f u) = .error e p) (he : ∀ r v, e ≠ .badAnswer r v) :
    (holdCommand f o p u).Replays := by
  have hgood : ¬IsBadAnswer ((bodyOf f.instr u).run (enginePorts f u)) := by
    rintro ⟨r, v, q, hbad⟩
    cases hrun.symm.trans hbad
    exact he r v rfl
  have trimmed := (bodyOf_tame f.instr u).trim (p := enginePorts f u) rfl rfl hgood
  rw [hrun, portsAfter_error] at trimmed
  intro g hg
  cases hg
  rw [bodyOf_holdCommand, holdCommand_requests, ← trimmed]
  exact List.prefix_rfl

theorem conclude_replays {f : InFlight} {u t : State}
    (ht : conclude f u ((bodyOf f.instr u).run (enginePorts f u)) = .next t) : t.Replays := by
  rcases conclude_next ht with ⟨r, p, -, rfl⟩ | ⟨e, info, p, -, rfl⟩ | ⟨r, p, hrun, rfl⟩ | ⟨p, hrun, rfl⟩
  · exact replays_of_no_command rfl
  · exact replays_of_no_command rfl
  · exact hold_replays (some r) hrun (by simp)
  · exact hold_replays none hrun (by simp)

/-- Without BUSY no command is in flight (R35). -/
theorem State.Consistent.no_command {s : State} (hs : s.Consistent) (hb : s.status.busy = false) : s.inFlight = none := by
  have := hs.inFlight
  rwa [hb, Option.isSome_eq_false_iff, Option.isNone_iff_eq_none] at this

/-- Settles O29: a run that waits has taken exactly the answers it has recorded, so it repeats itself on them (`Tame.trim`);
with more answers it only sends more. -/
theorem replayKept : Obligations.ReplayKept := by
  intro s t hs hr h
  cases step_case h with
  | quiet a b c d e => exact hr.env a b c d e
  | ctrl v a b c d e => exact hr.congr rfl (by simp) (by simp) rfl rfl
  | limb i j v a b c d e hb => exact replays_of_no_command (by simpa using hs.no_command hb)
  | param p v a b c d e hb => exact replays_of_no_command (by simpa using hs.no_command hb)
  | status v a b c d e => exact hr.congr rfl (by simp) (by simp) rfl rfl
  | ignored addr v a b c d e => exact hr.congr rfl (by simp) (by simp) rfl rfl
  | illegal w r a b c d e => exact replays_of_no_command rfl
  | reset a b c d e => exact replays_of_no_command rfl
  | late f u b hu => exact (hu.replays hr).env u.reply b u.randIn u.hashIn u.freeReads
  | ran f u t hu ht => exact conclude_replays ht

/-! ### The operands of a command in flight -/

/-- A move of the engine after which the command is still in flight (R78). -/
theorem conclude_busy {f : InFlight} {u t : State}
    (ht : conclude f u ((bodyOf f.instr u).run (enginePorts f u)) = .next t) (hb : t.status.busy = true) :
    ∃ o, t = holdCommand f o (portsAfter ((bodyOf f.instr u).run (enginePorts f u))) u := by
  rcases conclude_next ht with ⟨r, p, -, rfl⟩ | ⟨e, info, p, -, rfl⟩ | ⟨r, p, hrun, rfl⟩ | ⟨p, hrun, rfl⟩
  · cases hb
  · cases hb
  · exact ⟨some r, by rw [hrun, portsAfter_error]⟩
  · exact ⟨none, by rw [hrun, portsAfter_error]⟩

/-- While BUSY = 1 the engine only goes on with the command that is in flight. -/
theorem MovesFrom.of_busy {s u : State} {f : InFlight} (h : MovesFrom s f u) (hb : s.status.busy = true) :
    u.cmd = s.cmd ∧ u.requests = s.requests := by
  cases h with
  | start i a b c d e hidle => simp [hb] at hidle
  | resume f₀ a b c d e h0 hev hf => exact ⟨rfl, rfl⟩

/-- Settles O32: while BUSY = 1 the host's writes are ignored, and the engine's move writes results only at its end. -/
theorem operandsLocked : Obligations.OperandsLocked := by
  intro s t hs hr h hb ht
  cases step_case h with
  | quiet a b c d e => exact ⟨by simp, by simp, rfl, List.prefix_rfl⟩
  | ctrl v a b c d e => exact ⟨by simp, by simp, rfl, List.prefix_rfl⟩
  | limb i j v a b c d e hidle => simp [hb] at hidle
  | param p v a b c d e hidle => simp [hb] at hidle
  | status v a b c d e => exact ⟨by simp, by simp, rfl, List.prefix_rfl⟩
  | ignored addr v a b c d e => exact ⟨by simp, by simp, rfl, List.prefix_rfl⟩
  | illegal w r a b c d e hidle => simp [hb] at hidle
  | reset a b c d e => cases ht
  | late f u b hu =>
    obtain ⟨hcmd, hreq⟩ := hu.of_busy hb
    rw [withScript_eq_env]
    exact ⟨fun k => by simp [hu.sameOperands.x], fun p => by simp [hu.sameOperands.param], hcmd, hreq ▸ List.prefix_rfl⟩
  | ran f u t hu hrun =>
    obtain ⟨hcmd, hreq⟩ := hu.of_busy hb
    obtain ⟨o, rfl⟩ := conclude_busy hrun ht
    refine ⟨fun k => by simp [hu.sameOperands.x], fun p => by simp [hu.sameOperands.param], hcmd, ?_⟩
    rw [← hreq]
    exact (hu.replays hr).move_sends hu.inFlight

/-! ### Reset -/

theorem resetOf_portsLegal (w : Config.Width) : (State.resetOf w).PortsLegal where
  legal := by simp [State.resetOf]
  last := by simp [State.resetOf]

/-- The widths of R4: the multiples of 32 from 3072 to 8192. -/
theorem exists_width_iff (N : Nat) : (∃ w : Config.Width, w.nbits = N) ↔ N % 32 = 0 ∧ 3072 ≤ N ∧ N ≤ 8192 := by
  constructor
  · rintro ⟨w, rfl⟩
    obtain ⟨h1, h2, h3, -⟩ := width_facts w
    exact ⟨h1, h2, h3⟩
  · rintro ⟨h1, h2, h3⟩
    exact ⟨⟨(N - 3072) / 32, by omega⟩, by simp only [Config.Width.nbits]; omega⟩

/-- Settles O28: reset holds no command and no request; the widths are counted from 3072 in steps of 32. -/
theorem invariantsAtReset : Obligations.InvariantsAtReset :=
  ⟨fun w => ⟨resetOf_consistent w, replays_of_no_command rfl, resetOf_portsLegal w⟩, exists_width_iff,
    fun s => (width_facts s.width).2.2.2.1, ⟨Config.defaultWidth, rfl⟩, rfl⟩

end Sys2Proof.Machine
end

section
/-! What a step may change (O33, O34, O35). -/

namespace Sys2Proof.Machine

/-! ### How a move of the engine ends -/

/-- A move of the engine changes neither the width nor what only the host sets (R4, R32, R35, R39). -/
theorem conclude_sameHost {f : InFlight} {u t : State} {ran : EStateM.Result Stop Ports Result}
    (ht : conclude f u ran = .next t) :
    t.width = u.width ∧ (∀ p, t.param p = u.param p) ∧ t.ie = u.ie ∧ t.status.wign = u.status.wign := by
  rcases conclude_next ht with ⟨r, p, -, rfl⟩ | ⟨e, info, p, -, rfl⟩ | ⟨r, p, -, rfl⟩ | ⟨p, -, rfl⟩ <;> simp

/-- A move of the engine ends with BUSY = 1 as before, or in the phase DONE (R30). -/
theorem conclude_phase {f : InFlight} {u t : State} {ran : EStateM.Result Stop Ports Result}
    (ht : conclude f u ran = .next t) : t.status = u.status ∨ t.status.phase = .done := by
  rcases conclude_next ht with ⟨r, p, -, rfl⟩ | ⟨e, info, p, -, rfl⟩ | ⟨r, p, -, rfl⟩ | ⟨p, -, rfl⟩
  · exact .inr rfl
  · exact .inr rfl
  · exact .inl rfl
  · exact .inl rfl

/-- Only the success outcome changes big-integer registers, and only those of the command's row (R23, R263). -/
theorem conclude_changes_x {f : InFlight} {u t : State}
    (ht : conclude f u ((bodyOf f.instr u).run (enginePorts f u)) = .next t) {k : Fin 4} (hk : t.x k ≠ u.x k) :
    t.status = u.status.succeeded t.status.res t.status.undec ∧ t.cmd = u.cmd ∧ k ∈ resultRegisters f.instr := by
  rcases conclude_next ht with ⟨r, p, hrun, rfl⟩ | ⟨e, info, p, -, rfl⟩ | ⟨r, p, -, rfl⟩ | ⟨p, -, rfl⟩
  · refine ⟨rfl, rfl, by_contra fun hnot => hk ?_⟩
    rw [succeed_x_other (bodyOf_result _ _ hrun) _ hnot, leavePorts_x]
  · simp at hk
  · simp at hk
  · simp at hk

/-! ### Where a move of the engine comes from -/

/-- The event of a move: the CMD write of the command while BUSY = 0, or one the engine goes on after. -/
theorem MovesFrom.event {s u : State} {f : InFlight} (hs : s.Consistent) (h : MovesFrom s f u) :
    (s.status.busy = false ∧ s.script.head? = some (.write 0x008 32 (encode f.instr))) ∨
      (s.status.busy = true ∧ s.cmd = encode f.instr ∧ EngineEvent s.script.head?) := by
  cases h with
  | start i a b c d e hb hh hf => subst hf; exact .inl ⟨hb, hh⟩
  | resume f₀ a b c d e h0 hev hf =>
    exact .inr ⟨by rw [← hs.inFlight, h0]; rfl, hf.instr ▸ hs.command f₀ h0, hev⟩

theorem engineEvent_iff (e : Option Event) :
    EngineEvent e ↔ e = none ∨ e = some .engine ∨ (∃ v, e = some (.randAnswer v)) ∨ e = some .hashAnswer := by
  rcases e with _ | e
  · simp [EngineEvent]
  · cases e <;> simp [EngineEvent]

/-- Settles O34: of all that a step can be, a stored limb, reset and the success outcome change a big-integer register. -/
theorem registerChanges : Obligations.RegisterChanges := by
  intro s t k hs h hk
  cases step_case h with
  | quiet a b c d e => simp at hk
  | ctrl v a b c d e => simp at hk
  | limb i j v a b c d e hb hj hh =>
    have hik : k = i := by_contra fun hne => hk (by rw [State.env_x, x_setX_other _ _ hne])
    exact .inl ⟨hb, j, v, hj, hik ▸ hh⟩
  | param p v a b c d e => simp at hk
  | status v a b c d e => simp at hk
  | ignored addr v a b c d e => simp at hk
  | illegal w r a b c d e => simp at hk
  | reset a b c d e hh => exact .inr (.inl hh)
  | late f u b hu =>
    rw [withScript_eq_env, State.env_x, hu.sameOperands.x] at hk
    exact absurd rfl hk
  | ran f u t hu ht =>
    have hfly := hu.flying hs
    obtain ⟨hst, hcmd, hmem⟩ := conclude_changes_x ht (hu.sameOperands.x k ▸ hk)
    refine .inr (.inr ⟨by rw [hst]; rfl, by rw [hst]; rfl, by rw [hst]; exact hfly.err, f.instr,
      hcmd.trans hfly.cmd, hmem, ?_⟩)
    rcases hu.event hs with ⟨-, hh⟩ | ⟨hb, hc, -⟩
    · exact .inr hh
    · exact .inl ⟨hb, hc⟩

/-- Settles O35: the engine's move keeps what only the host sets, and each host write sets its own field. -/
theorem hostOnlyState : Obligations.HostOnlyState := by
  intro s t h
  cases step_case h with
  | quiet a b c d e => simp +contextual
  | ctrl v a b c d e hh => exact ⟨rfl, by simp, fun _ => .inr ⟨v, rfl, hh⟩, by simp +contextual, by simp +contextual⟩
  | limb i j v a b c d e => simp +contextual
  | param p v a b c d e hb hh =>
    refine ⟨by simp, fun q hq => .inr ⟨hb, ?_⟩, by simp, by simp +contextual, by simp +contextual⟩
    rw [State.env_param] at hq ⊢
    have hpq : q = p := by_contra fun hne => hq (param_setParam_other s v hne)
    rw [hpq, param_setParam_same, hh]
  | status v a b c d e hh =>
    refine ⟨rfl, by simp, by simp, fun hw hc => .inr ⟨v, ?_, hh⟩, by simp +contextual⟩
    simpa [hw] using hc
  | ignored addr v a b c d e hb ha hh => exact ⟨rfl, by simp, by simp, by simp, fun _ _ => ⟨hb, addr, v, ha, hh⟩⟩
  | illegal w r a b c d e => refine ⟨rfl, by simp, fun h => absurd rfl h, ?_, ?_⟩ <;> simp +contextual [illegalCommand]
  | reset a b c d e hh => exact ⟨rfl, fun _ _ => .inl hh, fun _ => .inl hh, fun _ _ => .inl hh, fun _ hw => by cases hw⟩
  | late f u b hu =>
    obtain ⟨hwidth, -, hparam, hie, hwign⟩ := hu.sameOperands
    rw [withScript_eq_env]
    simp +contextual [hwidth, hparam, hie, hwign]
  | ran f u t hu ht =>
    obtain ⟨hwidth, -, hparam, hie, hwign⟩ := hu.sameOperands
    obtain ⟨hwidth', hparam', hie', hwign'⟩ := conclude_sameHost ht
    simp +contextual [hwidth, hparam, hie, hwign, hwidth', hparam', hie', hwign']

/-! ### The phases -/

/-- The ways out of a phase (R30), from the status `f` to the status `g` when `e` is the next event. -/
structure PhaseStep (e : Option Event) (f g : Status) : Prop where
  idle : f.phase = .idle → g.phase ≠ .idle → ∃ w, e = some (.write 0x008 32 w)
  abandoned : f.phase = .busy → g.phase = .idle → e = some .reset
  ended : f.phase = .busy → g.phase = .done → EngineEvent e
  acknowledged : f.phase = .done → g.phase = .idle → e = some .reset ∨
    ∃ v : Word, v.getLsbD 1 = true ∧ e = some (.write 0x00C 32 v)
  reissued : f.phase = .done → g.phase = .busy → ∃ i, e = some (.write 0x008 32 (encode i))

theorem PhaseStep.of_same {e : Option Event} {f g : Status} (h : g.phase = f.phase) : PhaseStep e f g := by
  constructor <;> simp +contextual [h]

/-- A word written to CMD while BUSY = 0 leads out of IDLE and DONE; to BUSY if it is legal. -/
theorem PhaseStep.of_command {w : Word} {f g : Status} (hf : f.busy = false) (hg : g.phase ≠ .idle)
    (hw : g.phase = .busy → ∃ i, w = encode i) : PhaseStep (some (.write 0x008 32 w)) f g where
  idle _ _ := ⟨w, rfl⟩
  abandoned _ h := absurd h hg
  ended h := by simp [phase_busy_iff, hf] at h
  acknowledged _ h := absurd h hg
  reissued _ h := by obtain ⟨i, rfl⟩ := hw h; exact ⟨i, rfl⟩

/-- The engine leads out of BUSY, and not to IDLE. -/
theorem PhaseStep.of_engine {e : Option Event} {f g : Status} (he : EngineEvent e) (hf : f.phase = .busy)
    (hg : g.phase ≠ .idle) : PhaseStep e f g where
  idle h := by simp [hf] at h
  abandoned _ h := absurd h hg
  ended _ _ := he
  acknowledged h := by simp [hf] at h
  reissued h := by simp [hf] at h

theorem PhaseStep.of_reset {f g : Status} (hg : g.phase = .idle) : PhaseStep (some .reset) f g := by
  constructor <;> simp [hg]

/-- A write to STATUS leads from DONE to IDLE when bit 1 is set, and nowhere else (R35). -/
theorem PhaseStep.of_statusWrite (v : Word) (f : Status) :
    PhaseStep (some (.write 0x00C 32 v)) f (f.writeOneToClear v) := by
  constructor <;> simp +contextual [phase_idle_iff, phase_busy_iff, phase_done_iff]

/-- A move of the engine that does not reset leads out of a phase as its event allows. -/
theorem MovesFrom.phaseStep {s u : State} {f : InFlight} (hs : s.Consistent) (hu : MovesFrom s f u) {g : Status}
    (hg : g.phase ≠ .idle) : PhaseStep s.script.head? s.status g := by
  rcases hu.event hs with ⟨hb, hh⟩ | ⟨hb, -, hev⟩
  · rw [hh]; exact .of_command hb hg fun _ => ⟨f.instr, rfl⟩
  · exact .of_engine hev ((phase_busy_iff _).mpr hb) hg

theorem step_phase {s t : State} (hs : s.Consistent) (h : step s = .next t) :
    PhaseStep s.script.head? s.status t.status := by
  cases step_case h with
  | quiet a b c d e => exact .of_same rfl
  | ctrl v a b c d e => exact .of_same rfl
  | limb i j v a b c d e => exact .of_same (by simp)
  | param p v a b c d e => exact .of_same (by simp)
  | status v a b c d e hh => rw [hh]; exact .of_statusWrite v s.status
  | ignored addr v a b c d e => exact .of_same rfl
  | illegal w r a b c d e hb hd hh =>
    have hdone : ((illegalCommand w s).env a b c d e).status.phase = .done := rfl
    rw [hh]
    exact .of_command hb (by rw [hdone]; decide) fun hbusy => by cases hdone.symm.trans hbusy
  | reset a b c d e hh => rw [hh]; exact .of_reset rfl
  | late f u b hu => exact hu.phaseStep hs (by simp [(phase_busy_iff _).mpr (hu.flying hs).busy])
  | ran f u t hu ht =>
    refine hu.phaseStep hs ?_
    rcases conclude_phase ht with hst | hdone
    · simp [hst, (phase_busy_iff _).mpr (hu.flying hs).busy]
    · simp [hdone]

/-- Settles O33: every step leads out of the phase it finds only as R30 draws it. -/
theorem phaseChanges : Obligations.PhaseChanges := by
  intro s t hs h
  obtain ⟨hidle, habandoned, hended, hack, hreissued⟩ := step_phase hs h
  exact ⟨hidle, habandoned, fun hb hd => (engineEvent_iff _).mp (hended hb hd), hack, hreissued⟩

end Sys2Proof.Machine
end

section
/-! What one command reads and writes: its frame (O36) and its operands (O37). -/

namespace Sys2Proof.Machine

/-! ### The frame -/

/-- What a command that is issued while BUSY = 0 has done from its start, at whatever point it is seen. -/
structure Frame (i : Instr) (s t : State) : Prop where
  other : ∀ k, k ∉ resultRegisters i → t.x k = s.x k
  unfinished : t.status.err = true ∨ t.status.busy = true → ∀ k, t.x k = s.x k
  width : t.width = s.width
  param : ∀ p, t.param p = s.param p
  ie : t.ie = s.ie
  wign : t.status.wign = s.status.wign
  cmd : t.cmd = encode i
  reply : t.reply = s.reply
  freeReads : t.freeReads = s.freeReads
  res : writesRes i = false → t.status.res = false
  undec : i ≠ .sieve → t.status.undec = false

/-- A success outcome from the start of the command (R263). -/
theorem succeed_frame {i : Instr} {r : Result} (hr : ResultOf i r) (p : Ports) (s : State) :
    Frame i s (succeed r (leavePorts p (startCommand i s))) where
  other k hk := by rw [succeed_x_other hr _ hk, leavePorts_x, startCommand_x]
  unfinished h := by simp at h
  width := rfl
  param := by simp
  ie := rfl
  wign := rfl
  cmd := rfl
  reply := rfl
  freeReads := rfl
  res h := Bool.eq_false_iff.mpr fun hres => by simp [hr.res hres] at h
  undec h := Bool.eq_false_iff.mpr fun hundec => h (hr.undec hundec)

theorem exec_frame {i : Instr} {s t : State} (hb : s.status.busy = false) (h : exec i s = .next t) : Frame i s t := by
  rcases exec_cases hb h with ⟨rest, rfl⟩ | h
  · rw [withScript_eq_env]; constructor <;> simp
  · rcases conclude_next h with ⟨r, p, hrun, rfl⟩ | ⟨e, info, p, -, rfl⟩ | ⟨r, p, -, rfl⟩ | ⟨p, -, rfl⟩
    · exact succeed_frame (bodyOf_result i s hrun) p s
    all_goals constructor <;> simp

/-- Settles O36: a command starts, and only its success outcome writes results, those of its row. -/
theorem commandFrame : Obligations.CommandFrame := by
  intro i s t hb h
  have f := exec_frame hb h
  exact ⟨f.other, f.unfinished, f.width, f.param, f.ie, f.wign, f.cmd, f.reply, f.freeReads, f.res, f.undec⟩

/-! ### The operands -/

/-- A command's algorithm reads the registers its row names, and no other (R23). -/
theorem bodyOf_congr_operands (i : Instr) {s t : State} (hw : t.width = s.width)
    (hx : ∀ k ∈ operandRegisters i, t.x k = s.x k) (hp : ∀ p ∈ operandParams i, t.param p = s.param p) :
    bodyOf i t = bodyOf i s := by
  have hn := State.nbits_eq hw
  have hq : ∀ p ∈ operandParams i, t.paramNat p = s.paramNat p := fun p hp' => congrArg BitVec.toNat (hp p hp')
  cases i with
  | isprime => simp only [bodyOf, bodyIsprime, hx 0 (by decide), hq .rounds (by decide)]
  | nextprime => simp only [bodyOf, bodyNextprime, hn, hx 0 (by decide), hq .rounds (by decide)]
  | rndprime => simp only [bodyOf, bodyRndprime, hn, hq .bits (by decide)]
  | rndprimer => simp only [bodyOf, bodyRndprimer, hx 1 (by decide), hx 2 (by decide)]
  | genpq =>
    simp only [bodyOf, bodyGenpq, hn, hq .bits (by decide), hq .qbits (by decide), hq .seedbits (by decide)]
  | geng => simp only [bodyOf, bodyGeng, hx 0 (by decide), hx 1 (by decide)]
  | verifyg => simp only [bodyOf, bodyVerifyg, hx 0 (by decide), hx 1 (by decide), hx 2 (by decide)]
  | genpg => simp only [bodyOf, bodyGenpg, hn, hq .bits (by decide)]
  | powmod => simp only [bodyOf, bodyPowmod, hx 0 (by decide), hx 1 (by decide), hx 2 (by decide)]
  | sieve => simp only [bodyOf, bodySieve, hx 0 (by decide)]
  | mrwit => simp only [bodyOf, bodyMrwit, hx 0 (by decide), hx 2 (by decide)]
  | seedq => simp only [bodyOf, bodySeedq, hn, hx 3 (by decide), hq .seedbits (by decide), hq .qbits (by decide)]
  | seedp =>
    simp only [bodyOf, bodySeedp, hn, hx 3 (by decide), hx 1 (by decide), hq .seedbits (by decide), hq .bits (by decide),
      hq .offset (by decide)]

/-- `s` and `t` end a command the same way, but for what they held before it. -/
structure SameEnd (i : Instr) (s t : State) : Prop where
  busy : t.status.busy = s.status.busy
  done : t.status.done = s.status.done
  err : t.status.err = s.status.err
  res : t.status.res = s.status.res
  undec : t.status.undec = s.status.undec
  cause : t.cause = s.cause
  einfo : t.einfo = s.einfo
  cmd : t.cmd = s.cmd
  inFlight : t.inFlight = s.inFlight
  requests : t.requests = s.requests
  randIn : t.randIn = s.randIn
  hashIn : t.hashIn = s.hashIn
  results : s.status.busy = false → s.status.err = false → ∀ k ∈ resultRegisters i, t.x k = s.x k

/-- The same success outcome delivers the same results (R23, R263). -/
theorem succeed_x_congr {i : Instr} {b : State} {p q : Ports} {r : Result} (h : (bodyOf i b).run p = .ok r q)
    (s t : State) {k : Fin 4} (hk : k ∈ resultRegisters i) : (succeed r t).x k = (succeed r s).x k := by
  obtain ⟨h0, h1, h2, h3⟩ := bodyOf_names i b h
  have reg {v : Option Nat} (hv : v.isSome) (a b : Nat) : resultReg a v = resultReg b v := by
    obtain ⟨w, rfl⟩ := Option.isSome_iff_exists.mp hv
    rw [resultReg_some, resultReg_some]
  fin_cases k
  · exact reg (h0 hk) t.x0 s.x0
  · exact reg (h1 hk) t.x1 s.x1
  · exact reg (h2 hk) t.x2 s.x2
  · exact reg (h3 hk) t.x3 s.x3

/-- Two states in which the command has started conclude the same run the same way. -/
theorem conclude_congr {i : Instr} {b s t s' : State} {p : Ports}
    (h : conclude ⟨i, [], 0, none⟩ (startCommand i s) ((bodyOf i b).run p) = .next s') :
    ∃ t', conclude ⟨i, [], 0, none⟩ (startCommand i t) ((bodyOf i b).run p) = .next t' ∧ SameEnd i s' t' := by
  rcases conclude_next h with ⟨r, q, hrun, rfl⟩ | ⟨e, info, q, hrun, rfl⟩ | ⟨r, q, hrun, rfl⟩ | ⟨q, hrun, rfl⟩
  · refine ⟨_, by rw [hrun]; rfl, ?_⟩
    constructor
    case results => exact fun _ _ k hk => succeed_x_congr hrun _ _ hk
    all_goals rfl
  · refine ⟨_, by rw [hrun]; rfl, ?_⟩
    constructor <;> simp
  · refine ⟨_, by rw [hrun]; rfl, ?_⟩
    constructor <;> simp
  · refine ⟨_, by rw [hrun]; rfl, ?_⟩
    constructor <;> simp

/-- Settles O37: both states run the same algorithm on the same answers. -/
theorem readsNamedOperands : Obligations.ReadsNamedOperands := by
  intro i s t s' hs ht hw hx hp hrand hhash h
  have same_ports : enginePorts ⟨i, [], 0, none⟩ (startCommand i t) =
      enginePorts ⟨i, [], 0, none⟩ (startCommand i s) := by
    simp [enginePorts, hrand, hhash]
  rw [issue_prompt hs] at h
  rw [issue_prompt ht, bodyOf_congr_operands i hw hx hp, same_ports]
  obtain ⟨t', ht', e⟩ := conclude_congr (t := t) h
  exact ⟨t', ht', e.busy, e.done, e.err, e.res, e.undec, e.cause, e.einfo, e.cmd, e.inFlight, e.requests, e.randIn,
    e.hashIn, e.results⟩

end Sys2Proof.Machine
end

section
/-! The registers as the host reads and writes them (O10, O15, O18, O19, O21, O24), and command start (O7). -/

namespace Sys2Proof.Machine

/-! ### Reads -/

/-- A read of a word that is not free at the moment returns that word and does nothing else (R61). -/
theorem readsAs_of_bankWord {s : State} {addr : Nat} {b : BankWord} (h4 : addr % 4 = 0) (hlt : addr < bankSize)
    (hb : bankWord s.nlimbs addr = b) (hfree : readIsFree b s = false) : s.ReadsAs addr (bankRead b s) := by
  rw [State.ReadsAs, step_read h4 hlt, hb, if_neg (by simp [hfree])]

theorem readsAs_param (s : State) (p : Param) : s.ReadsAs p.byteOffset (s.param p) :=
  readsAs_of_bankWord (paramOffset_ok p).1 (paramOffset_ok p).2 (bankWord_param _ p) rfl

theorem readsAs_limb {s : State} (hb : s.status.busy = false) (i : Fin 4) {j : Nat} (hj : j < s.nlimbs) :
    s.ReadsAs (limbOffset i.val j) (getLimb (s.x i) j) := by
  have hn : s.nlimbs ≤ 256 := (width_facts s.width).2.2.2.2.2
  obtain ⟨h4, hlt⟩ := limbOffset_ok (i := i) (hj.trans_le hn)
  have := readsAs_of_bankWord h4 hlt (bankWord_limb hn hj) hb
  rwa [bankRead, if_neg (by simp [hb])] at this

/-- Entry `i` of the small-prime table in its window (R67). -/
theorem readsAs_table (s : State) {i : Nat} (hi : i < Config.NPRIMES) :
    s.ReadsAs (0x400 + 4 * i) (BitVec.ofNat 32 (tableEntry i)) := by
  have hP : Config.NPRIMES = 168 := rfl
  refine readsAs_of_bankWord (b := .table i) (by omega) (by unfold bankSize; omega) ?_ rfl
  rw [bankWord, if_neg (by omega), if_pos (by omega), show (0x400 + 4 * i - 0x400) / 4 = i by omega]

theorem readsAs_id (s : State) : s.ReadsAs 0x000 0x4D524531#32 :=
  readsAs_of_bankWord (b := .id) (by decide) (by decide) rfl rfl

/-- CAP as a sum: NBITS has 16 bits (R34, R4). -/
theorem capWord_eq {n : Nat} (hn : n < 2 ^ 16) : capWord n = BitVec.ofNat 32 (0xA8200000 + n) := by
  have high : (BitVec.ofNat 8 Config.NPRIMES ++ BitVec.ofNat 8 Config.DIGESTBYTES).toNat = 0xA820 := by decide
  apply BitVec.eq_of_toNat_eq
  rw [capWord, BitVec.toNat_append, high, BitVec.toNat_ofNat, BitVec.toNat_ofNat, Nat.mod_eq_of_lt hn,
    ← Nat.shiftLeft_add_eq_or_of_lt hn]
  omega

theorem readsAs_cap (s : State) : s.ReadsAs 0x004 (BitVec.ofNat 32 (0xA8200000 + s.nbits)) := by
  have hn : s.nbits ≤ 8192 := (width_facts s.width).2.2.1
  rw [← capWord_eq (by omega)]
  exact readsAs_of_bankWord (b := .cap) (by decide) (by decide) rfl rfl

/-- The STATUS register as it is read (R35). -/
theorem readsAs_status (s : State) : s.ReadsAs 0x00C s.status.toWord :=
  readsAs_of_bankWord (b := .status) (by decide) (by decide) rfl rfl

/-- The CTRL register as it is read (R39). -/
theorem ctrl_reads (s : State) :
    ∃ w, s.ReadsAs 0x018 w ∧ w.getLsbD 0 = s.ie ∧ ∀ k, 1 ≤ k → w.getLsbD k = false := by
  refine ⟨s.ctrlWord, readsAs_of_bankWord (b := .ctrl) (by decide) (by decide) rfl rfl, ctrlWord_bits s 0,
    fun k hk => ?_⟩
  rw [ctrlWord_bits, List.getD_eq_default _ _ hk]

/-- Settles O10: each offset of R31 belongs to its register, and STATUS and CTRL read bit by bit as R35 and R39 give. -/
theorem controlRegisterReads : Obligations.ControlRegisterReads := by
  intro s
  refine ⟨readsAs_id s, readsAs_cap s, fun h => ?_, readsAs_of_bankWord (b := .cmd) (by decide) (by decide) rfl rfl,
    readsAs_of_bankWord (b := .cause) (by decide) (by decide) rfl rfl,
    readsAs_of_bankWord (b := .einfo) (by decide) (by decide) rfl rfl, readsAs_param s .bits, readsAs_param s .qbits,
    readsAs_param s .seedbits, readsAs_param s .rounds, readsAs_param s .offset, ?_, ctrl_reads s⟩
  · have := readsAs_cap s
    rwa [h] at this
  · have bits := toWord_bits s.status
    refine ⟨_, readsAs_status s, bits 0, bits 1, bits 2, bits 3, bits 4, bits 5, fun k hk => ?_⟩
    rw [bits, List.getD_eq_default _ _ hk]

/-- Settles O24: reset clears every register; the constants of R33, R34 and R40 are outside the state. -/
theorem resetValues : Obligations.ResetValues := by
  rintro w s rfl
  refine ⟨fun i => resetOf_x i w, fun p => resetOf_param p w, rfl, rfl, rfl, rfl, rfl, rfl, rfl, rfl,
    readsAs_id _, readsAs_cap _, fun i => ?_⟩
  have := readsAs_table (State.resetOf w) (i := i.val) i.isLt
  rwa [tableEntry, List.getD_eq_getElem _ _ i.isLt] at this

/-! ### Writes -/

/-- A write to any word but CMD is the plain write of the word's owner (R62). -/
theorem step_plainWrite {s : State} {addr : Nat} {b : BankWord} (v : Word) (h4 : addr % 4 = 0) (hlt : addr < bankSize)
    (hb : bankWord s.nlimbs addr = b) (hcmd : b ≠ .cmd) :
    step (s.event (.write addr 32 v)) = .next (plainWrite b v { s with reply := .accepted }) := by
  rw [step_write h4 hlt, hb, if_neg hcmd]

/-- Settles O18: the write stores the word in its register, which later reads return. -/
theorem parameterWrite : Obligations.ParameterWrite := by
  intro s p v hb
  refine ⟨?_, ?_, fun q hq => ?_⟩
  · rw [step_plainWrite v (paramOffset_ok p).1 (paramOffset_ok p).2 (bankWord_param _ p) (by simp), plainWrite,
      operandWrite, if_neg (by simp [hb])]
    cases p <;> rfl
  · simpa using readsAs_param (s.setParam p v) p
  · simpa [param_setParam_other s v hq] using readsAs_param (s.setParam p v) q

/-- Settles O19: STATUS takes the write, whose ones clear DONE and WIGN. -/
theorem statusWrite : Obligations.StatusWrite := fun s v =>
  step_plainWrite (b := .status) v (by decide) (by decide) rfl (by simp)

/-- Settles O21: CTRL holds IE in bit 0 and nothing else. -/
theorem controlWrite : Obligations.ControlWrite := fun s v =>
  ⟨ctrl_reads s, by simp [State.irq], _, step_plainWrite (b := .ctrl) v (by decide) (by decide) rfl (by simp), rfl, rfl⟩

/-! ### The limbs of a register -/

/-- The events of `rdx` from limb `m` on (R111). -/
theorem scriptRdx_drop {n m : Nat} (i : Fin 4) (hm : m < n) :
    (scriptRdx n i).drop m = .read (limbOffset i.val m) 32 :: (scriptRdx n i).drop (m + 1) := by
  rw [List.drop_eq_getElem_cons (by simpa [scriptRdx] using hm)]
  simp [scriptRdx]

/-- The read of limb `m` in `rdx`. -/
theorem step_rdx {s : State} (hb : s.status.busy = false) (i : Fin 4) {m : Nat} (r : Reply) (hm : m < s.nlimbs) :
    step { s with reply := r, script := (scriptRdx s.nlimbs i).drop m ++ s.script } = .next { s with
      reply := .data (getLimb (s.x i) m)
      script := (scriptRdx s.nlimbs i).drop (m + 1) ++ s.script } := by
  rw [scriptRdx_drop i hm]
  exact readsAs_limb (s := { s with reply := r, script := (scriptRdx s.nlimbs i).drop (m + 1) ++ s.script }) hb i hm

/-- The reads of `rdx` from limb `m` on, one a step (R111). -/
theorem run_rdx {s : State} (hb : s.status.busy = false) (i : Fin 4) (k : Nat) :
    ∀ (m : Nat) (r : Reply), m + k < s.nlimbs →
    Host.Core.run Sys2Proof.core (k + 1)
        { s with reply := r, script := (scriptRdx s.nlimbs i).drop m ++ s.script } =
      .next { s with
        reply := .data (getLimb (s.x i) (m + k))
        script := (scriptRdx s.nlimbs i).drop (m + k + 1) ++ s.script } := by
  induction k with
  | zero => exact fun m r hm => run_core_succ 0 (step_rdx hb i r hm)
  | succ k ih =>
    intro m r hm
    rw [run_core_succ (k + 1) (step_rdx hb i r (by omega)), ih (m + 1) _ (by omega), show m + 1 + k = m + (k + 1) by omega]

/-- Settles O15: the words are the limbs of x[i], which sum to its value because it is below 2^NBITS. -/
theorem registerIsSumOfLimbs : Obligations.RegisterIsSumOfLimbs := by
  intro s i hs hb
  have hlen : ((List.range s.nlimbs).map (getLimb (s.x i))).length = s.nlimbs := by simp
  have hval : valueOfLimbs ((List.range s.nlimbs).map (getLimb (s.x i))) = s.x i := valueOfLimbs_getLimb (hs.fits i)
  refine ⟨(List.range s.nlimbs).map (getLimb (s.x i)), hlen, fun j hj => ?_, fun j hj => ?_, hval.symm, ?_⟩
  · rw [List.getElem_map, List.getElem_range]
    exact readsAs_limb hb i (hlen ▸ hj)
  · simpa using run_rdx hb i j 0 s.reply (by omega)
  · have := valueOfLimbs_eq_sum ((List.range s.nlimbs).map (getLimb (s.x i)))
    rwa [hval, hlen] at this

/-! ### Command start -/

/-- What is said of each command's word, for all of them (R101, R104). -/
theorem encoding_statement (i : Instr) : Laws.Encoding.Statement i := by
  cases i
  exacts [Laws.Encoding.isprime, Laws.Encoding.nextprime, Laws.Encoding.rndprime, Laws.Encoding.rndprimer,
    Laws.Encoding.genpq, Laws.Encoding.geng, Laws.Encoding.verifyg, Laws.Encoding.genpg, Laws.Encoding.powmod,
    Laws.Encoding.sieve, Laws.Encoding.mrwit, Laws.Encoding.seedq, Laws.Encoding.seedp]

theorem decode_encode (i : Instr) : decode (encode i) = .ok i := by
  obtain ⟨-, -, -, h, -⟩ := encoding_statement i
  exact h

/-- Settles O7: a legal word is issued, and with the engine held back issuing it is command start. -/
theorem commandStart : Obligations.CommandStart := by
  intro s i hb
  rw [step_commandWrite, commandWrite, decode_encode]
  exact exec_held (s := { s with reply := .accepted }) hb

end Sys2Proof.Machine
end

section
/-! The requests on the ports stay legal (O30, R75 to R83). -/

namespace Sys2Proof.Machine

theorem State.PortsLegal.congr {s t : State} (hs : s.PortsLegal) (hw : t.width = s.width)
    (hf : t.inFlight = s.inFlight) (hr : t.requests = s.requests) : t.PortsLegal where
  legal := by rw [hr, State.nbits_eq hw]; exact hs.legal
  last := by rw [hf, hr]; exact hs.last

theorem State.PortsLegal.env {s : State} (hs : s.PortsLegal) (a : Reply) (b : List Event) (c : List Nat) (d e : Nat) :
    (s.env a b c d e).PortsLegal :=
  hs.congr rfl rfl rfl

/-- Without a request outstanding only the legality of the requests counts. -/
theorem portsLegal_of_no_outstanding {s : State} (ho : ∀ f, s.inFlight = some f → f.outstanding = none)
    (legal : ∀ r ∈ s.requests, r.Legal s.nbits) : s.PortsLegal where
  legal := legal
  last f r hf hr := by simp [ho f hf] at hr

/-- An illegal word clears the record of requests (R105). -/
theorem illegalCommand_portsLegal (w : Word) (s : State) : (illegalCommand w s).PortsLegal :=
  portsLegal_of_no_outstanding (by simp [illegalCommand]) (by simp [illegalCommand])

/-- Where the engine moves from, nothing is outstanding: the command has just started, or has got its answer. -/
theorem MovesFrom.portsLegal {s u : State} {f : InFlight} (hs : s.PortsLegal) (h : MovesFrom s f u) : u.PortsLegal := by
  cases h with
  | start i a b c d e hb hh hf => exact portsLegal_of_no_outstanding (by simp) (by simp)
  | resume f₀ a b c d e h0 hev hf =>
    exact portsLegal_of_no_outstanding (fun g hg => by cases hg; exact hf.outstanding) hs.legal

/-- A run of the engine, whose ports begin with no request on record, sends legal requests only. -/
theorem run_sends_legal {u : State} (fits : ∀ k, u.x k < 2 ^ u.nbits) (f : InFlight) :
    ∀ r ∈ (portsAfter ((bodyOf f.instr u).run (enginePorts f u))).sent, r.Legal u.nbits := by
  obtain ⟨new, hsent, hlegal⟩ := (bodyOf_bounded f.instr u fun k _ => fits k).sends (enginePorts f u)
  rwa [hsent, show (enginePorts f u).sent = [] from rfl, List.append_nil]

/-- However a move of the engine ends, its requests are legal, and one it waits for is the last. -/
theorem conclude_portsLegal {f : InFlight} {u t : State} (fits : ∀ k, u.x k < 2 ^ u.nbits)
    (ht : conclude f u ((bodyOf f.instr u).run (enginePorts f u)) = .next t) : t.PortsLegal := by
  have legal := run_sends_legal fits f
  rcases conclude_next ht with ⟨r, p, hrun, rfl⟩ | ⟨e, info, p, hrun, rfl⟩ | ⟨r, p, hrun, rfl⟩ | ⟨p, hrun, rfl⟩ <;>
    simp only [hrun, portsAfter_ok, portsAfter_error] at legal
  · exact portsLegal_of_no_outstanding (by simp) (by simpa using legal)
  · exact portsLegal_of_no_outstanding (by simp) (by simpa using legal)
  · have last := (bodyOf_bounded f.instr u fun k _ => fits k).waits _ _ _ hrun
    refine ⟨by simpa using legal, fun g r' hg hr' => ?_⟩
    cases hg
    cases hr'
    rw [holdCommand_requests, List.getLast?_reverse, last]
  · exact portsLegal_of_no_outstanding (fun g hg => by cases hg; rfl) (by simpa using legal)

/-- Settles O30: only a move of the engine sends requests, all legal; a host access sends none and leaves the record, or
clears it. -/
theorem portsStayLegal : Obligations.PortsStayLegal := by
  intro s t hs hp h
  cases step_case h with
  | quiet a b c d e => exact hp.env a b c d e
  | ctrl v a b c d e => exact hp.congr rfl rfl rfl
  | limb i j v a b c d e => exact hp.congr (by simp) (by simp) (by simp)
  | param p v a b c d e => exact hp.congr (by simp) (by simp) (by simp)
  | status v a b c d e => exact hp.congr rfl rfl rfl
  | ignored addr v a b c d e => exact hp.congr rfl rfl rfl
  | illegal w r a b c d e => exact (illegalCommand_portsLegal w s).env a b c d e
  | reset a b c d e => exact (resetOf_portsLegal s.width).env a b c d e
  | late f u b hu => exact (hu.portsLegal hp).env u.reply b u.randIn u.hashIn u.freeReads
  | ran f u t hu ht => exact conclude_portsLegal (hu.fits hs) ht

end Sys2Proof.Machine
end

section
/-! The words of the bank: reads (O11, O17), the table (O12), reserved words (O13), the limbs (O14), and what the bus
refuses (O23). -/

namespace Sys2Proof.Machine

/-! ### Reads -/

/-- Only a read while BUSY = 1 is unspecified (R71). -/
theorem readIsFree_idle (b : BankWord) {s : State} (h : s.status.busy = false) : readIsFree b s = false := by
  cases b with
  | limb i j => exact h
  | _ => rfl

/-- Settles O11: a read writes the reply, and counts a free value only while BUSY = 1. -/
theorem readsHaveNoEffect : Obligations.ReadsHaveNoEffect := by
  intro s addr h4 hlt
  exact ⟨_, _, step_read h4 hlt, fun hb => if_neg (by simp [readIsFree_idle _ hb])⟩

/-- Where a limb stands, and that it is the limb's own word (R63). -/
theorem limbWord (s : State) (i : Fin 4) {j : Nat} (hj : j < s.nlimbs) :
    limbOffset i.val j % 4 = 0 ∧ limbOffset i.val j < bankSize ∧
      bankWord s.nlimbs (limbOffset i.val j) = .limb i j := by
  obtain ⟨-, -, -, -, -, hn⟩ := s.width_facts
  obtain ⟨h4, hlt⟩ := limbOffset_ok (i := i) (hj.trans_le hn)
  exact ⟨h4, hlt, bankWord_limb hn hj⟩

/-- Settles O17: a limb reads as a free value while BUSY = 1; CAUSE, EINFO and CMD are as command start left them. -/
theorem readsWhileBusy : Obligations.ReadsWhileBusy := by
  intro s f hs hf
  have hb : s.status.busy = true := by rw [← hs.inFlight, hf]; rfl
  obtain ⟨-, -, -, hcause, heinfo⟩ := hs.clear hb
  have hcmd := hs.command f hf
  refine ⟨fun i j hj => ?_, ?_, ?_, ?_⟩
  · obtain ⟨h4, hlt, hword⟩ := limbWord s i hj
    rw [step_read h4 hlt, hword]
    simp [bankRead, readIsFree, hb]
  · rw [← hcause]; exact readsAs_of_bankWord (b := .cause) (by decide) (by decide) rfl rfl
  · rw [← heinfo]; exact readsAs_of_bankWord (b := .einfo) (by decide) (by decide) rfl rfl
  · rw [← hcmd]; exact readsAs_of_bankWord (b := .cmd) (by decide) (by decide) rfl rfl

/-! ### Words that ignore writes -/

/-- A word of which the host's writes store nothing (R62 (e), R67, R68). -/
def BankWord.isReadOnly (b : BankWord) : Bool :=
  match b with
  | .id | .cap | .cause | .einfo | .table _ | .reserved => true
  | .cmd | .status | .ctrl | .param _ | .limb _ _ => false

theorem plainWrite_readOnly {b : BankWord} (h : b.isReadOnly = true) (v : Word) (s : State) : plainWrite b v s = s := by
  cases b with
  | id | cap | cause | einfo | table | reserved => rfl
  | cmd | status | ctrl | param | limb => cases h

theorem ignoresWrite_readOnly {s : State} {addr : Nat} {b : BankWord} (v : Word) (h4 : addr % 4 = 0)
    (hlt : addr < bankSize) (hb : bankWord s.nlimbs addr = b) (h : b.isReadOnly = true) : s.IgnoresWrite addr v := by
  rw [State.IgnoresWrite, step_plainWrite v h4 hlt hb (by rintro rfl; cases h), plainWrite_readOnly h]

/-- The owner of a word of the table's window (R67). -/
theorem bankWord_table (n : Nat) {i : Nat} (hi : i < Config.NPRIMES) : bankWord n (0x400 + 4 * i) = .table i := by
  rw [bankWord, if_neg (by omega), if_pos (by omega), show (0x400 + 4 * i - 0x400) / 4 = i by omega]

theorem smallPrimeTable_ascending : smallPrimeTable.Pairwise (· < ·) := by
  rw [table_eq_filter]
  exact List.pairwise_lt_range.filter _

/-- 997 is the last prime below 1000 (R40). -/
theorem prime_lt_thousand_iff {n : Nat} (hn : n.Prime) : n < 1000 ↔ n ≤ 997 := by
  have h998 : n ≠ 998 := by rintro rfl; norm_num at hn
  have h999 : n ≠ 999 := by rintro rfl; norm_num at hn
  omega

/-- Settles O12: the table is the primes below 1000 in order, and the window's words are read-only. -/
theorem smallPrimeTable_and_window : Obligations.SmallPrimeTable := by
  refine ⟨rfl, smallPrimeTable_ascending, fun n => mem_table_iff.trans (and_congr_right prime_lt_thousand_iff),
    fun s i v => ?_⟩
  have hi : i.val < Config.NPRIMES := i.isLt
  have hP : Config.NPRIMES = 168 := rfl
  constructor
  · have := readsAs_table s hi
    rwa [tableEntry, List.getD_eq_getElem _ _ i.isLt] at this
  · exact ignoresWrite_readOnly v (by omega) (by unfold bankSize; omega) (bankWord_table _ hi) rfl

/-- The control registers leave these words of their window reserved (R31). -/
theorem controlWord_reserved {addr : Nat} (h : addr = 0x01C ∨ 0x034 ≤ addr) : controlWord addr = .reserved := by
  unfold controlWord
  split
  case h_13 => rfl
  all_goals omega

/-- The words no register or window owns (R66, R68, R63). -/
theorem bankWord_reserved {n addr : Nat}
    (h : addr = 0x01C ∨ (0x034 ≤ addr ∧ addr < 0x400) ∨ (0x6A0 ≤ addr ∧ addr < 0x1000) ∨
      (0x1000 ≤ addr ∧ addr < 0x2000 ∧ 4 * n ≤ (addr - 0x1000) % 0x400)) : bankWord n addr = .reserved := by
  have hP : Config.NPRIMES = 168 := rfl
  unfold bankWord
  by_cases hcontrol : addr < 0x400
  · rw [if_pos hcontrol, controlWord_reserved (by omega)]
  · rw [if_neg hcontrol, if_neg (by omega)]
    by_cases hgap : addr < 0x1000
    · rw [if_pos hgap]
    · rw [if_neg hgap]
      exact if_neg (by omega)

/-- Settles O13: reserved words have an owner that reads 0, and neither they nor the read-only registers store a word. -/
theorem reservedWords : Obligations.ReservedWords := by
  refine ⟨fun s addr v h4 h => ?_, fun s v => ?_⟩
  · have hlt : addr < bankSize := by unfold bankSize; omega
    have hb : bankWord s.nlimbs addr = .reserved := bankWord_reserved h
    exact ⟨readsAs_of_bankWord h4 hlt hb rfl, ignoresWrite_readOnly v h4 hlt hb rfl⟩
  · exact ⟨ignoresWrite_readOnly (b := .id) v (by decide) (by decide) rfl rfl,
      ignoresWrite_readOnly (b := .cap) v (by decide) (by decide) rfl rfl,
      ignoresWrite_readOnly (b := .cause) v (by decide) (by decide) rfl rfl,
      ignoresWrite_readOnly (b := .einfo) v (by decide) (by decide) rfl rfl⟩

/-! ### The limbs -/

/-- A write to a limb while BUSY = 0 stores it (R62 (d), R63). -/
theorem step_limbWrite {s : State} (hb : s.status.busy = false) (i : Fin 4) {j : Nat} (hj : j < s.nlimbs) (v : Word) :
    step (s.event (.write (limbOffset i.val j) 32 v)) =
      .next { s.setX i (setLimb (s.x i) j v) with reply := .accepted } := by
  obtain ⟨h4, hlt, hword⟩ := limbWord s i hj
  rw [step_plainWrite v h4 hlt hword (by simp), plainWrite, operandWrite, if_neg (by simp [hb])]
  fin_cases i <;> rfl

/-- Settles O14: limb j is the 32 bits from 32j on, which a write replaces. -/
theorem limbAccess : Obligations.LimbAccess := by
  intro s i j v hj hb
  refine ⟨?_, setLimb (s.x i) j v, step_limbWrite hb i hj v, fun k hk => ?_, fun k hk => ?_⟩
  · rw [← Nat.shiftRight_eq_div_pow]
    exact readsAs_limb hb i hj
  · rw [testBit_setLimb, if_pos (by omega), Nat.add_sub_cancel_left]
  · rw [testBit_setLimb, if_neg (by omega)]

/-! ### What the bus refuses -/

theorem runEngine_not_fault {body : State → Engine Result} {s : State} {e : Fault} : runEngine body s ≠ .fault e := by
  cases hf : s.inFlight with
  | none => simp [runEngine, hf]
  | some f => rw [runEngine_inFlight hf]; exact conclude_not_fault

theorem engineTurn_not_fault {body : State → Engine Result} {s : State} {e : Fault} : engineTurn body s ≠ .fault e := by
  unfold engineTurn
  split
  · simp
  · exact runEngine_not_fault

theorem engineMove_not_fault {s : State} {e : Fault} : engineMove s ≠ .fault e := by
  unfold engineMove
  split
  · simp
  · split
    · simp
    · exact runEngine_not_fault

theorem randomAnswer_not_fault {v : Nat} {s : State} {e : Fault} : randomAnswer v s ≠ .fault e := by
  unfold randomAnswer
  split
  · simp
  · split
    · exact engineTurn_not_fault
    · exact engineTurn_not_fault
    · simp
    · simp

theorem oracleAnswer_not_fault {s : State} {e : Fault} : oracleAnswer s ≠ .fault e := by
  unfold oracleAnswer
  split
  · simp
  · split
    · exact engineTurn_not_fault
    all_goals simp

/-- A write to CMD is never a fault: neither is a command's run, nor an illegal word (R105). -/
theorem commandWrite_not_fault {w : Word} {s : State} {e : Fault} : commandWrite w s ≠ .fault e := by
  unfold commandWrite
  split
  · rw [exec_eq_issue, issue]
    split
    · simp
    · exact engineTurn_not_fault
  · split <;> simp

theorem busAccepts_iff {addr width : Nat} :
    busAccepts addr width = true ↔ width = 32 ∧ addr % 4 = 0 ∧ addr < 0x2000 := by
  simp only [busAccepts, Bool.and_eq_true, decide_eq_true_eq, and_assoc]
  rfl

theorem hostRead_fault_iff {addr width : Nat} {s : State} {e : Fault} :
    hostRead addr width s = .fault e ↔ busAccepts addr width = false ∧ e = .busRefused addr width := by
  unfold hostRead
  cases busAccepts addr width with
  | false => simp [eq_comm]
  | true => simp

/-- A write that the bus accepts is no fault, whatever word it is for. -/
theorem hostWrite_accepted_not_fault {addr width : Nat} {v : Word} {s : State} {e : Fault}
    (h : busAccepts addr width = true) : hostWrite addr width v s ≠ .fault e := by
  obtain ⟨rfl, h4, hlt⟩ := busAccepts_iff.mp h
  change step (s.event (.write addr 32 v)) ≠ .fault e
  rw [step_write h4 hlt]
  split
  · exact commandWrite_not_fault
  · simp

theorem hostWrite_fault_iff {addr width : Nat} {v : Word} {s : State} {e : Fault} :
    hostWrite addr width v s = .fault e ↔ busAccepts addr width = false ∧ e = .busRefused addr width := by
  cases hacc : busAccepts addr width with
  | false => simp [hostWrite, hacc, eq_comm]
  | true => exact iff_of_false (hostWrite_accepted_not_fault hacc) (by simp)

/-- The events that are faults: the accesses that the bus refuses (R65). -/
theorem handleEvent_fault_iff {ev : Event} {s : State} {e : Fault} :
    handleEvent ev s = .fault e ↔ ∃ addr width, e = .busRefused addr width ∧ busAccepts addr width = false ∧
      (ev = .read addr width ∨ ∃ v, ev = .write addr width v) := by
  cases ev with
  | read addr width => simp [handleEvent, hostRead_fault_iff, and_comm]
  | write addr width v => simp [handleEvent, hostWrite_fault_iff, and_comm]
  | reset => simp [handleEvent]
  | randAnswer v => simp [handleEvent, randomAnswer_not_fault]
  | hashAnswer => simp [handleEvent, oracleAnswer_not_fault]
  | engineLate => simp [handleEvent]
  | engine => simp [handleEvent, engineMove_not_fault]

/-- Settles O23: only the handling of an access can be a fault, and it is one exactly when the bus does not accept it. -/
theorem busRefusal : Obligations.BusRefusal := by
  intro s e
  simp only [← busAccepts_iff, Bool.not_eq_true]
  cases hs : s.script with
  | nil => rw [step_empty hs]; simp [engineMove_not_fault]
  | cons ev rest => simp [step, nextEvent, hs, handleEvent_fault_iff]

end Sys2Proof.Machine
end

section
/-! A command that waits for an answer (R78), and ISPRIME (O45). -/

namespace Sys2Proof.Machine

variable {α β : Type} {o : Oracle}

/-- On exactly these answers, with none left on the port of `r`, the part waits for the answer to `r`, having sent `sent`
before it (R78, R80). -/
def Waits (o : Oracle) (m : Engine α) (draws : List Nat) (digests : Nat) (sent : List Request) (r : Request) : Prop :=
  ∀ p : Ports, p.oracle = o → (if r.isHash then p.hash = 0 else p.rand = []) →
    m.run (p.feed draws digests) = .error (.wait r) (p.take draws digests (sent ++ [r]))

theorem waits_draw {r : Request} {range : Nat → Bool} (hr : r.isHash = false) : Waits o (draw r range) [] 0 [] r := by
  intro p _ hempty
  rw [Ports.feed_nil, draw_nil (by simpa [hr] using hempty)]
  simp [Ports.take]

theorem Waits.bind {m : Engine α} {f : α → Engine β} {d : List Nat} {h : Nat} {s : List Request} {r : Request}
    (hm : Waits o m d h s r) : Waits o (m >>= f) d h s r := fun p hp hempty => bind_error (hm p hp hempty)

theorem Runs.bind_waits {m : Engine α} {f : α → Engine β} {d1 d2 : List Nat} {h1 h2 : Nat} {s1 s2 : List Request}
    {a : α} {r : Request} (hm : Runs o m d1 h1 s1 a) (hf : Waits o (f a) d2 h2 s2 r) :
    Waits o (m >>= f) (d1 ++ d2) (h1 + h2) (s1 ++ s2) r := fun p hp hempty => by
  rw [← Ports.feed_feed, bind_ok (hm (p.feed d2 h2) hp), Ports.take_feed, hf (p.take d1 h1 s1) hp hempty,
    Ports.take_take, List.append_assoc]

/-- A ready command whose algorithm waits is in flight after this step, with its request outstanding (R78). -/
theorem exec_of_waits {i : Instr} {s : State} {draws rest : List Nat} {k left : Nat} {sent : List Request} {r : Request}
    (h : s.ready) (hr : s.randIn = draws ++ rest) (hh : s.hashIn = k + left)
    (hempty : if r.isHash then left = 0 else rest = []) (hrun : Waits Config.hash (bodyOf i s) draws k sent r) :
    exec i s = .next (s.flying (encode i) ⟨i, draws, k, some r⟩ (sent ++ [r]) rest left) := by
  rw [issue_prompt h, enginePorts_start i s hr hh, hrun _ rfl hempty]
  simp [conclude, holdCommand, leavePorts, startCommand, State.flying, Ports.take, Status.started]

/-- Rounds that all pass, and are more than the answers, wait for the next witness (R148). -/
theorem waits_mrRounds {n : Nat} {as : List Nat} (hn : 2 ≤ n) (hodd : n % 2 = 1)
    (has : ∀ a ∈ as, 2 ≤ a ∧ a ≤ n - 2 ∧ StrongPass n a) :
    ∀ rounds, as.length < rounds →
      Waits o (mrRounds n (decompose n).1 (decompose n).2 rounds) as 0 (witnessRequests n as) (.randRange 2 (n - 2)) := by
  induction as with
  | nil =>
    rintro (_ | k) hk
    · exact absurd hk (Nat.not_lt_zero _)
    · exact (waits_draw rfl).bind
  | cons a as ih =>
    rintro (_ | k) hk
    · exact absurd hk (Nat.not_lt_zero _)
    · obtain ⟨hlo, hhi, hpass⟩ := has a List.mem_cons_self
      rw [witnessRequests_cons]
      refine (runs_randRange hlo hhi).bind_waits (h2 := 0) ?_
      rw [if_pos ((mrRound_decompose hn hodd).mpr hpass)]
      exact ih (fun b hb => has b (List.mem_cons_of_mem _ hb)) k (Nat.lt_of_succ_lt_succ hk)

theorem waits_isPrime {n rounds : Nat} {as : List Nat} (ht : ¬TableDecides n)
    (has : ∀ a ∈ as, 2 ≤ a ∧ a ≤ n - 2 ∧ StrongPass n a) (hlen : as.length < rounds) :
    Waits o (isPrime n rounds) as 0 (witnessRequests n as) (.randRange 2 (n - 2)) := by
  obtain ⟨hn, hodd⟩ := undecided_facts ht
  rw [isPrime, (sieve_spec n).2 ht]
  exact waits_mrRounds (by omega) hodd has rounds hlen

/-- Settles O45: every ready answer is a witness that passes, and the round after them draws the next. -/
theorem isprimeWaits : Obligations.IsprimeWaits := by
  intro s hs ht hlen has
  exact exec_of_waits (i := .isprime) hs (List.append_nil _).symm (Nat.zero_add _).symm rfl
    (waits_isPrime ht has hlen).bind

end Sys2Proof.Machine
end

section
/-! The command words: decoding and encoding (O1, O2, O3), and what a write to CMD does with a legal word (O4) and with an
illegal one (O5). -/

namespace Sys2Proof.Machine

/-! ### The two fields of a word -/

/-- A word's value by its fields OPCODE and ZERO (R101). -/
theorem toNat_eq_fields (w : Word) : w.toNat = (w.extractLsb' 0 8).toNat + 2 ^ 8 * (w.extractLsb' 8 24).toNat := by
  simp only [BitVec.extractLsb'_toNat, Nat.shiftRight_eq_div_pow]
  omega

/-- The opcodes that the map leaves unassigned (R105). -/
theorem opcodeMap_eq_none_iff {n : Nat} : opcodeMap n = none ↔ n = 0 ∨ 14 ≤ n := by
  have hassigned : ∀ m < 14, opcodeMap m = none ↔ m = 0 := by decide
  obtain hlt | hge := Nat.lt_or_ge n 14
  · rw [hassigned n hlt]
    omega
  · obtain ⟨k, rfl⟩ := Nat.exists_eq_add_of_le' hge
    exact iff_of_true rfl (.inr hge)

theorem zeroClear_iff (w : Word) : (formatC w).zeroClear = true ↔ w.extractLsb' 8 24 = 0#24 := by
  simp [FormatC.zeroClear, formatC]

theorem decode_assigned {w : Word} {i : Instr} (hz : w.extractLsb' 8 24 = 0#24)
    (ho : opcodeMap (w.extractLsb' 0 8).toNat = some i) : decode w = .ok i := by
  rw [decode, if_pos ((zeroClear_iff w).mpr hz)]
  simp only [formatC, ho]

theorem decode_unassigned {w : Word} (hz : w.extractLsb' 8 24 = 0#24)
    (ho : opcodeMap (w.extractLsb' 0 8).toNat = none) : decode w = .error (.opcodeUnassigned (w.extractLsb' 0 8)) := by
  rw [decode, if_pos ((zeroClear_iff w).mpr hz)]
  simp only [formatC, ho]

theorem decode_zeroFieldSet {w : Word} (hz : w.extractLsb' 8 24 ≠ 0#24) :
    decode w = .error (.zeroFieldSet (w.extractLsb' 8 24)) :=
  if_neg fun h => hz ((zeroClear_iff w).mp h)

/-! ### The opcode map -/

theorem toNat_encode (i : Instr) : 1 ≤ (encode i).toNat ∧ (encode i).toNat ≤ 13 := by
  cases i <;> decide

theorem exists_decode_iff (w : Word) : (∃ i, decode w = .ok i) ↔ 1 ≤ w.toNat ∧ w.toNat ≤ 13 := by
  constructor
  · rintro ⟨i, h⟩
    rw [decode_ok h]
    exact toNat_encode i
  · rintro ⟨hlo, hhi⟩
    have hw := toNat_eq_fields w
    have hz : w.extractLsb' 8 24 = 0#24 := BitVec.eq_of_toNat_eq (by rw [BitVec.toNat_ofNat]; omega)
    have ho : opcodeMap (w.extractLsb' 0 8).toNat ≠ none := fun h => by
      have := opcodeMap_eq_none_iff.mp h
      rw [hz, BitVec.toNat_ofNat] at hw
      omega
    obtain ⟨i, hi⟩ := Option.ne_none_iff_exists'.mp ho
    exact ⟨i, decode_assigned hz hi⟩

/-- Settles O1: the 13 words are the encodings of the 13 commands, and a word has an assigned opcode and ZERO = 0 exactly
when its value is from 1 to 13. -/
theorem opcodeMap_words : Obligations.OpcodeMap :=
  ⟨⟨decode_encode .isprime, decode_encode .nextprime, decode_encode .rndprime, decode_encode .rndprimer,
    decode_encode .genpq, decode_encode .geng, decode_encode .verifyg, decode_encode .genpg, decode_encode .powmod,
    decode_encode .sieve, decode_encode .mrwit, decode_encode .seedq, decode_encode .seedp⟩, exists_decode_iff⟩

/-- Settles O3: ZERO is looked at first, then OPCODE. -/
theorem illegalWordsNamed : Obligations.IllegalWordsNamed := fun _ =>
  ⟨decode_zeroFieldSet, fun hz ho => decode_unassigned hz (opcodeMap_eq_none_iff.mpr ho)⟩

/-! ### Byte lanes -/

/-- Concatenation as a sum. -/
theorem toNat_append_eq_add {m n : Nat} (a : BitVec m) (b : BitVec n) : (a ++ b).toNat = b.toNat + 2 ^ n * a.toNat := by
  rw [BitVec.toNat_append, ← Nat.shiftLeft_add_eq_or_of_lt b.isLt, Nat.shiftLeft_eq, mul_comm, add_comm]

theorem toNat_wordOfLanes (b0 b1 b2 b3 : Byte) :
    (wordOfLanes b0 b1 b2 b3).toNat = b0.toNat + 2 ^ 8 * (b1.toNat + 2 ^ 8 * (b2.toNat + 2 ^ 8 * b3.toNat)) := by
  simp only [wordOfLanes, toNat_append_eq_add]

/-- Four bytes are the lanes of the word they make, and of no other word (R64). -/
theorem wordOfLanes_eq_iff {b0 b1 b2 b3 : Byte} {w : Word} :
    wordOfLanes b0 b1 b2 b3 = w ↔
      b0 = w.extractLsb' 0 8 ∧ b1 = w.extractLsb' 8 8 ∧ b2 = w.extractLsb' 16 8 ∧ b3 = w.extractLsb' 24 8 := by
  simp only [← BitVec.toNat_inj, toNat_wordOfLanes, BitVec.extractLsb'_toNat, Nat.shiftRight_eq_div_pow]
  omega

theorem decode_eq_ok_iff {w : Word} {i : Instr} : decode w = .ok i ↔ w = encode i :=
  ⟨decode_ok, by rintro rfl; exact decode_encode i⟩

/-- A command at the front of a byte sequence takes four bytes, which make a word that decodes to it. -/
theorem decodeBytes_eq_ok_iff {bytes rest : List Byte} {i : Instr} :
    decodeBytes bytes = .ok (i, rest) ↔
      ∃ b0 b1 b2 b3, bytes = b0 :: b1 :: b2 :: b3 :: rest ∧ decode (wordOfLanes b0 b1 b2 b3) = .ok i := by
  unfold decodeBytes
  split
  · rename_i b0 b1 b2 b3 tail
    cases hd : decode (wordOfLanes b0 b1 b2 b3) with
    | ok j => simp [hd, and_comm]
    | error r => simp [hd]
  · rename_i hshort
    exact iff_of_false (by simp) fun ⟨b0, b1, b2, b3, hb, _⟩ => hshort b0 b1 b2 b3 rest hb

/-- Settles O2: each command's word decodes to it; only its word does; and four bytes make its word exactly when they are
the word's lanes. -/
theorem decodeEncodeAgree : Obligations.DecodeEncodeAgree := by
  refine ⟨fun i _ => ?_, fun w i => decode_ok, fun bytes rest i => ?_⟩
  · obtain ⟨hwf, -, -, hword, htable⟩ := encoding_statement i
    exact ⟨hword, htable, hwf⟩
  · rw [decodeBytes_eq_ok_iff]
    simp only [decode_eq_ok_iff, wordOfLanes_eq_iff]
    constructor
    · rintro ⟨_, _, _, _, rfl, rfl, rfl, rfl, rfl⟩
      rfl
    · exact fun h => ⟨_, _, _, _, h, rfl, rfl, rfl, rfl⟩

/-! ### Words written to CMD -/

theorem commandWrite_legal {w : Word} {i : Instr} (h : decode w = .ok i) (s : State) : commandWrite w s = exec i s := by
  simp only [commandWrite, h]

theorem commandWrite_illegal {w : Word} {r : Reject} (h : decode w = .error r) {s : State} (hb : s.status.busy = false) :
    commandWrite w s = .next (illegalCommand w s) := by
  simp [commandWrite, h, hb]

/-- A whole word placed for the host is written as it is. -/
theorem withFetchWord_word (s : State) (w : Word) : s.withFetchWord 32 w.toNat = s.event (.write 0x008 32 w) := by
  rw [State.withFetchWord, tableWord, Nat.mod_eq_of_lt w.isLt, BitVec.ofNat_toNat, BitVec.setWidth_eq]
  rfl

/-- Settles O4: the word goes to CMD, where a legal word issues its command. -/
theorem stepRunsCommand : Obligations.StepRunsCommand := by
  intro s w i h
  have hstep : step (s.event (.write 0x008 32 w)) = exec i { s with reply := .accepted } :=
    step_commandWrite.trans (commandWrite_legal h _)
  exact ⟨hstep, withFetchWord_word s w ▸ hstep⟩

/-- The illegal words of R105 are rejected. -/
theorem decode_illegal {w : Word} (h : (w.extractLsb' 0 8).toNat = 0 ∨ 0x0E ≤ (w.extractLsb' 0 8).toNat ∨
    w.extractLsb' 8 24 ≠ 0#24) : ∃ r, decode w = .error r := by
  by_cases hz : w.extractLsb' 8 24 = 0#24
  · exact ⟨_, decode_unassigned hz (opcodeMap_eq_none_iff.mpr (by tauto))⟩
  · exact ⟨_, decode_zeroFieldSet hz⟩

/-- Settles O5: an illegal word is rejected, and CMD then takes the outcome IllegalCommand at once. -/
theorem illegalCommandWord : Obligations.IllegalCommandWord := by
  intro s w hb h
  obtain ⟨r, hr⟩ := decode_illegal h
  exact step_commandWrite.trans (commandWrite_illegal hr hb)

end Sys2Proof.Machine
end

section
/-! Loading a register limb by limb (O16). -/

namespace Sys2Proof.Machine

/-! ### The value on the way -/

/-- `r` fits the register, and its limbs below `m` are those of `v`. -/
structure LoadedBelow (c : Config.Width) (v m r : Nat) : Prop where
  fits : r < 2 ^ c.nbits
  limbs : ∀ j, j < m → getLimb r j = getLimb v j

section
variable {c : Config.Width} {v m r : Nat}

theorem loadedBelow_zero (h : r < 2 ^ c.nbits) : LoadedBelow c v 0 r := ⟨h, fun _ hj => absurd hj (Nat.not_lt_zero _)⟩

theorem LoadedBelow.succ (h : LoadedBelow c v m r) (hm : m < c.nlimbs) :
    LoadedBelow c v (m + 1) (setLimb r m (getLimb v m)) where
  fits := setLimb_lt _ h.fits hm
  limbs j hj := by
    by_cases hjm : j = m
    · rw [hjm, getLimb_setLimb_same]
    · rw [getLimb_setLimb_other _ _ hjm, h.limbs j (by omega)]

theorem LoadedBelow.eq (h : LoadedBelow c v c.nlimbs r) (hv : v < 2 ^ c.nbits) : r = v :=
  eq_of_getLimb_eq h.fits hv h.limbs
end

/-! ### The writes of `ldx` -/

section setX
variable (s : State) (i : Fin 4)

theorem setX_self : s.setX i (s.x i) = s := by fin_cases i <;> rfl

theorem setX_setX (a b : Nat) : (s.setX i a).setX i b = s.setX i b := by fin_cases i <;> rfl

theorem setX_reply (a : Nat) (r : Reply) : { s.setX i a with reply := r } = { s with reply := r }.setX i a := by
  fin_cases i <;> rfl

theorem setX_event (a : Nat) (e : Event) : (s.event e).setX i a = (s.setX i a).event e := by fin_cases i <;> rfl
end setX

/-- The events of `ldx` from limb `m` on (R111). -/
theorem scriptLdx_drop {n m : Nat} (i : Fin 4) (v : Nat) (hm : m < n) :
    (scriptLdx n i v).drop m = .write (limbOffset i.val m) 32 (getLimb v m) :: (scriptLdx n i v).drop (m + 1) := by
  rw [List.drop_eq_getElem_cons (by simpa [scriptLdx] using hm)]
  simp [scriptLdx]

/-- `s` after some of the writes of `ldx`: `x[i]` holds `r`, and the writes from limb `m` on are next. -/
def loading (s : State) (i : Fin 4) (v m r : Nat) (reply : Reply) : State :=
  { s with reply := reply, script := (scriptLdx s.nlimbs i v).drop m ++ s.script }.setX i r

variable {s : State} {i : Fin 4} {v m r : Nat}

/-- The write of limb `m` is the next event. -/
theorem loading_eq_event (a : Reply) (hm : m < s.nlimbs) :
    loading s i v m r a = (loading s i v (m + 1) r a).event (.write (limbOffset i.val m) 32 (getLimb v m)) := by
  rw [loading, scriptLdx_drop i v hm, List.cons_append, loading, ← setX_event]
  rfl

/-- The write of limb `m` in `ldx`. -/
theorem step_ldx (hb : s.status.busy = false) (a : Reply) (hm : m < s.nlimbs) :
    step (loading s i v m r a) = .next (loading s i v (m + 1) (setLimb r m (getLimb v m)) .accepted) := by
  have hx : (loading s i v (m + 1) r a).x i = r := x_setX_same ..
  have hidle : (loading s i v (m + 1) r a).status.busy = false := by rw [loading, setX_status, hb]
  have hm' : m < (loading s i v (m + 1) r a).nlimbs := by rwa [State.nlimbs, loading, setX_width]
  rw [loading_eq_event a hm, step_limbWrite hidle i hm', hx, loading, setX_setX, setX_reply]
  rfl

/-- The writes of `ldx` from limb `m` on, one a step, when those below it are done (R111). -/
theorem run_ldx (hb : s.status.busy = false) (hv : v < 2 ^ s.nbits) (k : Nat) :
    ∀ m r, m + k = s.nlimbs → LoadedBelow s.width v m r →
      Host.Core.run Sys2Proof.core k (loading s i v m r .accepted) = .next { s.setX i v with reply := .accepted } := by
  induction k with
  | zero =>
    intro m r hm hr
    obtain rfl : m = s.nlimbs := hm
    rw [run_core_zero, hr.eq hv, setX_reply, loading, List.drop_of_length_le (by simp [scriptLdx]), List.nil_append]
  | succ k ih =>
    intro m r hm hr
    have hlt : m < s.nlimbs := by omega
    rw [run_core_succ k (step_ldx hb .accepted hlt)]
    exact ih (m + 1) _ (by omega) (hr.succ hlt)

/-- Settles O16: each write loads one limb more, and the value with all limbs of v is v. -/
theorem loadRegister : Obligations.LoadRegister := by
  intro s i v hs hb hv
  have hstart : { s with script := scriptLdx s.nlimbs i v ++ s.script } = loading s i v 0 (s.x i) s.reply :=
    (setX_self _ i).symm
  have hpos : 0 < s.nlimbs := by have := s.width_facts; omega
  obtain ⟨k, hk⟩ := Nat.exists_eq_add_one.mpr hpos
  rw [hstart, hk, run_core_succ k (step_ldx hb s.reply hpos)]
  exact run_ldx hb hv k 1 _ (by omega) ((loadedBelow_zero (hs.fits i)).succ hpos)

end Sys2Proof.Machine
end

section
/-! The results of the commands fit their registers (R129, O31), and POWMOD (O41). -/

namespace Sys2Proof.Machine

/-- Settles O31: a command whose operands fit keeps its results in range, as `bodyOf_bounded` says for each command. -/
theorem resultsFit : Obligations.ResultsFit := by
  intro i s p q r v hfits hrun hv
  obtain ⟨h0, h1, h2, h3⟩ := (bodyOf_bounded i s fun k _ => hfits k).gives p r q hrun
  rcases hv with hv | hv | hv | hv
  · exact h0 v hv
  · exact h1 v hv
  · exact h2 v hv
  · exact h3 v hv

/-- POWMOD refuses the modulus 0 (R128). -/
theorem bodyPowmod_zero {s : State} (h : s.x 0 = 0) : bodyOf .powmod s = raise .invalidParameters 8#32 := if_pos h

/-- POWMOD delivers the power of R124 for every other modulus (R128). -/
theorem bodyPowmod_pos {s : State} (h : s.x 0 ≠ 0) :
    bodyOf .powmod s = pure { x3 := some (s.x 2 ^ s.x 1 % s.x 0) } := by
  rw [← powMod_eq (Nat.pos_of_ne_zero h)]
  exact if_neg h

/-- Settles O41: the check of the modulus, then the reference loop, which computes the power; no port is used. -/
theorem powmod : Obligations.Powmod := by
  intro s hs
  refine ⟨fun h0 => exec_of_check hs (bodyPowmod_zero h0), fun h0 => ?_⟩
  rw [exec_of_runs hs (List.nil_append _).symm (Nat.zero_add _).symm (bodyPowmod_pos h0 ▸ runs_pure _)]
  simp only [writeResults, resultReg_some, resultReg_none]
  rfl

end Sys2Proof.Machine
end

section
/-! The primality engine (41_primality.md): SIEVE (O42), MRWIT (O43), ISPRIME (O44, O46), NEXTPRIME (O47). -/

namespace Sys2Proof.Machine

variable {n rounds : Nat}

/-! ### Commands whose result is no register -/

/-- A result of flags alone writes no register. -/
theorem writeResults_flags (res undec : Bool) (t : State) : writeResults { res := res, undec := undec } t = t := by
  simp only [writeResults, resultReg_none]

/-- A ready command that sends no request and delivers flags alone ends with them. -/
theorem exec_of_flags {i : Instr} {s : State} {res undec : Bool} (hs : s.ready)
    (hbody : bodyOf i s = pure { res := res, undec := undec }) :
    exec i s = .next (s.ended (encode i) res undec [] s.randIn s.hashIn) := by
  rw [exec_of_runs hs (List.nil_append _).symm (Nat.zero_add _).symm (hbody ▸ runs_pure _), writeResults_flags]

/-! ### The table and SIEVE -/

/-- The table holds the primes not above 997 (R40). -/
theorem mem_table_iff_le : n ∈ smallPrimeTable ↔ n.Prime ∧ n ≤ 997 :=
  mem_table_iff.trans (and_congr_right prime_lt_thousand_iff)

theorem tableDecides_of_mem (h : n ∈ smallPrimeTable) : TableDecides n := .inr ⟨n, h, dvd_rfl⟩

/-- What the table leaves open: the numbers without a prime factor not above 997 (R140). -/
theorem not_tableDecides_iff : ¬TableDecides n ↔ 2 ≤ n ∧ ∀ p, p.Prime → p ≤ 997 → ¬p ∣ n := by
  simp only [TableDecides, mem_table_iff_le, not_or, not_lt, not_exists, not_and, and_imp]

/-- The table decides a prime only by holding it. -/
theorem mem_table_of_tableDecides (hp : n.Prime) (h : TableDecides n) : n ∈ smallPrimeTable := by
  obtain hlt | ⟨t, ht, hdvd⟩ := h
  · exact absurd hp.two_le (Nat.not_le_of_lt hlt)
  · exact (Nat.prime_dvd_prime_iff_eq (table_prime ht) hp).mp hdvd ▸ ht

theorem sieve_eq_prime_iff : sieve n = .prime ↔ n ∈ smallPrimeTable := by
  by_cases hd : TableDecides n
  · rw [(sieve_spec n).1 hd]
    split <;> simp [*]
  · rw [(sieve_spec n).2 hd]
    simpa using mt tableDecides_of_mem hd

theorem sieve_eq_undecided_iff : sieve n = .undecided ↔ ¬TableDecides n := by
  by_cases hd : TableDecides n
  · rw [(sieve_spec n).1 hd]
    split <;> simp [hd]
  · simp [(sieve_spec n).2 hd, hd]

/-- Settles O42: the two flags are two of the sieve's verdicts, which the table's divisors decide. -/
theorem sieve_command : Obligations.Sieve := by
  intro s hs
  refine ⟨sieve (s.x 0) == .prime, sieve (s.x 0) == .undecided, exec_of_flags (i := .sieve) hs rfl, ?_, ?_⟩
  · rw [beq_iff_eq, sieve_eq_prime_iff, mem_table_iff_le]
  · rw [beq_iff_eq, sieve_eq_undecided_iff, not_tableDecides_iff]

/-! ### MRWIT -/

/-- MRWIT refuses an even n and an n below 5 (R147). -/
theorem bodyMrwit_modulus {s : State} (h : s.x 0 % 2 = 0 ∨ s.x 0 < 5) :
    bodyOf .mrwit s = raise .invalidParameters 11#32 := if_pos h

/-- Then it refuses a witness outside [2, n − 2] (R147). -/
theorem bodyMrwit_witness {s : State} (hn : ¬(s.x 0 % 2 = 0 ∨ s.x 0 < 5)) (h : s.x 2 < 2 ∨ s.x 0 < s.x 2 + 2) :
    bodyOf .mrwit s = raise .invalidParameters 12#32 := (if_neg hn).trans (if_pos h)

/-- On the other operands it runs the round (R147). -/
theorem bodyMrwit_round {s : State} (hn : ¬(s.x 0 % 2 = 0 ∨ s.x 0 < 5)) (h : ¬(s.x 2 < 2 ∨ s.x 0 < s.x 2 + 2)) :
    bodyOf .mrwit s = pure { res := mrRound (s.x 0) (decompose (s.x 0)).1 (decompose (s.x 0)).2 (s.x 2) } :=
  (if_neg hn).trans (if_neg h)

/-- Settles O43: the two checks in their order, then the round with the decomposition of n. -/
theorem mrwit : Obligations.Mrwit := by
  intro s hs
  refine ⟨fun h => exec_of_check hs (bodyMrwit_modulus h),
    fun hodd hge h => exec_of_check hs (bodyMrwit_witness (by omega) h),
    fun hodd hge hlo hhi => ⟨_, exec_of_flags hs (bodyMrwit_round (by omega) (by omega)), ?_⟩⟩
  exact mrRound_decompose (by omega) hodd

/-! ### Runs of `is_prime` -/

/-- Where the table decides, the answer is whether it holds n, and nothing is drawn (R140, R148). -/
theorem isPrimeRun_of_tableDecides {b : Bool} (h : TableDecides n) (hb : b = true ↔ n ∈ smallPrimeTable) :
    IsPrimeRun n rounds [] b := by
  rw [show b = decide (n ∈ smallPrimeTable) from Bool.eq_iff_iff.mpr (by rw [hb, decide_eq_true_iff])]
  exact .table h

theorem isPrimeRun_of_mem (h : n ∈ smallPrimeTable) : IsPrimeRun n rounds [] true :=
  isPrimeRun_of_tableDecides (tableDecides_of_mem h) (by simp [h])

/-- A number that is not prime, where the table decides, is not in the table. -/
theorem isPrimeRun_of_not_prime (h : TableDecides n) (hp : ¬n.Prime) : IsPrimeRun n rounds [] false :=
  isPrimeRun_of_tableDecides h (by simpa using mt table_prime hp)

/-- A product of two table entries is called composite by the table (R151 (b)). -/
theorem isPrimeRun_mul {a b : Nat} (ha : a ∈ smallPrimeTable) (hb : b ∈ smallPrimeTable) :
    IsPrimeRun (a * b) rounds [] false :=
  isPrimeRun_of_not_prime (.inr ⟨a, ha, dvd_mul_right a b⟩)
    (Nat.not_prime_mul (table_prime ha).ne_one (table_prime hb).ne_one)

/-- So is an even number above 2, and 0 and 1 (R151 (c)). -/
theorem isPrimeRun_of_even_or_lt_two (h : (n % 2 = 0 ∧ 2 < n) ∨ n < 2) : IsPrimeRun n rounds [] false := by
  obtain ⟨heven, hlt⟩ | hlt := h
  · have hdvd : 2 ∣ n := Nat.dvd_of_mod_eq_zero heven
    exact isPrimeRun_of_not_prime (.inr ⟨2, mem_table_iff_le.mpr ⟨Nat.prime_two, by omega⟩, hdvd⟩)
      (Nat.not_prime_of_dvd_of_lt hdvd le_rfl hlt)
  · exact isPrimeRun_of_not_prime (.inl hlt) fun hp => absurd hp.two_le (Nat.not_le_of_lt hlt)

/-- On a prime every sequence of witnesses passes (R151 (a), (d)). -/
theorem isPrimeRun_of_prime {as : List Nat} (hp : n.Prime) (hlen : as.length = if n ≤ 997 then 0 else rounds)
    (has : ∀ a ∈ as, 2 ≤ a ∧ a ≤ n - 2) : IsPrimeRun n rounds as true := by
  by_cases hle : n ≤ 997
  · rw [if_pos hle, List.length_eq_zero_iff] at hlen
    exact hlen ▸ isPrimeRun_of_mem (mem_table_iff_le.mpr ⟨hp, hle⟩)
  · rw [if_neg hle] at hlen
    refine .pass as (fun hd => hle (mem_table_iff_le.mp (mem_table_of_tableDecides hp hd)).2) hlen fun a ha => ?_
    obtain ⟨hlo, hhi⟩ := has a ha
    exact ⟨hlo, hhi, strongPass_of_prime hp (by omega) (by omega)⟩

/-- With no rounds the table alone decides (R151 (f)). -/
theorem exists_isPrimeRun_zero (n : Nat) :
    ∃ b, IsPrimeRun n 0 [] b ∧ (b = true ↔ n ∈ smallPrimeTable ∨ ¬TableDecides n) := by
  by_cases hd : TableDecides n
  · exact ⟨_, .table hd, by simp [hd]⟩
  · exact ⟨true, .pass [] hd rfl (by simp), by simp [hd]⟩

/-- Enough witnesses in range make a run, which takes the first of them: up to the first that fails, or `rounds` (R149). -/
theorem exists_isPrimeRun {as : List Nat} (hlen : rounds ≤ as.length)
    (has : ∀ a ∈ as.take rounds, 2 ≤ a ∧ a ≤ n - 2) :
    ∃ bs rest b, as = bs ++ rest ∧ bs.length ≤ rounds ∧ IsPrimeRun n rounds bs b := by
  classical
  by_cases hd : TableDecides n
  · exact ⟨[], as, _, rfl, Nat.zero_le _, .table hd⟩
  have htake : (as.take rounds).length = rounds := List.length_take_of_le hlen
  cases hfind : (as.take rounds).find? fun a => !decide (StrongPass n a) with
  | none =>
    have hpass : ∀ a ∈ as.take rounds, StrongPass n a := by simpa [List.find?_eq_none] using hfind
    exact ⟨as.take rounds, as.drop rounds, true, (List.take_append_drop _ _).symm, htake.le,
      .pass _ hd htake fun a ha => ⟨(has a ha).1, (has a ha).2, hpass a ha⟩⟩
  | some a =>
    obtain ⟨hfail, bs, cs, hsplit, hpass⟩ := List.find?_eq_some_iff_append.mp hfind
    rw [hsplit] at has htake
    obtain ⟨hlo, hhi⟩ := has a (by simp)
    have hbs : bs.length < rounds := by rw [← htake]; simp
    refine ⟨bs ++ [a], cs ++ as.drop rounds, false, ?_, by simpa using hbs, .fail bs a hd hbs (fun b hb => ?_) hlo hhi ?_⟩
    · simpa [hsplit] using (List.take_append_drop rounds as).symm
    · obtain ⟨hlo, hhi⟩ := has b (by simp [hb])
      exact ⟨hlo, hhi, by simpa using hpass b hb⟩
    · simpa using hfail

/-! ### ISPRIME -/

/-- ISPRIME ends with the answer of a run of `is_prime` on the ready answers (R149). -/
theorem exec_isprime_of_run {s : State} {as rest : List Nat} {b : Bool} (hs : s.ready) (hr : s.randIn = as ++ rest)
    (h : IsPrimeRun (s.x 0) (s.paramNat .rounds) as b) :
    exec .isprime s = .next (s.ended 0x1#32 b false (witnessRequests (s.x 0) as) rest s.hashIn) := by
  have hrun : Runs Config.hash (bodyOf .isprime s) as 0 (witnessRequests (s.x 0) as) { res := b } :=
    (runs_isPrime h).map
  rw [exec_of_runs hs hr (Nat.zero_add _).symm hrun, writeResults_flags]
  rfl

/-- ISPRIME on a run that draws nothing. -/
theorem exec_isprime_of_undrawn {s : State} {b : Bool} (hs : s.ready)
    (h : IsPrimeRun (s.x 0) (s.paramNat .rounds) [] b) :
    exec .isprime s = .next (s.ended 0x1#32 b false [] s.randIn s.hashIn) :=
  exec_isprime_of_run hs (List.nil_append _).symm h

/-- Settles O44: a run of `is_prime` is ISPRIME's run, and answers enough in range contain one. -/
theorem isprime : Obligations.Isprime := fun _ hs =>
  ⟨fun _ _ _ hr hrun => exec_isprime_of_run hs hr hrun, fun hlen has => exists_isPrimeRun hlen has⟩

/-- Settles O46: each fact names a run of `is_prime`. -/
theorem isprimeFacts : Obligations.IsprimeFacts := by
  intro s hs
  refine ⟨fun hmem => exec_isprime_of_undrawn hs (isPrimeRun_of_mem hmem),
    fun a ha b hb _ hab => exec_isprime_of_undrawn hs (hab ▸ isPrimeRun_mul ha hb),
    fun h => exec_isprime_of_undrawn hs (isPrimeRun_of_even_or_lt_two h),
    fun as rest hp hr hlen has => exec_isprime_of_run hs hr (isPrimeRun_of_prime hp hlen has),
    fun as rest hd hr has => ⟨fun hlen hpass => ?_, ?_⟩, fun h0 => ?_⟩
  · exact exec_isprime_of_run hs hr (.pass as hd hlen fun a ha => ⟨(has a ha).1, (has a ha).2, hpass a ha⟩)
  · rintro bs a rfl hlen hpass hfail
    obtain ⟨hlo, hhi⟩ := has a (by simp)
    refine exec_isprime_of_run hs hr (.fail bs a hd (by simpa using hlen) (fun b hb => ?_) hlo hhi hfail)
    obtain ⟨hlo, hhi⟩ := has b (by simp [hb])
    exact ⟨hlo, hhi, hpass b hb⟩
  · obtain ⟨b, hrun, hb⟩ := exists_isPrimeRun_zero (s.x 0)
    exact ⟨b, exec_isprime_of_undrawn hs (h0 ▸ hrun), hb⟩

/-! ### NEXTPRIME -/

/-- Settles O47: the walk finds what the search finds, and overflows where every candidate of the width fails. -/
theorem nextprime : Obligations.Nextprime := by
  intro s start as rest sent hs hr hstart
  have hodd : start % 2 = 1 ∧ s.x 0 ≤ start := by split at hstart <;> omega
  refine ⟨fun p hrun hp => ⟨?_, hrun.odd.trans hodd.1, hodd.2.trans hrun.le⟩, fun hrun => ?_⟩
  · have hwalk : Runs Config.hash (bodyOf .nextprime s) as 0 sent { x0 := some p } := by
      subst hstart
      exact (runs_nextPrimeWalk hrun hp (by omega)).map
    rw [exec_of_runs hs hr (Nat.zero_add _).symm hwalk]
    simp only [writeResults, resultReg_some, resultReg_none]
    rfl
  · have hwalk : Raises Config.hash (bodyOf .nextprime s) as 0 sent .overflow 0#32 := by
      subst hstart
      exact (raises_nextPrimeWalk hrun (Nat.two_pow_pos _) (by omega)).bind
    exact exec_of_raises hs hr (Nat.zero_add _).symm hwalk

end Sys2Proof.Machine
end

section
/-! The prime generator (42_prime_generator.md): RNDPRIME (O48) and RNDPRIMER (O49). -/

namespace Sys2Proof.Machine

/-- A ready command whose run delivers x[0] alone ends in success with it, and no digest is used. -/
theorem exec_of_x0 {i : Instr} {s : State} {as rest : List Nat} {sent : List Request} {p : Nat} (hs : s.ready)
    (hr : s.randIn = as ++ rest) (hrun : Runs Config.hash (bodyOf i s) as 0 sent { x0 := some p }) :
    exec i s = .next { s.ended (encode i) false false sent rest s.hashIn with x0 := p } := by
  rw [exec_of_runs hs hr (Nat.zero_add _).symm hrun]
  simp only [writeResults, resultReg_some, resultReg_none]

/-! ### RNDPRIME -/

section
variable {bits p : Nat} {as : List Nat} {sent : List Request}

/-- 1 is the only value of one bit, and it is not searched for (R172). -/
theorem RandomPrimeRun.of_one (h : RandomPrimeRun 1 as sent p) : p = 1 := by
  cases h with
  | one => rfl
  | search _ _ _ _ _ hb => omega

/-- 3 is the only odd value of two bits. -/
theorem RandomPrimeRun.of_two (h : RandomPrimeRun 2 as sent p) : p = 3 := by
  have := h.spec le_rfl
  omega

/-- The result of `random_prime` passed its test with the last draws of the run (R173). -/
theorem RandomPrimeRun.passed (h : RandomPrimeRun bits as sent p) (hb : 2 ≤ bits) :
    ∃ bs, bs <:+ as ∧ IsPrimeRun p Config.GEN_ROUNDS bs true := by
  cases h with
  | one h => omega
  | search v d as sent p _ hv _ hs =>
    obtain ⟨k, hk, hc⟩ := mkcand_oddOf hb hv
    rw [nextOfBits_eq] at hs
    obtain ⟨-, bs, hsuffix, hpass⟩ := hs.bits_spec hb hc hk
    exact ⟨bs, (hsuffix.trans (List.suffix_cons d as)).trans (List.suffix_cons v _), hpass⟩

end

/-- RNDPRIME refuses BITS = 0 (R173). -/
theorem bodyRndprime_zero {s : State} (h : s.paramNat .bits = 0) :
    bodyOf .rndprime s = raise .invalidParameters 6#32 := if_pos h

/-- RNDPRIME refuses more bits than a register holds (R173). -/
theorem bodyRndprime_wide {s : State} (h : s.nbits < s.paramNat .bits) :
    bodyOf .rndprime s = raise .invalidParameters 7#32 := (if_neg (by omega)).trans (if_pos h)

/-- RNDPRIME delivers `random_prime(BITS)` for every other BITS (R173). -/
theorem bodyRndprime_search {s : State} (hpos : 1 ≤ s.paramNat .bits) (hle : s.paramNat .bits ≤ s.nbits) :
    bodyOf .rndprime s = randomPrime (s.paramNat .bits) >>= fun p => pure { x0 := some p } :=
  (if_neg (by omega)).trans (if_neg (by omega))

/-- Settles O48: the two checks of BITS, then `random_prime`, whose walk stays among the odd numbers of BITS bits. -/
theorem rndprime : Obligations.Rndprime := by
  intro s hs
  refine ⟨fun h => exec_of_check hs (bodyRndprime_zero h), fun h => exec_of_check hs (bodyRndprime_wide h),
    fun as rest sent p hpos hle hr hrun => ⟨exec_of_x0 hs hr ?_, fun h => ?_, fun h => ?_, fun hb => ?_⟩⟩
  · exact bodyRndprime_search hpos hle ▸ (runs_randomPrime hrun).map
  · exact RandomPrimeRun.of_one (h ▸ hrun)
  · exact RandomPrimeRun.of_two (h ▸ hrun)
  · obtain ⟨hodd, hlo, hhi⟩ := hrun.spec hb
    exact ⟨hodd, (bitlen_eq_iff hpos).mpr ⟨hlo.le, hhi⟩, hrun.passed hb⟩

/-! ### RNDPRIMER -/

/-- The three short circuits of `random_prime_range` (R180). -/
theorem rangeShortCircuit_iff {min max : Nat} :
    rangeShortCircuit min max = true ↔ max < min ∨ max < 2 ∨ (max = min ∧ max % 2 = 0) := by
  simp [rangeShortCircuit, or_assoc]

/-- The step of R182, with the direction as it is drawn: 1 is up. -/
theorem stepRange_of_draw (mn mx d : Nat) :
    (fun cand => if d = 1 then (if cand + 2 > mx then mn else cand + 2)
      else if cand < mn + 2 then mx else if cand - 2 = 1 then mx else cand - 2) =
    fun cand => stepRange cand (d == 1) mn mx := by
  funext cand
  unfold stepRange
  by_cases h : d = 1 <;> simp [h]

/-- A step up or down does not go below the lower bound (R182). -/
theorem le_stepRange {cand mn mx : Nat} {up : Bool} (hm : mn ≤ mx) (hc : mn ≤ cand) :
    mn ≤ stepRange cand up mn mx := by
  unfold stepRange
  split
  · split <;> omega
  · split
    · exact hm
    · split <;> omega

/-- The search of `random_prime_range(min, max)` after its two draws `u` and `d`: between the normalised bounds, from the
first candidate, with half their distance as the budget (R181, R183). -/
def RangeSearchRun (min max u d : Nat) (as : List Nat) (sent : List Request) (r : Option Nat) : Prop :=
  RangeRun (fun cand => stepRange cand (d == 1) (normMin min) (normMax max))
    ((normMax max - normMin min) / 2) ((normMin min + 2 * u) ||| 1) as sent r

section
variable {o : Oracle} {min max u d p : Nat} {as : List Nat} {sent : List Request}

/-- A short circuit gives 2 with no draw (R180). -/
theorem runs_randomPrimeRange_short (h : rangeShortCircuit min max = true) :
    Runs o (randomPrimeRange min max) [] 0 [] 2 := by
  rw [randomPrimeRange, if_pos h]
  exact runs_pure 2

/-- With no short circuit: the first candidate, the direction, the search (R181, R183). -/
theorem randomPrimeRange_search (h : rangeShortCircuit min max = false) :
    randomPrimeRange min max =
      whileAnswered (rangeCandidate (normMin min) (normMax max) ((normMax max - normMin min) / 2)) >>= fun cand =>
        randDirection >>= fun up =>
          rangeSearch up (normMin min) (normMax max) ((normMax max - normMin min) / 2) cand := if_neg (by simp [h])

variable (h : rangeShortCircuit min max = false) (hu : u ≤ (normMax max - normMin min) / 2)
include h hu

/-- The result of the search lies between the normalised bounds (R181, R182). -/
theorem rangeSearchRun_between (hrun : RangeSearchRun min max u d as sent (some p)) :
    normMin min ≤ p ∧ p ≤ normMax max := by
  obtain ⟨hle, hodd, -⟩ := norm_facts h
  have hstart : normMin min ≤ (normMin min + 2 * u) ||| 1 := (Nat.le_add_right _ _).trans Nat.left_le_or
  exact RangeRun.between (fun _ hlo hhi => ⟨le_stepRange hle hlo, stepRange_le hle hhi⟩) hrun hstart
    (candidate_le hle hodd hu) p rfl

variable (hd : d < 2)
include hd

/-- `random_prime_range` draws the first candidate and the direction, then finds what the search finds (R183). -/
theorem runs_randomPrimeRange (hrun : RangeSearchRun min max u d as sent (some p)) :
    Runs o (randomPrimeRange min max) (u :: d :: as) 0
      (.randRange 0 ((normMax max - normMin min) / 2) :: .randBits 1 :: sent) p := by
  obtain ⟨hle, hodd, -⟩ := norm_facts h
  rw [randomPrimeRange_search h]
  exact (runs_rangeCandidate hle hodd hu).bind (h2 := 0) ((runs_randDirection hd).bind (h2 := 0)
    (rangeSearch_run hrun fun _ => rfl))

/-- `random_prime_range` raises ResourceExhausted when the search spends its budget (R183). -/
theorem raises_randomPrimeRange (hrun : RangeSearchRun min max u d as sent none) :
    Raises o (randomPrimeRange min max) (u :: d :: as) 0
      (.randRange 0 ((normMax max - normMin min) / 2) :: .randBits 1 :: sent) .resourceExhausted 0#32 := by
  obtain ⟨hle, hodd, -⟩ := norm_facts h
  rw [randomPrimeRange_search h]
  exact (runs_rangeCandidate hle hodd hu).bind_raises (h2 := 0) ((runs_randDirection hd).bind_raises (h2 := 0)
    (rangeSearch_run hrun fun _ => rfl))

end

/-- Settles O49: the short circuits, then the two draws and the search, which stays between the bounds. -/
theorem rndprimer : Obligations.Rndprimer := by
  intro s hs
  refine ⟨fun hshort => exec_of_x0 hs (List.nil_append _).symm
    (runs_randomPrimeRange_short (rangeShortCircuit_iff.mpr hshort)).map, ?_⟩
  intro mn mx c u d as rest sent r hle htwo hsame hmx hmn hc hu hd hr hrun
  have hsearch : rangeShortCircuit (s.x 1) (s.x 2) = false := by
    rw [← Bool.not_eq_true, rangeShortCircuit_iff]
    omega
  obtain rfl : mx = normMax (s.x 2) := hmx
  obtain rfl : mn = normMin (s.x 1) := hmn
  subst hc
  rw [stepRange_of_draw] at hrun
  refine ⟨?_, ?_⟩
  · rintro p rfl
    obtain ⟨hlo, hhi⟩ := rangeSearchRun_between hsearch hu hrun
    exact ⟨exec_of_x0 hs hr (runs_randomPrimeRange hsearch hu hd hrun).map, hlo, hhi, hrun.passed p rfl⟩
  · rintro rfl
    exact exec_of_raises (i := .rndprimer) hs hr (Nat.zero_add _).symm
      (raises_randomPrimeRange hsearch hu hd hrun).bind

end Sys2Proof.Machine
end

section
/-! The derivations from a seed (43_domain_parameters.md): what they give, with the conversions they rest on (O58), SEEDQ
(O56) and SEEDP (O57). -/

namespace Sys2Proof.Machine

/-! ### The derived values -/

section
variable {o : Oracle} {seed S offset N L p q : Nat}

theorem OddBits.bitlen_eq {bits v : Nat} (h : OddBits bits v) (hb : 1 ≤ bits) : bitlen v = bits := by
  obtain ⟨-, hlo, hhi⟩ := h
  exact (bitlen_eq_iff hb).mpr ⟨hlo.le, hhi⟩

/-- q of a seed is odd and has exactly N bits (R204). -/
theorem qOfSeed_oddBits (hN : 2 ≤ N) : OddBits N (qOfSeed o seed S N) := qOfHash_bounds hN

/-- p of a seed is below 2^L, odd, and 1 more than a multiple of q (R206). -/
theorem pOfSeed_candidate (hL : 2 ≤ L) : CandidateOf L q (pOfSeed o seed S offset L q) := by
  obtain ⟨hlt, -, hodd, hdvd⟩ := pOfStream_facts (q := q) hL (streamValue_lt o (by omega))
  exact ⟨hodd, hlt, hdvd⟩

/-- p of a seed is 1 modulo 2q (R206). -/
theorem pOfSeed_mod (hL : 2 ≤ L) (hq : 1 ≤ q) : pOfSeed o seed S offset L q % (2 * q) = 1 := by
  obtain ⟨-, hmod, -⟩ := pOfStream_facts (q := q) hL (streamValue_lt o (seed := seed) (S := S) (offset := offset) (by omega))
  exact hmod.trans (Nat.mod_eq_of_lt (by omega))

/-- n + 1 digests are the fewest that have L bits (R200). -/
theorem lastDigest_bounds (hL : 1 ≤ L) : lastDigest L * 256 < L ∧ L ≤ (lastDigest L + 1) * 256 := by
  unfold lastDigest Config.OUTLEN
  omega

end

/-- The bit length of R5, for every k: no positive v has length 0. -/
theorem bitlen_eq_iff_of_pos {v k : Nat} (hv : 0 < v) : bitlen v = k ↔ 2 ^ (k - 1) ≤ v ∧ v < 2 ^ k := by
  cases k with
  | zero =>
    have hlen : 0 < bitlen v := lt_bitlen_iff.mpr (by rwa [pow_zero])
    exact iff_of_false hlen.ne' (by rw [pow_zero]; omega)
  | succ k => exact bitlen_eq_iff (Nat.succ_pos k)

/-- Settles O58: the laws of the derivations and of the byte conversions, side by side. -/
theorem derivedValues : Obligations.DerivedValues := by
  refine ⟨fun o seed S offset N L q hN hL hq => ?_, fun v len => ⟨i2be_length v len, fun k hk => i2be_getD v hk, be2i_i2be⟩,
    be2i_eq_sum, fun o v S left => ?_, rfl, fun v k hv => bitlen_eq_iff_of_pos hv⟩
  · have hodd : OddBits N (qOfSeed o seed S N) := qOfSeed_oddBits hN
    obtain ⟨-, hlt, -⟩ := pOfSeed_candidate (o := o) (seed := seed) (S := S) (offset := offset) (q := q) hL
    obtain ⟨hlast, hnext⟩ := lastDigest_bounds (L := L) (by omega)
    exact ⟨hodd.1, hodd.bitlen_eq (by omega), hlt, pOfSeed_mod hL hq, (streamN_eq (by omega)).symm, hlast, hnext⟩
  · have hrun := runs_hashInt o v S ⟨o, [], left, [], 0, []⟩ rfl
    rw [hashMessage_eq] at hrun
    simpa [Ports.feed, Ports.take, seedBytes, Nat.add_comm] using hrun

/-! ### SEEDQ -/

section
variable {s : State}

/-- SEEDQ refuses a seed length of 0 and one above the register width (R205). -/
theorem bodySeedq_seedbits (h : s.paramNat .seedbits = 0 ∨ s.nbits < s.paramNat .seedbits) :
    bodyOf .seedq s = raise .invalidParameters 13#32 := if_pos h

variable (hS : ¬(s.paramNat .seedbits = 0 ∨ s.nbits < s.paramNat .seedbits))
include hS

/-- Then it refuses a seed of more than SEEDBITS bits (R205). -/
theorem bodySeedq_seed (h : 2 ^ s.paramNat .seedbits ≤ s.x 3) :
    bodyOf .seedq s = raise .invalidParameters 14#32 := (if_neg hS).trans (if_pos h)

variable (hx : ¬2 ^ s.paramNat .seedbits ≤ s.x 3)
include hx

/-- Then it refuses a length of q below 2 and one above the register width (R205). -/
theorem bodySeedq_qbits (h : s.paramNat .qbits < 2 ∨ s.nbits < s.paramNat .qbits) :
    bodyOf .seedq s = raise .invalidParameters 15#32 := (if_neg hS).trans ((if_neg hx).trans (if_pos h))

/-- On the other operands it derives q (R205). -/
theorem bodySeedq_derive (hN : ¬(s.paramNat .qbits < 2 ∨ s.nbits < s.paramNat .qbits)) :
    bodyOf .seedq s =
      deriveQ (s.x 3) (s.paramNat .seedbits) (s.paramNat .qbits) >>= fun q => pure { x1 := some q } :=
  (if_neg hS).trans ((if_neg hx).trans (if_neg hN))

end

/-- Settles O56: the three checks in their order, then `derive_q`, which takes one digest. -/
theorem seedq : Obligations.Seedq := by
  intro s hs
  refine ⟨fun hS => exec_of_check hs (bodySeedq_seedbits hS), fun hlo hhi => ?_⟩
  have hS : ¬(s.paramNat .seedbits = 0 ∨ s.nbits < s.paramNat .seedbits) := by omega
  refine ⟨fun hx => exec_of_check hs (bodySeedq_seed hS hx), fun hlt => ?_⟩
  have hx : ¬2 ^ s.paramNat .seedbits ≤ s.x 3 := Nat.not_le_of_lt hlt
  refine ⟨fun hN => exec_of_check hs (bodySeedq_qbits hS hx hN), fun left hNlo hNhi hh => ?_⟩
  have hderive := bodySeedq_derive hS hx (by omega)
  rw [exec_of_runs hs (List.nil_append _).symm hh (hderive ▸ (runs_deriveQ _ _ _ _).map)]
  simp only [writeResults, resultReg_some, resultReg_none]
  rfl

/-! ### SEEDP -/

section
variable {s : State}

/-- SEEDP refuses a seed length of 0 and one above the register width (R207). -/
theorem bodySeedp_seedbits (h : s.paramNat .seedbits = 0 ∨ s.nbits < s.paramNat .seedbits) :
    bodyOf .seedp s = raise .invalidParameters 13#32 := if_pos h

variable (hS : ¬(s.paramNat .seedbits = 0 ∨ s.nbits < s.paramNat .seedbits))
include hS

/-- Then it refuses a seed of more than SEEDBITS bits (R207). -/
theorem bodySeedp_seed (h : 2 ^ s.paramNat .seedbits ≤ s.x 3) :
    bodyOf .seedp s = raise .invalidParameters 14#32 := (if_neg hS).trans (if_pos h)

variable (hx : ¬2 ^ s.paramNat .seedbits ≤ s.x 3)
include hx

/-- Then it refuses a length of p below 2 and one above the register width (R207). -/
theorem bodySeedp_bits (h : s.paramNat .bits < 2 ∨ s.nbits < s.paramNat .bits) :
    bodyOf .seedp s = raise .invalidParameters 16#32 := (if_neg hS).trans ((if_neg hx).trans (if_pos h))

variable (hL : ¬(s.paramNat .bits < 2 ∨ s.nbits < s.paramNat .bits))
include hL

/-- Then it refuses q = 0 (R207). -/
theorem bodySeedp_zero (h : s.x 1 = 0) : bodyOf .seedp s = raise .invalidParameters 17#32 :=
  (if_neg hS).trans ((if_neg hx).trans ((if_neg hL).trans (if_pos h)))

/-- On the other operands it derives the candidate p (R207). -/
theorem bodySeedp_derive (hq : s.x 1 ≠ 0) :
    bodyOf .seedp s =
      deriveP (s.x 3) (s.paramNat .seedbits) (s.paramNat .offset) (s.paramNat .bits) (s.x 1) >>= fun pok =>
        pure { x0 := some pok.1, res := pok.2 } :=
  (if_neg hS).trans ((if_neg hx).trans ((if_neg hL).trans (if_neg hq)))

end

/-- Settles O57: the four checks in their order, then `derive_p`, which takes n + 1 digests. -/
theorem seedp : Obligations.Seedp := by
  intro s hs
  refine ⟨fun hS => exec_of_check hs (bodySeedp_seedbits hS), fun hlo hhi => ?_⟩
  have hS : ¬(s.paramNat .seedbits = 0 ∨ s.nbits < s.paramNat .seedbits) := by omega
  refine ⟨fun hx => exec_of_check hs (bodySeedp_seed hS hx), fun hlt => ?_⟩
  have hx : ¬2 ^ s.paramNat .seedbits ≤ s.x 3 := Nat.not_le_of_lt hlt
  refine ⟨fun hL => exec_of_check hs (bodySeedp_bits hS hx hL), fun hLlo hLhi => ?_⟩
  have hL : ¬(s.paramNat .bits < 2 ∨ s.nbits < s.paramNat .bits) := by omega
  refine ⟨fun hq => exec_of_check hs (bodySeedp_zero hS hx hL hq), ?_⟩
  rintro left p hq hh rfl
  have hderive := bodySeedp_derive hS hx hL hq
  rw [exec_of_runs hs (List.nil_append _).symm hh (hderive ▸ (runs_deriveP (by omega)).map)]
  simp only [writeResults, resultReg_some, resultReg_none]
  rfl

end Sys2Proof.Machine
end

section
/-! GENPQ (R213): its checks and its start (O50), a run of its search (O51), and its outcome on all accepted operands
(O52). -/

namespace Sys2Proof.Machine

/-! ### The checks -/

section
variable {s : State}

/-- GENPQ refuses a pair (BITS, QBITS) that R211 does not list. -/
theorem bodyGenpq_pair (h : (s.paramNat .bits, s.paramNat .qbits) ∉ Config.PQ_PAIRS) :
    bodyOf .genpq s = raise .invalidParameters 1#32 := if_pos h

variable (hpair : (s.paramNat .bits, s.paramNat .qbits) ∈ Config.PQ_PAIRS)
include hpair

/-- Then it refuses a seed shorter than q (R212). -/
theorem bodyGenpq_short (h : s.paramNat .seedbits < s.paramNat .qbits) :
    bodyOf .genpq s = raise .invalidParameters 2#32 := (if_neg (not_not.mpr hpair)).trans (if_pos h)

/-- Then it refuses a seed that does not fit a register (R212); such a seed is not shorter than q. -/
theorem bodyGenpq_wide (h : s.nbits < s.paramNat .seedbits) :
    bodyOf .genpq s = raise .invalidParameters 3#32 := by
  obtain ⟨-, -, -, hN⟩ := pq_facts (w := s.width) hpair
  have hN : s.paramNat .qbits ≤ s.nbits := hN
  exact (if_neg (not_not.mpr hpair)).trans ((if_neg (by omega)).trans (if_pos h))

/-- On the other operands it runs its search (R213). -/
theorem bodyGenpq_search (hlo : s.paramNat .qbits ≤ s.paramNat .seedbits) (hhi : s.paramNat .seedbits ≤ s.nbits) :
    bodyOf .genpq s =
      whileAnswered (genpqOuter (s.paramNat .bits) (s.paramNat .qbits) (s.paramNat .seedbits)) >>= fun pq =>
        pure { x0 := some pq.1, x1 := some pq.2 } :=
  (if_neg (not_not.mpr hpair)).trans ((if_neg (by omega)).trans (if_neg (by omega)))

end

/-! ### The start -/

section
variable {α : Type} {o : Oracle}

/-- An unbounded loop that waits: the rounds it is allowed are more than the answers it is given. -/
theorem Waits.whileAnswered {loop : Nat → Engine α} {d : List Nat} {h : Nat} {sent : List Request} {r : Request}
    (hl : ∀ fuel, d.length < fuel → Waits o (loop fuel) d h sent r) : Waits o (whileAnswered loop) d h sent r :=
  fun p hp hempty => hl _ (by simp [Ports.feed]) p hp hempty

/-- The search begins with the draw of a seed (R213). -/
theorem waits_genpqOuter (L N S : Nat) : Waits o (whileAnswered (genpqOuter L N S)) [] 0 [] (.randBits S) := by
  refine Waits.whileAnswered fun fuel hf => ?_
  cases fuel with
  | zero => exact absurd hf (Nat.not_lt_zero _)
  | succ fuel => exact (waits_draw rfl).bind

end

/-- Settles O50: the three checks in their order, then the search, which waits for its first seed. -/
theorem genpqStart : Obligations.GenpqStart := by
  intro s hs
  refine ⟨fun h => exec_of_check hs (bodyGenpq_pair h), fun hpair => ⟨fun h => exec_of_check hs (bodyGenpq_short hpair h),
    fun h => exec_of_check hs (bodyGenpq_wide hpair h), fun hlo hhi hr => ?_⟩⟩
  have hwaits : Waits Config.hash (bodyOf .genpq s) [] 0 [] (.randBits (s.paramNat .seedbits)) :=
    bodyGenpq_search hpair hlo hhi ▸ (waits_genpqOuter _ _ _).bind
  exact exec_of_waits (r := .randBits _) hs (rest := []) hr (Nat.zero_add _).symm rfl hwaits

/-! ### A run of the search -/

/-- What R213 says of p and q. -/
def PqShape (L N p q : Nat) : Prop := q % 2 = 1 ∧ bitlen q = N ∧ p % 2 = 1 ∧ bitlen p = L ∧ q ∣ p - 1

/-- A q of N bits and a candidate p of it that is not below 2^(L−1) have this shape (R204, R206). -/
theorem pqShape_of_candidate {L N p q : Nat} (hL : 1 ≤ L) (hN : 1 ≤ N) (hq : OddBits N q) (hp : CandidateOf L q p)
    (hge : 2 ^ (L - 1) ≤ p) : PqShape L N p q := by
  obtain ⟨hodd, hlt, hdvd⟩ := hp
  exact ⟨hq.1, hq.bitlen_eq hN, hodd, (bitlen_eq_iff hL).mpr ⟨hge, hlt⟩, hdvd⟩

theorem OuterRun.shape {o : Oracle} {L N S p q : Nat} {as : List Nat} {sent : List Request} (hL : 2 ≤ L) (hN : 2 ≤ N)
    (h : OuterRun o L N S as sent p q) : PqShape L N p q := by
  obtain ⟨seed, offset, hq, hp, hge⟩ := h.derived
  exact pqShape_of_candidate (by omega) (by omega) (hq ▸ qOfSeed_oddBits hN) (hp ▸ pOfSeed_candidate hL) hge

/-- A success of GENPQ writes p and q (R213). -/
theorem writeResults_pq (p q : Nat) (t : State) :
    writeResults { x0 := some p, x1 := some q } t = { t with x0 := p, x1 := q } := by
  simp only [writeResults, resultReg_some, resultReg_none]

/-- Settles O51: a run of the search is GENPQ's run, and its p and q are derived from one seed. -/
theorem genpqSearch : Obligations.GenpqSearch := by
  intro s o as rest sent p q left hs hpair hlo hhi hrun hr hh
  obtain ⟨hL, -, hN, -⟩ := pq_facts (w := s.width) hpair
  have hbody : Runs o (bodyOf .genpq s) as (hashCount sent) sent { x0 := some p, x1 := some q } :=
    bodyGenpq_search hpair hlo hhi ▸ (Runs.whileAnswered (runs_genpqOuter (by omega) hrun)).map
  refine ⟨?_, hrun.shape hL hN, ?_⟩
  · simpa [Ports.feed, Ports.take] using hbody ⟨o, rest, left, [], 0, []⟩ rfl
  · rintro rfl
    rw [exec_of_runs hs hr hh hbody, writeResults_pq]
    rfl

/-! ### Every accepted start -/

/-- The ports as they are when a command is issued: nothing taken, nothing sent, the ready answers in front (R36). -/
def State.startPorts (s : State) : Ports := ⟨Config.hash, s.randIn, s.hashIn, [], 0, []⟩

section
variable {i : Instr} {s : State}

/-- A ready command runs its algorithm on these ports (R36). -/
theorem exec_startPorts (hs : s.ready) :
    exec i s = conclude ⟨i, [], 0, none⟩ (startCommand i s) ((bodyOf i s).run s.startPorts) := by
  have hports : enginePorts ⟨i, [], 0, none⟩ (startCommand i s) = s.startPorts := by
    simp [enginePorts, State.startPorts]
  rw [issue_prompt hs, hports]

/-- A ready command whose run gives a result ends in success with it (R263). -/
theorem exec_of_run_ok (hs : s.ready) {r : Result} {q : Ports} (h : (bodyOf i s).run s.startPorts = .ok r q) :
    exec i s = .next (writeResults r (s.ended (encode i) r.res r.undec q.sent.reverse q.rand q.hash)) := by
  rw [exec_startPorts hs, h]
  rfl

/-- A ready command whose run meets a request without an answer is in flight with it (R78). -/
theorem exec_of_run_wait (hs : s.ready) {r : Request} {q : Ports}
    (h : (bodyOf i s).run s.startPorts = .error (.wait r) q) :
    exec i s = .next (s.flying (encode i) ⟨i, q.drawn.reverse, q.digests, some r⟩ q.sent.reverse q.rand q.hash) := by
  rw [exec_startPorts hs, h]
  rfl

end

/-- A part that raises nothing, always ends, and meets no answer out of range gives a result or waits. -/
theorem ok_or_wait {α : Type} {K : Nat → Prop} {Q : α → Prop} {m : Engine α} {p : Ports} (htame : Tame NoError m)
    (hends : Ends m) (hrange : InRange K Q m) (hp : ∀ a ∈ p.rand, K a) :
    (∃ a q, m.run p = .ok a q ∧ Q a) ∨ ∃ r q, m.run p = .error (.wait r) q := by
  obtain ⟨hgood, hgives⟩ := hrange p hp
  cases h : m.run p with
  | ok a q => exact .inl ⟨a, q, rfl, (hgives a q h).1⟩
  | error e q =>
    cases e with
    | raise e info => exact (htame.raises p e info q h).elim
    | wait r => exact .inr ⟨r, q, rfl⟩
    | never => exact absurd h (hends p q)
    | badAnswer r v => exact absurd h (hgood r v q)

/-- Settles O52: the search raises nothing and ends, and the ready answers are in range for its seeds and its witnesses. -/
theorem genpqOutcome : Obligations.GenpqOutcome := by
  intro s hs hpair hlo hhi hrand
  obtain ⟨hL, hLw, hN, hNw⟩ := pq_facts (w := s.width) hpair
  have hlt : s.paramNat .qbits < s.paramNat .bits := by
    simp only [List.mem_cons, List.not_mem_nil, or_false, Prod.mk.injEq] at hpair
    omega
  have hbody := bodyGenpq_search hpair hlo hhi
  have hsearch := ok_or_wait (p := s.startPorts)
    (tame_whileAnswered (genpqOuter_tame _ _ _) fun p f h => genpqOuter_fuel _ _ _ _ _ p h (by omega))
    (ends_genpqOuter _ _ _)
    (inRange_whileAnswered (inRange_genpqOuter (w := s.width) hlo hhi hN hlt fun _ ha => ha)) hrand
  obtain ⟨⟨p, q⟩, ports, hrun, hq, hp, hge, hpassed, hqpassed⟩ | ⟨r, ports, hrun⟩ := hsearch
  · have hok : (bodyOf .genpq s).run s.startPorts = .ok { x0 := some p, x1 := some q } ports := by
      rw [hbody, bind_ok hrun, run_pure]
    refine ⟨_, exec_of_run_ok hs hok, .inl ⟨p, q, ports.sent.reverse, ports.rand, ports.hash, writeResults_pq p q _,
      pqShape_of_candidate (by omega) (by omega) hq hp hge, hpassed, hqpassed⟩⟩
  · have hlast : ports.sent.head? = some r :=
      (bounded_whileAnswered (bounded_genpqOuter (w := s.width) (by omega) hhi hL hLw hN hNw)).waits _ r ports hrun
    exact ⟨_, exec_of_run_wait hs (hbody ▸ bind_error hrun), .inr ⟨_, r, _, _, _, rfl, rfl, rfl, by simpa using hlast⟩⟩

end Sys2Proof.Machine
end

section
/-! The generator g (R220 to R226): GENG (O53), VERIFYG (O54), and the one after the other (O59). -/

namespace Sys2Proof.Machine

/-! ### A loop that never ends -/

section
variable {α β : Type} {o : Oracle}

/-- On exactly these answers the part meets a loop that never ends, having sent these requests (R304). -/
def Loops (o : Oracle) (m : Engine α) (draws : List Nat) (digests : Nat) (sent : List Request) : Prop :=
  ∀ p : Ports, p.oracle = o → m.run (p.feed draws digests) = .error .never (p.take draws digests sent)

theorem loops_never : Loops o (never : Engine α) [] 0 [] := fun p _ => by simp

theorem Loops.bind {m : Engine α} {f : α → Engine β} {d : List Nat} {h : Nat} {sent : List Request}
    (hm : Loops o m d h sent) : Loops o (m >>= f) d h sent := fun p hp => bind_error (hm p hp)

theorem Runs.bind_loops {m : Engine α} {f : α → Engine β} {d1 d2 : List Nat} {h1 h2 : Nat} {s1 s2 : List Request}
    {a : α} (hm : Runs o m d1 h1 s1 a) (hf : Loops o (f a) d2 h2 s2) :
    Loops o (m >>= f) (d1 ++ d2) (h1 + h2) (s1 ++ s2) := fun p hp => by
  rw [← Ports.feed_feed, bind_ok (hm (p.feed d2 h2) hp), Ports.take_feed, hf (p.take d1 h1 s1) hp, Ports.take_take]

end

/-- The engine's move on a command that loops: it is held with the answers it has taken and no request (R304). -/
theorem runEngine_of_loops {u : State} {f : InFlight} {draws rest : List Nat} {k left : Nat} {sent : List Request}
    (hf : u.inFlight = some f) (hr : f.drawn ++ u.randIn = draws ++ rest) (hh : f.digests + u.hashIn = k + left)
    (hloops : Loops Config.hash (bodyOf f.instr u) draws k sent) :
    runEngine (bodyOf f.instr) u = .next (u.withWork ⟨f.instr, draws, k, none⟩ sent rest left) := by
  have hports : enginePorts f u = Ports.feed ⟨Config.hash, rest, left, [], 0, []⟩ draws k := by
    simp [enginePorts, Ports.feed, hr, hh]
  rw [runEngine_inFlight hf, hports, hloops _ rfl, conclude, holdCommand_eq_withWork]
  simp [Ports.take]

/-- A ready command that loops is in flight with no request outstanding, and the engine's next move changes nothing
(R304). -/
theorem exec_of_loops {i : Instr} {s : State} {draws rest : List Nat} {k left : Nat} {sent : List Request} (hs : s.ready)
    (hr : s.randIn = draws ++ rest) (hh : s.hashIn = k + left) (hloops : Loops Config.hash (bodyOf i s) draws k sent) :
    exec i s = .next (s.flying (encode i) ⟨i, draws, k, none⟩ sent rest left) ∧
      step ((s.flying (encode i) ⟨i, draws, k, none⟩ sent rest left).event .engine) =
        .next (s.flying (encode i) ⟨i, draws, k, none⟩ sent rest left) := by
  set t := s.flying (encode i) ⟨i, draws, k, none⟩ sent rest left
  have hbody : bodyOf i t = bodyOf i s :=
    bodyOf_congr i rfl (fun k => by fin_cases k <;> rfl) fun p => by cases p <;> rfl
  constructor
  · calc exec i s = runEngine (bodyOf i) (startCommand i s) := exec_ready hs
      _ = .next t := runEngine_of_loops (startCommand_inFlight i s) (by simpa using hr) (by simpa using hh)
          ((bodyOf_startCommand i s i).symm ▸ hloops)
  · calc step (t.event .engine) = engineMove t := step_event _ _
      _ = runEngine (bodyOf i) t := engineMove_free (f := ⟨i, draws, k, none⟩) rfl rfl
      _ = .next t := runEngine_of_loops (f := ⟨i, draws, k, none⟩) (u := t) rfl rfl rfl (hbody.symm ▸ hloops)

/-! ### GENG -/

section
variable {s : State}

/-- GENG refuses a p below 4 (R221). -/
theorem bodyGeng_small (h : s.x 0 < 4) : bodyOf .geng s = raise .invalidParameters 9#32 := if_pos h

variable (hp : 4 ≤ s.x 0)
include hp

/-- Then it refuses q = 0 (R221). -/
theorem bodyGeng_zero (h : s.x 1 = 0) : bodyOf .geng s = raise .invalidParameters 10#32 :=
  (if_neg (Nat.not_lt_of_le hp)).trans (if_pos h)

/-- On the other operands it delivers `generate_g(p, q)` (R221). -/
theorem bodyGeng_generate (hq : s.x 1 ≠ 0) :
    bodyOf .geng s = generateG (s.x 0) (s.x 1) >>= fun g => pure { x2 := some g } :=
  (if_neg (Nat.not_lt_of_le hp)).trans (if_neg hq)

end

section
variable {p q h d : Nat} (hp : 4 ≤ p) (hlo : 2 ≤ h) (hhi : h ≤ p - 2)
include hp hlo hhi

/-- The walk comes first by some h whose power is not 1, if there is one (R221). -/
theorem exists_first_h {e : Nat} (hex : ∃ g, 2 ≤ g ∧ g ≤ p - 2 ∧ g ^ e % p ≠ 1) :
    ∃ k, (∀ j, j < k → ((nextH p d)^[j] h) ^ e % p = 1) ∧ ((nextH p d)^[k] h) ^ e % p ≠ 1 := by
  obtain ⟨g, glo, ghi, hg⟩ := hex
  obtain ⟨j, rfl⟩ := nextH_reaches (d := d) hp hlo hhi glo ghi
  have hfound : ∃ k, ((nextH p d)^[k] h) ^ e % p ≠ 1 := ⟨j, hg⟩
  exact ⟨Nat.find hfound, fun j hj => not_not.mp (Nat.find_min hfound hj), Nat.find_spec hfound⟩

/-- Where every power is 1, `generate_g` draws h and the direction and then walks for ever (R221). -/
theorem loops_generateG {o : Oracle} (hd : d < 2)
    (hall : ∀ g, 2 ≤ g → g ≤ p - 2 → g ^ ((p - 1) / q) % p = 1) :
    Loops o (generateG p q) [h, d] 0 [.randRange 2 (p - 2), .randBits 1] := by
  have hwalk : generatorWalk p ((p - 1) / q) (d == 1) (p - 3) h = never :=
    generatorWalk_never hp (fun g glo ghi => (powMod_eq (by omega)).trans (hall g glo ghi)) _ h hlo hhi
  refine (runs_randRange hlo hhi).bind_loops (h2 := 0) ((runs_randDirection hd).bind_loops (d2 := []) (h2 := 0) (s2 := []) ?_)
  rw [hwalk]
  exact loops_never

end

/-- Settles O53: the two checks, then the walk, which comes by every h of [2, p − 2] and goes on for ever when all fail. -/
theorem geng : Obligations.Geng := by
  intro s hs
  refine ⟨fun h => exec_of_check hs (bodyGeng_small h), fun hp hq => exec_of_check hs (bodyGeng_zero hp hq), ?_⟩
  intro h d rest hp hq hlo hhi hd hr
  have hbody := bodyGeng_generate hp hq
  refine ⟨fun k hbefore hfound => ?_, exists_first_h hp hlo hhi, fun hall => ?_⟩
  · rw [exec_of_runs (draws := [h, d]) hs hr (Nat.zero_add _).symm
      (hbody ▸ (runs_generateG hp hlo hhi hd hbefore hfound).map)]
    simp only [writeResults, resultReg_some, resultReg_none]
    rfl
  · obtain ⟨hexec, hstep⟩ := exec_of_loops (draws := [h, d]) hs hr (Nat.zero_add _).symm
      (hbody ▸ (loops_generateG hp hlo hhi hd hall).bind)
    exact ⟨_, hexec, hstep, rfl⟩

/-! ### VERIFYG -/

/-- What `verify_g` checks (R225). -/
theorem verifyG_iff {p q g : Nat} : verifyG p q g = true ↔ 2 ≤ g ∧ g < p ∧ g ^ q % p = 1 := by
  unfold verifyG
  split
  · exact iff_of_false Bool.false_ne_true (by omega)
  · rw [decide_eq_true_iff, powMod_eq (by omega)]
    exact ⟨fun h => ⟨by omega, by omega, h⟩, fun h => h.2.2⟩

/-- Settles O54: VERIFYG delivers the answer of `verify_g` and nothing else. -/
theorem verifyg : Obligations.Verifyg := fun _ hs =>
  ⟨_, exec_of_flags (i := .verifyg) hs rfl, verifyG_iff⟩

/-! ### GENG, then VERIFYG -/

/-- A step of the walk stays in [2, p − 2] (R220). -/
theorem stepGenerator_range {p h : Nat} {up : Bool} (hlo : 2 ≤ h) (hhi : h ≤ p - 2) :
    2 ≤ stepGenerator p h up ∧ stepGenerator p h up ≤ p - 2 := by
  unfold stepGenerator
  split <;> split <;> omega

/-- The walk read backwards: its result is the power of an h of [2, p − 2], and not 1 (R220). -/
theorem generatorWalk_inv {p e g : Nat} {up : Bool} (hp : 4 ≤ p) (fuel : Nat) :
    ∀ {h : Nat} {a b : Ports}, 2 ≤ h → h ≤ p - 2 → (generatorWalk p e up fuel h).run a = .ok g b →
      ∃ k, 2 ≤ k ∧ k ≤ p - 2 ∧ g = k ^ e % p ∧ g ≠ 1 := by
  induction fuel with
  | zero => intro h a b _ _ hrun; rw [generatorWalk, run_never] at hrun; cases hrun
  | succ fuel ih =>
    intro h a b hlo hhi hrun
    rw [generatorWalk] at hrun
    split at hrun
    · rename_i hne
      rw [pure_ok_inv hrun]
      exact ⟨h, hlo, hhi, powMod_eq (by omega), hne⟩
    · obtain ⟨hlo', hhi'⟩ := stepGenerator_range hlo hhi
      exact ih hlo' hhi' hrun

/-- `generate_g` read backwards (R220). -/
theorem generateG_inv {p q g : Nat} {a b : Ports} (hp : 4 ≤ p) (hrun : (generateG p q).run a = .ok g b) :
    ∃ k, 2 ≤ k ∧ k ≤ p - 2 ∧ g = k ^ ((p - 1) / q) % p ∧ g ≠ 1 := by
  obtain ⟨h, a₁, hdraw, hrun⟩ := bind_ok_inv hrun
  obtain ⟨up, a₂, -, hrun⟩ := bind_ok_inv hrun
  have hrange := (draw_consumes hdraw).2
  simp only [Bool.and_eq_true, decide_eq_true_eq] at hrange
  exact generatorWalk_inv hp _ hrange.1 hrange.2 hrun

/-- GENG that ends in success has p ≥ 4, has the result of `generate_g` in x[2], and leaves p, q and WIGN as they were and
the machine ready (R221, R263). -/
theorem exec_geng_inv {s t : State} (hs : s.ready) (h : exec .geng s = .next t) (hbusy : t.status.busy = false)
    (herr : t.status.err = false) :
    4 ≤ s.x 0 ∧ (∃ a b, (generateG (s.x 0) (s.x 1)).run a = .ok (t.x 2) b) ∧ t.x 0 = s.x 0 ∧ t.x 1 = s.x 1 ∧
      t.ready ∧ t.status.wign = s.status.wign := by
  rw [exec_startPorts hs] at h
  obtain ⟨r, b, hrun, rfl⟩ | ⟨e, info, b, -, rfl⟩ | ⟨r, b, -, rfl⟩ | ⟨b, -, rfl⟩ := conclude_next h
  · obtain ⟨hp, hrun⟩ := ite_raise_inv hrun
    obtain ⟨-, hrun⟩ := ite_raise_inv hrun
    obtain ⟨g, b', hgen, hpure⟩ := bind_ok_inv hrun
    rw [pure_ok_inv hpure]
    exact ⟨Nat.not_lt.mp hp, ⟨_, _, hgen⟩, rfl, rfl, ⟨rfl, hs.2⟩, rfl⟩
  · cases herr
  · cases hbusy
  · cases hbusy

/-- A power h^((p−1)/q) that is not 1 modulo a prime p is a g that VERIFYG accepts (R221, R225): its q-th power is
h^(p−1). -/
theorem verifyG_generated {p q h g : Nat} (hp : p.Prime) (hq : 1 ≤ q) (hdvd : q ∣ p - 1) (hlo : 2 ≤ h) (hhi : h ≤ p - 2)
    (hg : g = h ^ ((p - 1) / q) % p) (hne : g ≠ 1) : 2 ≤ g ∧ g < p ∧ g ^ q % p = 1 := by
  have : Fact p.Prime := ⟨hp⟩
  have hcast : (h : ZMod p) ≠ 0 := by
    rw [Ne, ZMod.natCast_eq_zero_iff]
    exact Nat.not_dvd_of_pos_of_lt (by omega) (by omega)
  have hpow : g ^ q % p = 1 := by
    calc g ^ q % p = h ^ (p - 1) % p := by rw [hg, ← Nat.pow_mod, ← pow_mul, Nat.div_mul_cancel hdvd]
      _ = 1 := mod_eq_one_of_cast hp.two_le (by push_cast; exact ZMod.pow_card_sub_one_eq_one hcast)
  have hpos : g ≠ 0 := by
    rintro h0
    simp [h0, Nat.ne_of_gt hq] at hpow
  exact ⟨by omega, hg ▸ Nat.mod_lt _ hp.pos, hpow⟩

/-- Settles O59: what GENG delivers is a power that is not 1, and by Fermat its q-th power is 1. -/
theorem gengThenVerifyg : Obligations.GengThenVerifyg := by
  intro s t hs hprime hq hdvd hexec hbusy herr
  obtain ⟨hp, ⟨a, b, hgen⟩, hx0, hx1, ht, hwign⟩ := exec_geng_inv hs hexec hbusy herr
  obtain ⟨h, hlo, hhi, hg, hne⟩ := generateG_inv hp hgen
  obtain ⟨res, hverify, hres⟩ := verifyg t ht
  have haccepts : res = true := by
    rw [hres, hx0, hx1]
    exact verifyG_generated hprime hq hdvd hlo hhi hg hne
  exact ⟨_, hverify, by rw [haccepts, ← hwign]; rfl⟩

end Sys2Proof.Machine
end

section
/-! GENPG (R240 to R245): its two checks, a run of it and the final check (O55), and its g for a prime p (O60). -/

namespace Sys2Proof.Machine

/-! ### The checks -/

section
variable {s : State}

/-- GENPG refuses fewer than 128 bits (R240). -/
theorem bodyGenpg_short (h : s.paramNat .bits < 128) : bodyOf .genpg s = raise .invalidParameters 4#32 := if_pos h

/-- Then it refuses more bits than a register holds (R240); these are not below 128. -/
theorem bodyGenpg_wide (h : s.nbits < s.paramNat .bits) : bodyOf .genpg s = raise .invalidParameters 5#32 := by
  obtain ⟨-, hN, -⟩ := s.width_facts
  have hlo : 128 ≤ s.paramNat .bits := by omega
  exact (if_neg (Nat.not_lt_of_le hlo)).trans (if_pos h)

end

/-! ### The parameters and the final check -/

/-- The construction of p, the drawn base and the walk from it (R241 to R243). -/
def pgParameters (L : Nat) : Engine (PgPrime × Nat) := do
  let c ← whileAnswered (pgSearch L)
  let base ← randRange 2 (c.p - 2)
  let g ← pgWalk c (c.p + 1) base
  pure (c, g)

/-- The final check of p and g, and the result (R244, R245). -/
def pgFinalCheck (p g : Nat) : Engine Result :=
  if powMod g (p - 1) p ≠ 1 then raise .internalConsistency 0#32 else pure { x0 := some p, x2 := some g }

/-- On a BITS in [128, NBITS] GENPG finds p and g and checks them (R245). -/
theorem bodyGenpg_parameters {s : State} (hlo : 128 ≤ s.paramNat .bits) (hhi : s.paramNat .bits ≤ s.nbits) :
    bodyOf .genpg s = pgParameters (s.paramNat .bits) >>= fun cg => pgFinalCheck cg.1.p cg.2 := by
  have hbody : bodyOf .genpg s = (do
      let c ← whileAnswered (pgSearch (s.paramNat .bits))
      let base ← randRange 2 (c.p - 2)
      let g ← pgWalk c (c.p + 1) base
      pgFinalCheck c.p g) := (if_neg (Nat.not_lt_of_le hlo)).trans (if_neg (Nat.not_lt_of_le hhi))
  simp only [hbody, pgParameters, bind_assoc, pure_bind]

theorem runs_pgFinalCheck {o : Oracle} {p g : Nat} (hp : 0 < p) (h : g ^ (p - 1) % p = 1) :
    Runs o (pgFinalCheck p g) [] 0 [] { x0 := some p, x2 := some g } := by
  rw [pgFinalCheck, if_neg (not_not.mpr ((powMod_eq hp).trans h))]
  exact runs_pure _

theorem raises_pgFinalCheck {o : Oracle} {p g : Nat} (hp : 0 < p) (h : g ^ (p - 1) % p ≠ 1) :
    Raises o (pgFinalCheck p g) [] 0 [] .internalConsistency 0#32 := by
  rw [pgFinalCheck, if_pos (by rwa [powMod_eq hp])]
  exact raises_raise _ _

/-! ### A run -/

theorem ConstructionRun.bitlen_eq {L prime1 prime2 shift p : Nat} {as : List Nat} {sent : List Request} (hL : 128 ≤ L)
    (h : ConstructionRun L as sent prime1 prime2 shift p) : bitlen p = L := by
  obtain ⟨hlo, hhi, -⟩ := h.bits hL
  exact (bitlen_eq_iff (by omega)).mpr ⟨hlo.le, hhi⟩

/-- The draws of a construction and a base give its p and the first g from the base that passes the three tests. -/
theorem runs_pgParameters {o : Oracle} {L prime1 prime2 shift p base g : Nat} {as : List Nat} {sent : List Request}
    (hL : 128 ≤ L) (hrun : ConstructionRun L as sent prime1 prime2 shift p) (hlo : 2 ≤ base) (hhi : base ≤ p - 2)
    (hle : base ≤ g) (hbefore : ∀ a, base ≤ a → a < g → ¬ThreeTests prime1 prime2 shift p a)
    (hg : ThreeTests prime1 prime2 shift p g) :
    Runs o (pgParameters L) (as ++ [base]) 0 (sent ++ [.randRange 2 (p - 2)]) (⟨prime1, prime2, shift, p⟩, g) := by
  obtain ⟨-, hpos1, hpos2, -⟩ := hrun.spec hL
  have hwalk : pgWalk ⟨prime1, prime2, shift, p⟩ (p + 1) base = pure g :=
    pgWalk_first (by omega) hpos1 hpos2 hle (by omega) hbefore hg
  refine (Runs.whileAnswered (runs_pgSearch (by omega) hrun)).bind (h2 := 0)
    ((runs_randRange hlo hhi).bind (h2 := 0) (d2 := []) (s2 := []) ?_)
  rw [hwalk]
  exact (runs_pure g).map

/-- Settles O55: the two checks, then a run that finds p and g, and the final check of them. -/
theorem genpg : Obligations.Genpg := by
  intro s hs
  refine ⟨fun h => exec_of_check hs (bodyGenpg_short h), fun h => exec_of_check hs (bodyGenpg_wide h), ?_⟩
  intro as rest sent prime1 prime2 shift p base g hL hN hrun hlo hhi hle hbefore hg hr
  have hpos : 0 < p := by omega
  have hr : s.randIn = (as ++ [base]) ++ rest := by rw [hr, List.append_assoc, List.singleton_append]
  have hfound : Runs Config.hash (pgParameters (s.paramNat .bits)) (as ++ [base]) 0 (sent ++ [.randRange 2 (p - 2)])
      (⟨prime1, prime2, shift, p⟩, g) := runs_pgParameters hL hrun hlo hhi hle hbefore hg
  refine ⟨hrun.bitlen_eq hL, (hrun.bits hL).2.2, fun hone => ?_, fun hne => ?_⟩
  · have hsuccess : Runs Config.hash (bodyOf .genpg s) (as ++ [base]) 0 (sent ++ [.randRange 2 (p - 2)])
        { x0 := some p, x2 := some g } := by
      rw [bodyGenpg_parameters hL hN]
      exact (hfound.bind (runs_pgFinalCheck hpos hone)).eq (List.append_nil _) rfl (List.append_nil _)
    rw [exec_of_runs hs hr (Nat.zero_add _).symm hsuccess]
    simp only [writeResults, resultReg_some, resultReg_none]
    rfl
  · have herror : Raises Config.hash (bodyOf .genpg s) (as ++ [base]) 0 (sent ++ [.randRange 2 (p - 2)])
        .internalConsistency 0#32 := by
      rw [bodyGenpg_parameters hL hN]
      exact (hfound.bind_raises (raises_pgFinalCheck hpos hne)).eq (List.append_nil _) rfl (List.append_nil _)
    exact exec_of_raises hs hr (Nat.zero_add _).symm herror

/-! ### A prime p -/

/-- The prime divisors of p − 1 (R242). -/
theorem prime_divisor_cases {prime1 prime2 shift q : Nat} (h1 : prime1.Prime) (h2 : prime2.Prime) (hq : q.Prime)
    (hdvd : q ∣ prime1 * prime2 * 2 ^ shift) : q = prime1 ∨ q = prime2 ∨ (q = 2 ∧ 1 ≤ shift) := by
  obtain hdvd | hdvd := hq.dvd_mul.mp hdvd
  · obtain hdvd | hdvd := hq.dvd_mul.mp hdvd
    · exact .inl ((Nat.prime_dvd_prime_iff_eq hq h1).mp hdvd)
    · exact .inr (.inl ((Nat.prime_dvd_prime_iff_eq hq h2).mp hdvd))
  · obtain _ | shift := shift
    · exact absurd hdvd hq.not_dvd_one
    · exact .inr (.inr ⟨(Nat.prime_dvd_prime_iff_eq hq Nat.prime_two).mp (hq.dvd_of_dvd_pow hdvd), by omega⟩)

/-- The three tests try the exponent (p − 1) / q for every prime divisor q of p − 1 (R242, R243). -/
theorem ThreeTests.pow_div_ne_one {prime1 prime2 shift p g q : Nat} (h : ThreeTests prime1 prime2 shift p g)
    (h1 : prime1.Prime) (h2 : prime2.Prime) (hq : q.Prime) (hdvd : q ∣ prime1 * prime2 * 2 ^ shift) :
    g ^ (prime1 * prime2 * 2 ^ shift / q) % p ≠ 1 := by
  obtain ⟨htest1, htest2, htest3⟩ := h
  obtain rfl | rfl | ⟨rfl, hshift⟩ := prime_divisor_cases h1 h2 hq hdvd
  · rwa [mul_assoc, Nat.mul_div_cancel_left _ hq.pos]
  · rwa [mul_right_comm, Nat.mul_div_cancel _ hq.pos]
  · obtain ⟨k, rfl⟩ := Nat.exists_eq_add_of_le' hshift
    rwa [pow_succ, ← mul_assoc, Nat.mul_div_cancel _ hq.pos]

section
variable {prime1 prime2 shift p g : Nat} (hp : p.Prime) (hpos : 0 < g) (hlt : g < p)
include hp hpos hlt

/-- Fermat: for a prime p the final check passes (R244). -/
theorem cast_pow_pred_of_prime : (g : ZMod p) ^ (p - 1) = 1 := by
  have : Fact p.Prime := ⟨hp⟩
  refine ZMod.pow_card_sub_one_eq_one ?_
  rw [Ne, ZMod.natCast_eq_zero_iff]
  exact Nat.not_dvd_of_pos_of_lt hpos hlt

/-- For primes p, prime1 and prime2 a g that passes the three tests is a primitive root (R245). -/
theorem ThreeTests.orderOf_eq (h : ThreeTests prime1 prime2 shift p g) (h1 : prime1.Prime) (h2 : prime2.Prime)
    (hvalue : p = prime1 * prime2 * 2 ^ shift + 1) : orderOf (g : ZMod p) = p - 1 := by
  refine orderOf_eq_of_pow_and_pow_div_prime (Nat.sub_pos_of_lt hp.one_lt) (cast_pow_pred_of_prime hp hpos hlt) ?_
  intro q hq hdvd hone
  rw [show p - 1 = prime1 * prime2 * 2 ^ shift by omega] at hdvd hone
  exact h.pow_div_ne_one h1 h2 hq hdvd (mod_eq_one_of_cast hp.two_le (by push_cast; exact hone))

end

/-- Settles O60: by Fermat the final check passes, and the three tests rule out every proper divisor of p − 1. -/
theorem genpgPrimitiveRoot : Obligations.GenpgPrimitiveRoot := by
  intro s as rest sent prime1 prime2 shift p base g hs hL hN hrun hp h1 h2 hlo hhi hle hlt hbefore hg hr
  have hpos : 0 < g := by omega
  have hcheck : g ^ (p - 1) % p = 1 :=
    mod_eq_one_of_cast hp.two_le (by push_cast; exact cast_pow_pred_of_prime hp hpos hlt)
  obtain ⟨-, -, hexec⟩ := genpg s hs
  obtain ⟨-, -, hsuccess, -⟩ :=
    hexec as rest sent prime1 prime2 shift p base g hL hN hrun hlo hhi hle hbefore hg hr
  obtain ⟨hshifted, -⟩ := hrun.spec hL
  exact ⟨hsuccess hcheck, hg.orderOf_eq hp hpos hlt h1 h2 hshifted.value⟩

end Sys2Proof.Machine
end

section
/-! How a command ends: the errors it raises (O38), the interrupt output (O40) and the acknowledge (O20). -/

namespace Sys2Proof.Machine

/-! ### Errors -/

/-- A command that was issued while BUSY = 0 and has set ERR has raised an error of its rule, which CAUSE and EINFO name
(R261, R264). -/
theorem exec_err {i : Instr} {s t : State} (hb : s.status.busy = false) (h : exec i s = .next t)
    (herr : t.status.err = true) : ∃ e info, MayRaise i e info ∧ t.cause = e.code ∧ t.einfo = info := by
  rcases exec_cases hb h with ⟨rest, rfl⟩ | hrun
  · simp at herr
  · rcases conclude_next hrun with ⟨r, p, -, rfl⟩ | ⟨e, info, p, hraise, rfl⟩ | ⟨r, p, -, rfl⟩ | ⟨p, -, rfl⟩
    · simp at herr
    · exact ⟨e, info, (bodyOf_tame i s).raises _ e info p hraise, rfl, rfl⟩
    · simp at herr
    · simp at herr

/-- Settles O38: CAUSE holds the code of an error of the command's rule, and EINFO its detail. -/
theorem errorCauses : Obligations.ErrorCauses := by
  intro i s t hs h herr
  obtain ⟨e, info, hraise, hcause, hinfo⟩ := exec_err hs.1 h herr
  rw [hcause, hinfo]
  cases i with
  | isprime | verifyg | sieve => exact hraise
  | genpg => exact hraise.imp (And.imp_left (congrArg ErrorKind.code)) (And.imp_left (congrArg ErrorKind.code))
  | nextprime | rndprime | rndprimer | genpq | geng | powmod | mrwit | seedq | seedp =>
    exact And.imp_left (congrArg ErrorKind.code) hraise

/-! ### The interrupt output -/

/-- A command that was issued while BUSY = 0 is in flight with the flags of its start, or has ended in the phase DONE (R30,
R36). -/
theorem exec_phase {i : Instr} {s t : State} (hb : s.status.busy = false) (h : exec i s = .next t) :
    t.status = s.status.started ∨ t.status.phase = .done := by
  rcases exec_cases hb h with ⟨rest, rfl⟩ | hrun
  · exact .inl rfl
  · exact conclude_phase hrun

/-- Settles O40: the start clears DONE, every end sets it, and neither changes IE. -/
theorem completionInterrupt : Obligations.CompletionInterrupt := by
  intro i s t hb h
  have hie : t.ie = s.ie := (exec_frame hb h).ie
  rcases exec_phase hb h with hstart | hend
  · simp [State.irq, hstart]
  · obtain ⟨hbusy, hdone⟩ := (phase_done_iff _).mp hend
    simp [State.irq, hbusy, hdone, hie]

/-! ### The acknowledge -/

/-- Settles O20: the acknowledge is a write to STATUS with a 1 in bit 1 and a 0 in bit 5; a command starts whether or not
DONE is set. -/
theorem acknowledge_event : Obligations.Acknowledge := by
  intro s
  refine ⟨⟨_, statusWrite s 0x2#32, ?_, ?_⟩, fun i hb => ⟨_, exec_held hb, rfl, rfl⟩⟩
  · simp
  · simp [State.irq]

end Sys2Proof.Machine
end

section
/-! Reset and hazards (70_reset_and_hazards.md): writes while BUSY = 1 (O6, O22), the command that waits (O39), reset (O25)
and the idle engine (O26). -/

namespace Sys2Proof.Machine

/-! ### Writes while BUSY = 1 -/

/-- Issuing a command while BUSY = 1 is an ignored write (R307). -/
theorem exec_busy (i : Instr) {s : State} (hb : s.status.busy = true) : exec i s = .next (ignoreWrite s) := by
  rw [exec_eq_issue, issue_busy hb]

/-- A write to CMD while BUSY = 1 is ignored, whether or not its word decodes (R307). -/
theorem commandWrite_busy (w : Word) {s : State} (hb : s.status.busy = true) :
    commandWrite w s = .next (ignoreWrite s) := by
  cases hd : decode w with
  | ok i => rw [commandWrite_legal hd, exec_busy i hb]
  | error r => simp [commandWrite, hd, hb]

/-- Settles O6: while BUSY = 1 neither issuing a command nor a word written to CMD does more than set WIGN. -/
theorem commandWriteWhileBusy : Obligations.CommandWriteWhileBusy := fun s hb =>
  ⟨fun i => exec_busy i hb, fun w => step_commandWrite.trans (commandWrite_busy w (s := { s with reply := .accepted }) hb)⟩

theorem operandWrite_busy (store : State → State) {s : State} (hb : s.status.busy = true) :
    operandWrite store s = ignoreWrite s :=
  if_pos hb

/-- A write to an operand word while BUSY = 1 is ignored with WIGN <- 1 (R306). -/
theorem step_operandWrite_busy {s : State} {addr : Nat} (hb : s.status.busy = true)
    (h : OperandAddress s.nlimbs addr) (v : Word) :
    step (s.event (.write addr 32 v)) = .next (ignoreWrite { s with reply := .accepted }) := by
  obtain ⟨p, rfl⟩ | ⟨i, j, hj, rfl⟩ := h
  · obtain ⟨h4, hlt⟩ := paramOffset_ok p
    rw [step_plainWrite v h4 hlt (bankWord_param _ p) (by simp), plainWrite]
    exact congrArg _ (operandWrite_busy _ hb)
  · obtain ⟨h4, hlt, hword⟩ := limbWord s i hj
    rw [step_plainWrite v h4 hlt hword (by simp), plainWrite]
    exact congrArg _ (operandWrite_busy _ hb)

/-- Every word but the operands, CMD, STATUS and CTRL is read-only (R62 (e), R67, R68). -/
theorem bankWord_isReadOnly {n addr : Nat} (h4 : addr % 4 = 0) (hlt : addr < bankSize) (hop : ¬OperandAddress n addr)
    (hcmd : addr ≠ 0x008) (hstatus : addr ≠ 0x00C) (hctrl : addr ≠ 0x018) : (bankWord n addr).isReadOnly = true := by
  obtain ⟨cmd_at, status_at, ctrl_at, param_at, limb_at⟩ := bankWord_inv (n := n) h4 hlt
  cases hb : bankWord n addr with
  | id | cap | cause | einfo | table | reserved => rfl
  | cmd => exact absurd (cmd_at hb) hcmd
  | status => exact absurd (status_at hb) hstatus
  | ctrl => exact absurd (ctrl_at hb) hctrl
  | param p => exact absurd (.inl ⟨p, param_at p hb⟩) hop
  | limb i j => exact absurd (.inr ⟨i, j, limb_at i j hb⟩) hop

/-- Settles O22: operand words ignore the write with WIGN, STATUS and CTRL take it, and the words left are read-only. -/
theorem writesWhileBusy : Obligations.WritesWhileBusy := by
  intro s addr v h4 hlt
  refine ⟨fun hb hop => step_operandWrite_busy hb hop v, ?_, ?_, fun hop hcmd hstatus hctrl => ?_⟩
  · rintro rfl
    exact ⟨_, statusWrite s v, rfl, rfl⟩
  · rintro rfl
    obtain ⟨-, -, _, hstep, rfl, -⟩ := controlWrite s v
    exact hstep
  · exact ignoresWrite_readOnly v h4 hlt rfl (bankWord_isReadOnly h4 hlt hop hcmd hstatus hctrl)

/-! ### A command in flight -/

/-- Settles O39: a command whose loops all end (`bodyOf_ends`) is left in flight only by a request without an answer. -/
theorem inFlightWaits : Obligations.InFlightWaits := by
  intro i s t f hs h hf hi
  rw [issue_prompt hs] at h
  rcases conclude_next h with ⟨r, p, -, rfl⟩ | ⟨e, info, p, -, rfl⟩ | ⟨r, p, -, rfl⟩ | ⟨p, hnever, -⟩
  · simp at hf
  · simp at hf
  · cases hf
    exact ⟨r, rfl⟩
  · exact absurd hnever (bodyOf_ends i s hi _ p)

/-! ### No command in flight -/

section idle
variable {s : State} (h : s.inFlight = none)
include h

theorem engineMove_idle : engineMove s = .next s := by simp [engineMove, h]

/-- Without a command the random source's answer is ignored (R301). -/
theorem randomAnswer_idle (v : Nat) : randomAnswer v s = .next s := by simp [randomAnswer, h]

/-- Without a command the oracle's answer is ignored (R301). -/
theorem oracleAnswer_idle : oracleAnswer s = .next s := by simp [oracleAnswer, h]

end idle

/-- Settles O26: the engine's move and both answers look for the command in flight first. -/
theorem engineIdle : Obligations.EngineIdle := fun _ h =>
  ⟨engineMove_idle h, randomAnswer_idle h, oracleAnswer_idle h, fun hs => (step_empty hs).trans (engineMove_idle h)⟩

/-! ### Reset -/

/-- An answer after which the host moves first, and then reset: whatever command and working state the answer left, reset
gives what it gives without the answer (R301). -/
theorem run_answer_reset {s : State} {e : Event} {f : InFlight}
    (h : handleEvent e { s with script := .engineLate :: .reset :: s.script } =
      .next { s with inFlight := some f, script := .reset :: s.script }) :
    Host.Core.run Sys2Proof.core 2 { s with script := e :: .engineLate :: .reset :: s.script } = .next (hardReset s) := by
  have hanswer : step { s with script := e :: .engineLate :: .reset :: s.script } =
      .next { s with inFlight := some f, script := .reset :: s.script } := h
  have hreset : step { s with inFlight := some f, script := .reset :: s.script } = .next (hardReset s) := rfl
  exact (run_core_succ 1 hanswer).trans (run_core_succ 0 hreset)

section held
variable {s : State} {f : InFlight} {rest : List Event} (hf : s.inFlight = some f)
include hf

/-- A state with its own work in it. -/
theorem withWork_self : s.withWork f s.requests s.randIn s.hashIn = s := by
  rw [State.withWork, ← hf]

/-- A random answer that comes while the engine is held back is recorded, and no more (R45, log entry 5). -/
theorem randomAnswer_held {r : Request} (v : Nat) (ho : f.outstanding = some r) (hr : r.isHash = false) :
    randomAnswer v { s with script := .engineLate :: rest } =
      .next { s with inFlight := some (receiveRandom v f), script := rest } := by
  rw [← withWork_self (s := { s with script := .engineLate :: rest }) hf, randomAnswer_withWork _ _ _ _ _ v ho hr]
  exact engineTurn_late rfl

/-- A digest that comes while the engine is held back is recorded, and no more. -/
theorem oracleAnswer_held {m : List Byte} (ho : f.outstanding = some (.hash m)) :
    oracleAnswer { s with script := .engineLate :: rest } =
      .next { s with inFlight := some (receiveDigest f), script := rest } := by
  rw [← withWork_self (s := { s with script := .engineLate :: rest }) hf, oracleAnswer_withWork _ _ _ _ _ ho]
  exact engineTurn_late rfl

end held

/-- Settles O25: reset leaves no command, so the engine is idle after it; an answer before it is recorded only in the
command that reset discards. -/
theorem resetEvent : Obligations.ResetEvent := by
  intro s
  obtain ⟨hengine, hrandom, hdigest, -⟩ := engineIdle (hardReset s) rfl
  refine ⟨hardReset s, rfl, rfl, hrandom, hdigest, hengine, fun f r hf ho => ?_⟩
  cases r with
  | randBits k => exact fun v => run_answer_reset (randomAnswer_held hf v ho rfl)
  | randRange lo hi => exact fun v => run_answer_reset (randomAnswer_held hf v ho rfl)
  | hash m => exact run_answer_reset (oracleAnswer_held hf ho)

end Sys2Proof.Machine
end
